-- ==== Sys2Proof/Word.lean ====
section
/-! DEFINITION. The words of the block: bus words and bytes, register indices, and the two limb widths with the
constants the spec derives from them (00_scope R7, R11). -/

namespace Sys2Proof

/-- A 32-bit bus word, register value or command word (10_state R31, 30_encoding R110). -/
abbrev Word := BitVec 32

/-- One byte of operand memory. -/
abbrev Byte := BitVec 8

/-- A descriptor register index, 0 to 7 (30_encoding R112). -/
abbrev DIdx := BitVec 3

/-- `LIMB_BITS`: the limb width W is 32 or 64 (00_scope R7). -/
inductive LimbBits where
  | w32
  | w64
deriving DecidableEq, Repr

/-- W, the number of bits of a limb (00_scope R7). -/
def LimbBits.bits : LimbBits → Nat
  | .w32 => 32
  | .w64 => 64

/-- W / 8, the number of bytes of a limb. -/
def LimbBits.bytes : LimbBits → Nat
  | .w32 => 4
  | .w64 => 8

/-- W / 32, the number of bus words of a limb (20_memory R82). -/
def LimbBits.words : LimbBits → Nat
  | .w32 => 1
  | .w64 => 2

/-- `B` = 2^W, the limb radix (00_scope R11). -/
def LimbBits.base (w : LimbBits) : Nat := 2 ^ w.bits

/-- `ALIGN_LIMBS` = 512 / W, one 64-byte line (00_scope R11). -/
def LimbBits.alignLimbs (w : LimbBits) : Nat := 512 / w.bits

end Sys2Proof
end

