-- ==== Sys2Proof/Syntax.lean ====
section
/-! DEFINITION. The commands of the block: one constructor per row of spec/opcode_table.json (30_encoding R120), with
the used fields of each row as its operands (R113). -/

namespace Sys2Proof

/-- BUFSZ's selector RY (30_encoding R119). -/
inductive BufSel where
  /-- 0: scratch for EXPBIN -/
  | bin
  /-- 1: scratch for EXPCT -/
  | ct
  /-- 2: scratch for EXPWIN -/
  | win
  /-- 3: context room for MSETUP -/
  | ctx
deriving DecidableEq, Repr

/-- A command. Operands stand in field order RD, RA, RB, RC, RS, RX, RY, WIN, the unused fields left out; a `DIdx`
names the latched descriptor LD[i] (30_encoding R112), and `win` is the 3-bit field WIN (R115). -/
inductive Instr where
  | msetup (rd ra : DIdx)
  | bufsz (ra rb : DIdx) (sel : BufSel) (win : BitVec 3)
  | menc (rd ra rc : DIdx)
  | mdec (rd ra rc : DIdx)
  | mmul (rd ra rb rc : DIdx)
  | msqr (rd ra rc : DIdx)
  | mred (rd ra rc : DIdx)
  | madd (rd ra rb rc : DIdx)
  | msub (rd ra rb rc : DIdx)
  | mneg (rd ra rc : DIdx)
  | mhalf (rd ra rc : DIdx)
  | mdbl (rd ra rc : DIdx)
  | mtpl (rd ra rc : DIdx)
  | expbin (rd ra rb rc rs : DIdx)
  | expct (rd ra rb rc rs : DIdx)
  | expwin (rd ra rb rc rs : DIdx) (win : BitVec 3)
  | gcd (rd ra rb : DIdx)
  | minv (rd ra rb : DIdx)
  | crtrec (rd ra rb rc rx ry : DIdx)
deriving DecidableEq, Repr

end Sys2Proof
end

