-- ==== Sys2Proof/WellFormed.lean ====
section
/-! DEFINITION. Which terms of `Instr` an encoding stands for: the value restrictions of 30_encoding R115 and R119. -/

namespace Sys2Proof

/-- WIN = 7 is reserved (R115); BUFSZ's WIN must be 0 unless the selector is 2, EXPWIN's scratch (R119). Every
register index is legal (R114), and the other commands have no numeric field. -/
def Instr.wellFormed : Instr → Bool
  | .bufsz _ _ sel win => win != 7#3 && (sel == .win || win == 0#3)
  | .expwin _ _ _ _ _ win => win != 7#3
  | .msetup _ _ | .menc _ _ _ | .mdec _ _ _ | .mmul _ _ _ _ | .msqr _ _ _ | .mred _ _ _ | .madd _ _ _ _
  | .msub _ _ _ _ | .mneg _ _ _ | .mhalf _ _ _ | .mdbl _ _ _ | .mtpl _ _ _ | .expbin _ _ _ _ _
  | .expct _ _ _ _ _ | .gcd _ _ _ | .minv _ _ _ | .crtrec _ _ _ _ _ _ => true

end Sys2Proof
end

