-- ==== Sys2Proof/Decode.lean ====
section
/-! DEFINITION. Decoding a command word (30_encoding R110, R111, R120, R124), total on every word and refusing by
name, and the encoder, written from the same table. -/

namespace Sys2Proof

/-- Why a word is no command (30_encoding R124): `opcode` completes with ERR_OPCODE, `field` with ERR_FIELD. -/
inductive DecodeError where
  /-- OP is not in the opcode map (R123). -/
  | opcode
  /-- An unused field is non-zero, or WIN or the BUFSZ selector is reserved (R114, R115, R119). -/
  | field
deriving DecidableEq, Repr

/-- The fields of a command word (30_encoding R111). -/
structure Fields where
  rd : BitVec 3
  ra : BitVec 3
  rb : BitVec 3
  rc : BitVec 3
  rs : BitVec 3
  rx : BitVec 3
  ry : BitVec 3
  win : BitVec 3
deriving DecidableEq, Repr

/-- OP, bits [7:0]. -/
def opOf (w : Word) : Byte := w.extractLsb' 0 8

/-- The fields of a word at the bit positions of 30_encoding R111. -/
def fieldsOf (w : Word) : Fields :=
  { rd := w.extractLsb' 8 3, ra := w.extractLsb' 11 3, rb := w.extractLsb' 14 3, rc := w.extractLsb' 17 3
    rs := w.extractLsb' 20 3, rx := w.extractLsb' 23 3, ry := w.extractLsb' 26 3, win := w.extractLsb' 29 3 }

/-- BUFSZ's fields: selectors 4 to 7 are reserved, WIN must be 0 unless the selector is 2, and WIN = 7 is reserved
(30_encoding R119, R124). -/
def buildBufsz (f : Fields) : Except DecodeError Instr :=
  match f.ry.toNat with
  | 0 => if f.win = 0#3 then .ok (.bufsz f.ra f.rb .bin f.win) else .error .field
  | 1 => if f.win = 0#3 then .ok (.bufsz f.ra f.rb .ct f.win) else .error .field
  | 2 => if f.win = 7#3 then .error .field else .ok (.bufsz f.ra f.rb .win f.win)
  | 3 => if f.win = 0#3 then .ok (.bufsz f.ra f.rb .ctx f.win) else .error .field
  | _ => .error .field

/-- EXPWIN's fields: WIN = 7 is reserved (30_encoding R115, R124). -/
def buildExpwin (f : Fields) : Except DecodeError Instr :=
  if f.win = 7#3 then .error .field else .ok (.expwin f.rd f.ra f.rb f.rc f.rs f.win)

/-- One row of the opcode map (30_encoding R120). The row's `match` value is its opcode zero-extended to 32 bits. -/
structure OpRow where
  op : Byte
  mask : Word
  build : Fields → Except DecodeError Instr

/-- The opcode map, in the order of 30_encoding R120. -/
def opTable : List OpRow := [
  ⟨0x01#8, 0xFFFFC0FF#32, fun f => .ok (.msetup f.rd f.ra)⟩,
  ⟨0x02#8, 0x03FE07FF#32, buildBufsz⟩,
  ⟨0x10#8, 0xFFF1C0FF#32, fun f => .ok (.menc f.rd f.ra f.rc)⟩,
  ⟨0x11#8, 0xFFF1C0FF#32, fun f => .ok (.mdec f.rd f.ra f.rc)⟩,
  ⟨0x12#8, 0xFFF000FF#32, fun f => .ok (.mmul f.rd f.ra f.rb f.rc)⟩,
  ⟨0x13#8, 0xFFF1C0FF#32, fun f => .ok (.msqr f.rd f.ra f.rc)⟩,
  ⟨0x14#8, 0xFFF1C0FF#32, fun f => .ok (.mred f.rd f.ra f.rc)⟩,
  ⟨0x18#8, 0xFFF000FF#32, fun f => .ok (.madd f.rd f.ra f.rb f.rc)⟩,
  ⟨0x19#8, 0xFFF000FF#32, fun f => .ok (.msub f.rd f.ra f.rb f.rc)⟩,
  ⟨0x1A#8, 0xFFF1C0FF#32, fun f => .ok (.mneg f.rd f.ra f.rc)⟩,
  ⟨0x1B#8, 0xFFF1C0FF#32, fun f => .ok (.mhalf f.rd f.ra f.rc)⟩,
  ⟨0x1C#8, 0xFFF1C0FF#32, fun f => .ok (.mdbl f.rd f.ra f.rc)⟩,
  ⟨0x1D#8, 0xFFF1C0FF#32, fun f => .ok (.mtpl f.rd f.ra f.rc)⟩,
  ⟨0x20#8, 0xFF8000FF#32, fun f => .ok (.expbin f.rd f.ra f.rb f.rc f.rs)⟩,
  ⟨0x21#8, 0xFF8000FF#32, fun f => .ok (.expct f.rd f.ra f.rb f.rc f.rs)⟩,
  ⟨0x22#8, 0x1F8000FF#32, buildExpwin⟩,
  ⟨0x30#8, 0xFFFE00FF#32, fun f => .ok (.gcd f.rd f.ra f.rb)⟩,
  ⟨0x31#8, 0xFFFE00FF#32, fun f => .ok (.minv f.rd f.ra f.rb)⟩,
  ⟨0x40#8, 0xE07000FF#32, fun f => .ok (.crtrec f.rd f.ra f.rb f.rc f.rx f.ry)⟩]

/-- Decoding of a latched command word, in the order of 30_encoding R124: the opcode, then the unused fields, then
the reserved field values. -/
def decode (w : Word) : Except DecodeError Instr :=
  match opTable.find? (fun row => row.op = opOf w) with
  | none => .error .opcode
  | some row => if w &&& row.mask = row.op.setWidth 32 then row.build (fieldsOf w) else .error .field

/-- The word with opcode `op` and fields `f`: 30_encoding R111's fields side by side, WIN uppermost. -/
def wordOf (op : Byte) (f : Fields) : Word :=
  f.win ++ f.ry ++ f.rx ++ f.rs ++ f.rc ++ f.rb ++ f.ra ++ f.rd ++ op

/-- RY of a BUFSZ selector (30_encoding R119). -/
def BufSel.code : BufSel → BitVec 3
  | .bin => 0#3
  | .ct => 1#3
  | .win => 2#3
  | .ctx => 3#3

/-- OP of a command (30_encoding R120). -/
def Instr.opcode : Instr → Byte
  | .msetup _ _ => 0x01#8
  | .bufsz _ _ _ _ => 0x02#8
  | .menc _ _ _ => 0x10#8
  | .mdec _ _ _ => 0x11#8
  | .mmul _ _ _ _ => 0x12#8
  | .msqr _ _ _ => 0x13#8
  | .mred _ _ _ => 0x14#8
  | .madd _ _ _ _ => 0x18#8
  | .msub _ _ _ _ => 0x19#8
  | .mneg _ _ _ => 0x1A#8
  | .mhalf _ _ _ => 0x1B#8
  | .mdbl _ _ _ => 0x1C#8
  | .mtpl _ _ _ => 0x1D#8
  | .expbin _ _ _ _ _ => 0x20#8
  | .expct _ _ _ _ _ => 0x21#8
  | .expwin _ _ _ _ _ _ => 0x22#8
  | .gcd _ _ _ => 0x30#8
  | .minv _ _ _ => 0x31#8
  | .crtrec _ _ _ _ _ _ => 0x40#8

/-- The fields of a command, every unused field 0 (30_encoding R113, R125). -/
def Instr.fields : Instr → Fields
  | .msetup rd ra => ⟨rd, ra, 0, 0, 0, 0, 0, 0⟩
  | .bufsz ra rb sel win => ⟨0, ra, rb, 0, 0, 0, sel.code, win⟩
  | .menc rd ra rc | .mdec rd ra rc | .msqr rd ra rc | .mred rd ra rc | .mneg rd ra rc | .mhalf rd ra rc
  | .mdbl rd ra rc | .mtpl rd ra rc => ⟨rd, ra, 0, rc, 0, 0, 0, 0⟩
  | .mmul rd ra rb rc | .madd rd ra rb rc | .msub rd ra rb rc => ⟨rd, ra, rb, rc, 0, 0, 0, 0⟩
  | .expbin rd ra rb rc rs | .expct rd ra rb rc rs => ⟨rd, ra, rb, rc, rs, 0, 0, 0⟩
  | .expwin rd ra rb rc rs win => ⟨rd, ra, rb, rc, rs, 0, 0, win⟩
  | .gcd rd ra rb | .minv rd ra rb => ⟨rd, ra, rb, 0, 0, 0, 0, 0⟩
  | .crtrec rd ra rb rc rx ry => ⟨rd, ra, rb, rc, 0, rx, ry, 0⟩

/-- The command word the assembler emits for a well-formed command (30_encoding R125, R127). -/
def encode (i : Instr) : Word := wordOf i.opcode i.fields

/-- The command word in the numbering of spec/opcode_table.json. A command is one 32-bit word, so every bit above
`nbits` is 0 and bits from 32 on do not exist (30_encoding R110). -/
def tableWord (nbits w : Nat) : Word := BitVec.ofNat 32 (w % 2 ^ nbits)

/-- The command the decoder reads from a word given in the table's numbering; `none` where it refuses. -/
def decodeTableWord (nbits w : Nat) : Option Instr := (decode (tableWord nbits w)).toOption

end Sys2Proof
end

