-- ==== Sys2Proof/Config.lean ====
section
/-! DEFINITION. What an implementation fixes: the parameters of 00_scope R7 to R10, the constants of R3 and R11, and
the platform parameters no behaviour of the block depends on. -/

namespace Sys2Proof

/-- The implementation parameters a model takes as an argument (00_scope R7 to R9). They are plain data, held in
`State.params` and changed by no step, so a statement about every state holds for every choice of them
(assumption 1). -/
structure Params where
  /-- `LIMB_BITS`, W (R7). -/
  limbBits : LimbBits
  /-- `MEM_LIMBS`, the number of limbs of OPMEM (R8). -/
  memLimbs : Nat
  /-- `MAX_MOD_LIMBS`, the largest modulus MSETUP accepts, in limbs (R9). -/
  maxModLimbs : Nat
deriving DecidableEq, Repr

/-- The ranges 00_scope R8 and R9 give the parameters. -/
abbrev Params.Legal (p : Params) : Prop :=
  1 ≤ p.memLimbs ∧ p.memLimbs ≤ 65536 ∧ 1 ≤ p.maxModLimbs ∧ p.maxModLimbs ≤ min 65535 p.memLimbs

/-- B for these parameters. -/
abbrev Params.base (p : Params) : Nat := p.limbBits.base

/-- The parameters of 95_test_vectors's conventions: W = 32, MEM_LIMBS = 256, MAX_MOD_LIMBS = 64.
DESIGN CHOICE (assumption 2), unsafe only for a claim about `State.reset` itself. -/
def Config.defaultParams : Params := { limbBits := .w32, memLimbs := 256, maxModLimbs := 64 }

/-- The value of `ID`: "MM" and the spec revision 7 (00_scope R3, 10_state R33). -/
def Config.idValue : Word := 0x4D4D0007#32

/-- `TAG`, the context authenticity tag "MONT", zero-extended to W bits (00_scope R11). -/
def Config.tag : Nat := 0x4D4F4E54

/-- `CTX_HDR`, the limbs of a context header (00_scope R11). -/
def Config.ctxHdr : Nat := 4

/-- The 2 MiB page of the bus the platform puts the block's aperture on (00_scope R10). Free: nothing constrains it. -/
opaque Config.blockPage : Nat

/-- `BLOCK_BASE`, aligned to 2 MiB (00_scope R10). All offsets of the model are relative to it. -/
def Config.blockBase : Nat := Config.blockPage * 0x200000

/-- `IRQ_LINE`, the platform input IRQ drives (60_exceptions R320). Free: nothing constrains it. -/
opaque Config.irqLine : Nat

end Sys2Proof
end

