-- ==== Sys2Proof/Machine/Arith.lean ====
section
/-! DEFINITION. The arithmetic the command rules use: bit and limb lengths (00_scope R14), inverses and the Montgomery
constants of a modulus (R18), modular power, the window policy and the scratch sizes (43_exponentiation R232). -/

namespace Sys2Proof.Machine

/-- `bitlen(v)`: 0 for 0, else floor(log2 v) + 1 (00_scope R14). -/
def bitlen (v : Nat) : Nat := if v = 0 then 0 else Nat.log2 v + 1

/-- `nlen(v)` = max(1, ceil(bitlen(v) / W)), the normalized limb length (00_scope R14). -/
def nlen (w : LimbBits) (v : Nat) : Nat := max 1 ((bitlen v + w.bits - 1) / w.bits)

/-- The loop of 44_gcd_inverse R263 on (A, Mv, X1, X2), `fuel` rounds at most: the inverse of a modulo n, or `none`
where it finds a common divisor. -/
def invLoop (n : Nat) : Nat → Nat → Nat → Nat → Nat → Option Nat
  | 0, _, _, _, _ => none
  | fuel + 1, a, mv, x1, x2 =>
    if a = 1 then some (x1 % n)
    else if a = 0 then none
    else
      let mv' := mv % a
      let x2' := x2 + mv / a * x1
      if mv' = 1 then some (n - x2')
      else if mv' = 0 then none
      else invLoop n fuel (a % mv') mv' (x1 + a / mv' * x2') x2'

/-- R263 from its start, (A, Mv, X1, X2) = (a, n, 1, 0). A round at least halves A, so bitlen(a) + 1 rounds do. -/
def modInverse (a n : Nat) : Option Nat := invLoop n (bitlen a + 1) a n 1 0

/-- The inverse of `a` modulo `n` in [0, n); 0 where there is none, and 0 for n = 1. -/
def invMod (a n : Nat) : Nat := (modInverse (a % n) n).getD 0

/-- `mp` = (-M⁻¹) mod B (00_scope R18). -/
def negInv (w : LimbBits) (modulus : Nat) : Nat := (w.base - invMod modulus w.base) % w.base

/-- `R` = B^m for an m-limb modulus (00_scope R18). -/
def montR (w : LimbBits) (m : Nat) : Nat := w.base ^ m

/-- `Rinv`, the inverse of R modulo M (00_scope R18). -/
def montRinv (w : LimbBits) (m modulus : Nat) : Nat := invMod (montR w m) modulus

/-- b^e mod m by `k` squarings, for e < 2^k. -/
def powModBits (m : Nat) : Nat → Nat → Nat → Nat
  | 0, _, _ => 1 % m
  | k + 1, b, e =>
    let h := powModBits m k (b * b % m) (e / 2)
    if e % 2 = 1 then b * h % m else h

/-- b^e mod m (`Laws.powMod_eq`), computed without the power itself. -/
def powMod (b e m : Nat) : Nat := powModBits m (bitlen e) b e

/-- (a - b) mod m over the integers, in [0, m) (00_scope R13). -/
def subMod (a b m : Nat) : Nat := (((a : Int) - (b : Int)) % (m : Int)).toNat

/-- `roundup(x, a)`: the least multiple of a that is at least x (43_exponentiation R232). -/
def roundup (x a : Nat) : Nat := (x + a - 1) / a * a

/-- `WPOL(ebits)`, the window policy (43_exponentiation R232). -/
def wpol (ebits : Nat) : Nat :=
  if ebits > 4096 then 6
  else if ebits > 2666 then 5
  else if ebits > 717 then 4
  else if ebits > 178 then 3
  else if ebits > 41 then 2
  else 1

/-- The window width of WIN for an exponent of `ebits` bits: the policy's for 0, else WIN itself (30_encoding R115). -/
def windowWidth (win : BitVec 3) (ebits : Nat) : Nat := if win = 0#3 then wpol ebits else win.toNat

/-- Scratch of EXPBIN, 3m (43_exponentiation R232). -/
def needBin (m : Nat) : Nat := 3 * m

/-- Scratch of EXPCT, 4m (43_exponentiation R232). -/
def needCt (m : Nat) : Nat := 4 * m

/-- Scratch of EXPWIN with window width `width` (43_exponentiation R232). -/
def needWin (w : LimbBits) (width m : Nat) : Nat := roundup (2 ^ width * m) w.alignLimbs + 3 * m

/-- Context room of MSETUP, 4 + 3m (30_encoding R121). -/
def needCtx (m : Nat) : Nat := Config.ctxHdr + 3 * m

end Sys2Proof.Machine
end

