-- ==== Sys2Proof/Machine/State.lean ====
section
/-! DEFINITION. The state of the block and of the two agents around it, as plain data, with the reasons a step can
stop and the state after reset. -/

namespace Sys2Proof.Machine

/-- The reasons the machine stops with a fault: the four model faults of 00_scope R20 and 60_exceptions R312. Each is
SAFE: the spec gives the hardware's result no value there, and the model has fewer runs than the hardware. -/
inductive Fault where
  /-- A read of an undefined OPMEM limb (70_reset_and_hazards R353). Raised by a command reading a source or a context
  limb (40_common R159) and by a host read of the window. Safe. -/
  | uninitRead
  /-- A context that passes the TAG and m checks but is not consistent (40_common R156). Raised by LoadCtx. Safe. -/
  | ctxInconsistent
  /-- A host access to an OPMEM word while BUSY (70_reset_and_hazards R360). Raised by a bus access. Safe. -/
  | hostHazard
  /-- A host access that is not a 32-bit access at a multiple of 4 (20_memory R83). Raised by a bus access. Safe. -/
  | busError
deriving DecidableEq, Repr

/-- The reasons an instruction has no meaning in the model. -/
inductive Refusal where
  /-- Raised by `exec` alone, for a command that has no meaning yet. Safe. No arm of this model raises it. -/
  | notModelled (mnemonic : String)
deriving DecidableEq, Repr

/-- The completion codes of 60_exceptions R300. -/
inductive ErrCode where
  | ok
  | opcode
  | field
  | bounds
  | overlap
  | tag
  | ctx
  | scratch
  | room
  | evenModulus
  | range
  | zeroGcd
  | notInvertible
deriving DecidableEq, Repr

/-- The engine's phase (10_state R55), read as STATUS.BUSY. -/
inductive Phase where
  | idle
  | busy
deriving DecidableEq, Repr

/-- Eight 32-bit descriptor registers: D0 to D7, or their latched copies (10_state R41, R55). -/
structure DFile where
  d0 : Word
  d1 : Word
  d2 : Word
  d3 : Word
  d4 : Word
  d5 : Word
  d6 : Word
  d7 : Word
deriving DecidableEq, Repr

/-- All eight registers 0 (10_state R58). -/
def DFile.zero : DFile := ⟨0, 0, 0, 0, 0, 0, 0, 0⟩

/-- Operand memory: cells of byte address and byte, the addresses strictly rising. Byte `b` of limb `a` is at address
`a * (W / 8) + b`. An unlisted address is undefined and reads as no value (10_state R51, assumptions 6 and 7). -/
abbrev Memory := List Host.Cell

/-- The width of a host bus access (20_memory R83: only 32-bit accesses are allowed). -/
inductive BusWidth where
  | b8
  | b16
  | b32
  | b64
deriving DecidableEq, Repr

/-- A host access to the 2 MiB aperture, at a byte offset from BLOCK_BASE (20_memory R80, R83). -/
inductive BusAccess where
  | read (width : BusWidth) (offset : BitVec 21)
  | write (width : BusWidth) (offset : BitVec 21) (value : Word)
deriving DecidableEq, Repr

/-- A host write on its way over a bus that does not keep order: issued by the host, not yet at the block (20_memory
R92). -/
structure PostedWrite where
  width : BusWidth
  offset : BitVec 21
  value : Word
deriving DecidableEq, Repr

/-- One operation of a host program: a bus access, or a pseudo-instruction of 30_encoding R126 that is more than a
list of bus accesses. -/
inductive HostOp where
  /-- One bus access. -/
  | access (a : BusAccess)
  /-- `WAIT`: read STATUS until BUSY = 0. -/
  | wait
  /-- `CHK code`: read STATUS and assert that ERRCODE = code. -/
  | chk (code : Byte)
  /-- `JERR code, label`: read STATUS and continue at operation `label` if ERRCODE = code. -/
  | jerr (code : Byte) (label : Nat)
deriving DecidableEq, Repr

/-- The host agent (10_state R30) and its bus: its program, its position in it, the data its last bus access read (none
after a write), whether every CHK held so far, and what the bus does with its writes. The block's own rules name none of
these fields (assumptions 4, 5, 16 and 19). -/
structure HostAgent where
  prog : List HostOp
  pos : Nat
  data : Option Word
  checksOk : Bool
  /-- `HOST_BUS_ORDERED`, the open parameter of 20_memory R92: whether the bus keeps the order of the host's writes up to
  its CMD write (93_implementation_defined U17). No step changes it. -/
  busOrdered : Bool
  /-- The host's writes still on the bus, in program order; none where the bus keeps order. -/
  posted : List PostedWrite
deriving DecidableEq, Repr

/-- The host before its first operation, with no program (assumption 4), on a bus that keeps order, as every rule of the
spec assumes (20_memory R92, assumption 16). -/
def HostAgent.empty : HostAgent :=
  { prog := [], pos := 0, data := none, checksOk := true, busOrdered := true, posted := [] }

/-- Whose turn it is: one atomic step of one agent, the arrival of a host write at the block, or a reset (60_exceptions
R321, 20_memory R91, R92, 70_reset_and_hazards R350). -/
inductive Turn where
  | host
  | engine
  /-- Write number `n` of the host's posted writes, 0 the oldest, reaches the block. -/
  | arrive (n : Nat)
  /-- Power-on reset: OPMEM becomes undefined (R351). -/
  | powerOn
  /-- Any other reset: OPMEM is kept (R351), but for an abandoned command's written ranges (R352). -/
  | warmReset
deriving DecidableEq, Repr

/-- Everything the spec gives the machine (10_state R31, R50, R55), its parameters, and the model's own fields for the
environment (`host`, `turns`). -/
structure State where
  /-- The parameters W, MEM_LIMBS and MAX_MOD_LIMBS (00_scope R7 to R9). No step changes them. -/
  params : Params
  /-- IDLE or BUSY (10_state R55); STATUS.BUSY. -/
  phase : Phase
  /-- LCMD, the latched command word, read as CMD (10_state R38, R55). -/
  lcmd : Word
  /-- LD[0..7], the descriptors latched at issue (10_state R55). -/
  ld : DFile
  /-- D0 to D7 (10_state R41). -/
  d : DFile
  /-- CTRL.IE (10_state R35). -/
  ie : Bool
  /-- STATUS.DONE (10_state R36). -/
  done : Bool
  /-- STATUS.OVR (10_state R36). -/
  ovr : Bool
  /-- STATUS.ERRCODE (10_state R36). -/
  errcode : Byte
  /-- RESULT (10_state R39). -/
  result : Word
  /-- OPMEM (10_state R50, R51). -/
  mem : Memory
  /-- The host agent and its bus (10_state R30, 20_memory R92). -/
  host : HostAgent
  /-- The turns that come next; with none listed a BUSY engine moves, else the oldest posted write
  arrives, else the host moves (assumption 3). -/
  turns : List Turn
deriving DecidableEq, Repr

/-- The machine after power-on reset with parameters `p`: 10_state R58, 70_reset_and_hazards R350, R351. -/
def State.resetWith (p : Params) : State :=
  { params := p, phase := .idle, lcmd := 0#32, ld := DFile.zero, d := DFile.zero, ie := false, done := false
    ovr := false, errcode := 0#8, result := 0#32, mem := [], host := HostAgent.empty, turns := [] }

/-- The machine right after power-on reset, with 95_test_vectors's parameters (assumption 2). -/
def State.reset : State := State.resetWith Config.defaultParams

end Sys2Proof.Machine
end

