-- ==== Sys2Proof/Machine/Flags.lean ====
section
/-! DEFINITION. The status register, its flags and codes, the other constant and computed register values, and IRQ
(10_state R33 to R42, 60_exceptions R300). -/

namespace Sys2Proof.Machine

/-- The 8-bit value of a completion code (60_exceptions R300). -/
def ErrCode.code : ErrCode → Byte
  | .ok => 0x00#8
  | .opcode => 0x01#8
  | .field => 0x02#8
  | .bounds => 0x03#8
  | .overlap => 0x04#8
  | .tag => 0x05#8
  | .ctx => 0x06#8
  | .scratch => 0x07#8
  | .room => 0x08#8
  | .evenModulus => 0x09#8
  | .range => 0x0A#8
  | .zeroGcd => 0x0B#8
  | .notInvertible => 0x0C#8

/-- STATUS.BUSY (10_state R36, R55). -/
def State.isBusy (s : State) : Bool := s.phase == .busy

/-- STATUS.ERR reads (ERRCODE ≠ 0x00) and holds no state of its own (10_state R36). -/
def State.err (s : State) : Bool := s.errcode != 0#8

/-- The value STATUS reads: ERRCODE in [15:8], ERR, OVR, DONE, BUSY in [3:0], reserved bits 0 (10_state R36). -/
def State.statusWord (s : State) : Word :=
  0#16 ++ s.errcode ++ 0#4 ++ BitVec.ofBool s.err ++ BitVec.ofBool s.ovr ++ BitVec.ofBool s.done
    ++ BitVec.ofBool s.isBusy

/-- The value CTRL reads: IE in bit 0, reserved bits 0 (10_state R35). -/
def State.ctrlWord (s : State) : Word := 0#31 ++ BitVec.ofBool s.ie

/-- The value CFG reads: MAX_MOD_LIMBS in [31:16], W in [7:0], [15:8] reserved (10_state R34). -/
def Params.cfgWord (p : Params) : Word :=
  BitVec.ofNat 16 p.maxModLimbs ++ 0#8 ++ BitVec.ofNat 8 p.limbBits.bits

/-- The value MEMSIZE reads, zext_32(MEM_LIMBS) (10_state R40). -/
def Params.memSizeWord (p : Params) : Word := BitVec.ofNat 32 p.memLimbs

/-- IRQ = CTRL.IE AND STATUS.DONE at every instant (10_state R42, 60_exceptions R320). -/
def State.irq (s : State) : Bool := s.ie && s.done

/-- A host write of `v` to STATUS: v[1] clears DONE, v[2] clears OVR, nothing else can be written (10_state R37). -/
def State.writeStatus (s : State) (v : Word) : State :=
  { s with done := s.done && !v.getLsbD 1, ovr := s.ovr && !v.getLsbD 2 }

/-- A host write of `v` to CTRL: bit 0 is IE, the reserved bits ignore the write (10_state R32, R35). -/
def State.writeCtrl (s : State) (v : Word) : State := { s with ie := v.getLsbD 0 }

end Sys2Proof.Machine
end

