-- ==== Sys2Proof/Machine/Operands.lean ====
section
/-! DEFINITION. Descriptor registers and what a descriptor names (30_encoding R112, R116, R117), and the two checks
over the ranges of a command (40_common R153, R154). -/

namespace Sys2Proof.Machine

/-- `x[i]`: register i of a descriptor file (00_scope R16). -/
def DFile.get (f : DFile) (i : DIdx) : Word :=
  match i.toNat with
  | 0 => f.d0
  | 1 => f.d1
  | 2 => f.d2
  | 3 => f.d3
  | 4 => f.d4
  | 5 => f.d5
  | 6 => f.d6
  | _ => f.d7

/-- `x[i] <- v` (00_scope R16). -/
def DFile.set (f : DFile) (i : DIdx) (v : Word) : DFile :=
  match i.toNat with
  | 0 => { f with d0 := v }
  | 1 => { f with d1 := v }
  | 2 => { f with d2 := v }
  | 3 => { f with d3 := v }
  | 4 => { f with d4 := v }
  | 5 => { f with d5 := v }
  | 6 => { f with d6 := v }
  | _ => { f with d7 := v }

/-- `addr(d)` = d[15:0], a limb address in OPMEM (00_scope R16). -/
def descAddr (d : Word) : Nat := (d.extractLsb' 0 16).toNat

/-- `len(d)` = d[31:16], a length in limbs (00_scope R16). -/
def descLen (d : Word) : Nat := (d.extractLsb' 16 16).toNat

/-- The descriptor value with these fields, as `SETD` writes it (30_encoding R126). -/
def mkDesc (addr len : Nat) : Word := BitVec.ofNat 16 len ++ BitVec.ofNat 16 addr

/-- A range is in bounds when ADDR + LEN ≤ MEM_LIMBS, without wrap-around (30_encoding R116). -/
def inBounds (p : Params) (d : Word) : Bool := descAddr d + descLen d ≤ p.memLimbs

/-- Limb `a` is in rng(d) = [addr(d), addr(d) + len(d)) (00_scope R16). -/
abbrev inRange (d : Word) (a : Nat) : Prop := descAddr d ≤ a ∧ a < descAddr d + descLen d

/-- Two ranges share at least one limb; an empty range overlaps nothing (30_encoding R116). -/
def rangesOverlap (d e : Word) : Bool :=
  max (descAddr d) (descAddr e) < min (descAddr d + descLen d) (descAddr e + descLen e)

/-- A used field of a command that names an OPMEM range: its latched descriptor, and whether the command writes the
range (a dst or scr role) or only reads it (a src or ctx role) (40_common section 2, 30_encoding R117). -/
structure Role where
  desc : Word
  written : Bool
deriving DecidableEq, Repr

/-- Every role's range is in bounds (40_common R153). -/
def allInBounds (p : Params) (roles : List Role) : Bool := roles.all (fun r => inBounds p r.desc)

/-- Some written role overlaps another role of the command: roles, not register indices (40_common R154). -/
def writtenOverlap : List Role → Bool
  | [] => false
  | r :: rest => rest.any (fun q => (r.written || q.written) && rangesOverlap r.desc q.desc) || writtenOverlap rest

end Sys2Proof.Machine
end

