-- ==== Sys2Proof/Machine/Ops.lean ====
section
/-! DEFINITION. The named operations: operand memory in bytes, limbs and multi-limb values (00_scope R15, 10_state
R51), the issue of a command (40_common R150), its completion with a result or with an error (R157, R158), and the
procedures every command shares: LoadCtx (R155) and ModTemplate (R164). -/

namespace Sys2Proof.Machine

/-! ### Operand memory -/

/-- The byte at a byte address; `none` where it is undefined (10_state R51). -/
def Memory.byte? : Memory → Nat → Option Byte
  | [], _ => none
  | c :: rest, a => if c.1 = a then some c.2 else Memory.byte? rest a

/-- Defines the byte at address `a`, keeping the addresses strictly rising. -/
def Memory.setByte : Memory → Nat → Byte → Memory
  | [], a, b => [(a, b)]
  | c :: rest, a, b =>
    if a < c.1 then (a, b) :: c :: rest
    else if a = c.1 then (a, b) :: rest
    else c :: Memory.setByte rest a b

/-- Makes the `n` bytes from `lo` on undefined. -/
def Memory.undefine (m : Memory) (lo n : Nat) : Memory := m.filter (fun c => !(lo ≤ c.1 && c.1 < lo + n))

/-- The canonical form of a memory: its addresses strictly rise. No entry can equal what an unlisted address reads
as, since that is no value. -/
abbrev Memory.wf (m : Memory) : Prop := m.Pairwise (fun c c' => c.1 < c'.1)

/-- The little-endian value of the `n` bytes from address `a` on; `none` if one of them is undefined. -/
def Memory.readBytes (m : Memory) : Nat → Nat → Option Nat
  | _, 0 => some 0
  | a, n + 1 =>
    match m.byte? a, m.readBytes (a + 1) n with
    | some b, some r => some (b.toNat + 256 * r)
    | _, _ => none

/-- Stores the low `n` bytes of `v`, least significant first, from address `a` on. -/
def Memory.writeBytes (m : Memory) : Nat → Nat → Nat → Memory
  | _, 0, _ => m
  | a, n + 1, v => (m.setByte a (BitVec.ofNat 8 v)).writeBytes (a + 1) n (v / 256)

/-- `OPMEM[a]`: limb `a`, or `none` where it is not defined: all of its bytes must be (10_state R51). -/
def Memory.limb? (m : Memory) (w : LimbBits) (a : Nat) : Option Nat := m.readBytes (a * w.bytes) w.bytes

/-- `OPMEM[a] <- v mod B`. -/
def Memory.setLimb (m : Memory) (w : LimbBits) (a v : Nat) : Memory := m.writeBytes (a * w.bytes) w.bytes v

/-- `MemRead(a, n)` = sum of OPMEM[a+i] B^i, 0 for n = 0 (00_scope R15); `none` if one of the limbs is undefined. -/
def Memory.memRead (m : Memory) (w : LimbBits) : Nat → Nat → Option Nat
  | _, 0 => some 0
  | a, n + 1 =>
    match m.limb? w a, m.memRead w (a + 1) n with
    | some l, some r => some (l + w.base * r)
    | _, _ => none

/-- `MemWrite(a, n, v)`: OPMEM[a+i] <- (v div B^i) mod B for every i < n (00_scope R15). -/
def Memory.memWrite (m : Memory) (w : LimbBits) : Nat → Nat → Nat → Memory
  | _, 0, _ => m
  | a, n + 1, v => (m.setLimb w a (v % w.base)).memWrite w (a + 1) n (v / w.base)

/-- Makes every limb of rng(d) undefined (10_state R51). -/
def Memory.undefineRange (m : Memory) (w : LimbBits) (d : Word) : Memory :=
  m.undefine (descAddr d * w.bytes) (descLen d * w.bytes)

/-! ### Issue -/

/-- The issue of command word `w`: the word and D0 to D7 are latched, DONE is cleared and the engine becomes BUSY;
nothing else changes (40_common R150). -/
def State.issue (s : State) (w : Word) : State :=
  { s with lcmd := w, ld := s.d, done := false, phase := .busy }

/-- A host write of `w` to CMD: it issues while IDLE, and while BUSY it is discarded and sets OVR (40_common R150,
R152). -/
def State.writeCmd (s : State) (w : Word) : State :=
  match s.phase with
  | .idle => s.issue w
  | .busy => { s with ovr := true }

/-! ### Completion -/

/-- What a successful command writes: its destination descriptor (BUFSZ has none), the integer result, the scalar
result, and for an exponentiation the scratch descriptor whose limbs become undefined (40_common R157,
43_exponentiation R233). -/
structure Done where
  dst : Option Word
  value : Nat
  scalar : Nat
  scratch : Option Word
deriving DecidableEq, Repr

/-- How a command's computation ends when it does not succeed: `raise Err(code)`, or a model fault (00_scope R17, R20). -/
inductive Stop where
  | err (c : ErrCode)
  | fault (f : Fault)
deriving DecidableEq, Repr

/-- OPMEM after the MemWrite of a result into a destination room, if the command has one. -/
def Memory.writeDst (m : Memory) (w : LimbBits) (dst : Option Word) (v : Nat) : Memory :=
  match dst with
  | none => m
  | some d => m.memWrite w (descAddr d) (descLen d) v

/-- OPMEM after the scratch range, if the command has one, became undefined. -/
def Memory.dropScratch (m : Memory) (w : LimbBits) (scratch : Option Word) : Memory :=
  match scratch with
  | none => m
  | some d => m.undefineRange w d

/-- Completion with a result, one atomic step (40_common R157). -/
def State.completeOk (s : State) (r : Done) : State :=
  { s with
    mem := (s.mem.writeDst s.params.limbBits r.dst r.value).dropScratch s.params.limbBits r.scratch
    result := BitVec.ofNat 32 r.scalar
    errcode := ErrCode.ok.code
    phase := .idle
    done := true }

/-- Completion with an error: only STATUS changes (40_common R158). -/
def State.completeErr (s : State) (c : ErrCode) : State :=
  { s with errcode := c.code, phase := .idle, done := true }

/-- The completion of a command whose computation ended as `r` (40_common R161). -/
def complete (s : State) (r : Except Stop Done) : Host.Outcome State Fault Refusal :=
  match r with
  | .ok d => .next (s.completeOk d)
  | .error (.err c) => .next (s.completeErr c)
  | .error (.fault f) => .fault f

/-! ### What a command reads -/

/-- All a command's computation may depend on: the parameters, the latched descriptors and OPMEM; not CTRL, D0 to D7,
time or any earlier command (40_common R161). -/
structure View where
  params : Params
  ld : DFile
  mem : Memory
deriving DecidableEq, Repr

/-- The part of a state that a command's computation sees. -/
def State.view (s : State) : View := { params := s.params, ld := s.ld, mem := s.mem }

/-- A check: `if not ok then raise Err(c)`. -/
def require (ok : Bool) (c : ErrCode) : Except Stop Unit := if ok then .ok () else .error (.err c)

/-- A value read from OPMEM, or the model fault of a read of an undefined limb (70_reset_and_hazards R353). -/
def defined (v : Option Nat) : Except Stop Nat :=
  match v with
  | some x => .ok x
  | none => .error (.fault .uninitRead)

/-- W of the block a command runs on. -/
abbrev View.w (v : View) : LimbBits := v.params.limbBits

/-- `LD[i]`. -/
abbrev View.desc (v : View) (i : DIdx) : Word := v.ld.get i

/-- The limb at `a` (40_common R159). -/
def View.limb (v : View) (a : Nat) : Except Stop Nat := defined (v.mem.limb? v.w a)

/-- `MemRead(a, n)` (40_common R159). -/
def View.read (v : View) (a n : Nat) : Except Stop Nat := defined (v.mem.memRead v.w a n)

/-- `val(d)` = MemRead(addr(d), len(d)); 0 for LEN = 0 (00_scope R16, 30_encoding R117). -/
def View.val (v : View) (d : Word) : Except Stop Nat := v.read (descAddr d) (descLen d)

/-- The dst or scr role of field i. -/
abbrev View.writes (v : View) (i : DIdx) : Role := { desc := v.desc i, written := true }

/-- The src or ctx role of field i. -/
abbrev View.reads (v : View) (i : DIdx) : Role := { desc := v.desc i, written := false }

/-- CheckBounds, then CheckOverlap, over a command's roles (40_common R153, R154). -/
def checkRoles (p : Params) (roles : List Role) : Except Stop Unit := do
  require (allInBounds p roles) .bounds
  require (!writtenOverlap roles) .overlap

/-! ### Modular contexts -/

/-- A modular context as LoadCtx returns it (40_common R155). -/
structure Ctx where
  m : Nat
  mbits : Nat
  mp : Nat
  modulus : Nat
  rm : Nat
  r2 : Nat
deriving DecidableEq, Repr

/-- What is left of a context's consistency after the TAG and m checks (30_encoding R122). -/
def Ctx.consistent (w : LimbBits) (c : Ctx) : Bool :=
  c.modulus % 2 == 1 && nlen w c.modulus == c.m && c.mbits == bitlen c.modulus && c.mp == negInv w c.modulus
    && c.rm == montR w c.m % c.modulus && c.r2 == montR w c.m ^ 2 % c.modulus

/-- A context that LoadCtx returns, or the model fault of an inconsistent one (40_common R156). -/
def Ctx.checked (w : LimbBits) (c : Ctx) : Except Stop Ctx :=
  match c.consistent w with
  | true => .ok c
  | false => .error (.fault .ctxInconsistent)

/-- `LoadCtx(d)` (40_common R155), with the model fault of an inconsistent context (R156). -/
def loadCtx (v : View) (d : Word) : Except Stop Ctx := do
  let a := descAddr d
  require (4 ≤ descLen d) .tag
  let tag ← v.limb a
  require (tag == Config.tag) .tag
  let m ← v.limb (a + 1)
  require (m != 0 && m ≤ v.params.maxModLimbs && needCtx m ≤ descLen d) .ctx
  let mbits ← v.limb (a + 2)
  let mp ← v.limb (a + 3)
  let modulus ← v.read (a + 4) m
  let rm ← v.read (a + 4 + m) m
  let r2 ← v.read (a + 4 + 2 * m) m
  Ctx.checked v.w { m := m, mbits := mbits, mp := mp, modulus := modulus, rm := rm, r2 := r2 }

/-- The modular-operation template up to the source values (40_common R164): the checks on the roles, the context, the
scratch length against `need` where the command has scratch, and the room. -/
def modTemplate (v : View) (rd : DIdx) (srcs : List DIdx) (rc : DIdx) (scr : Option DIdx) (need : Nat → Nat) :
    Except Stop Ctx := do
  checkRoles v.params (v.writes rd :: srcs.map v.reads ++ v.reads rc :: scr.toList.map v.writes)
  let c ← loadCtx v (v.desc rc)
  require (scr.all (fun rs => need c.m ≤ descLen (v.desc rs))) .scratch
  require (c.m ≤ descLen (v.desc rd)) .room
  .ok c

/-- A source value of field `i`, which must be below `bound` (ERR_RANGE) (40_common R164). -/
def View.srcBelow (v : View) (i : DIdx) (bound : Nat) : Except Stop Nat := do
  let a ← v.val (v.desc i)
  require (a < bound) .range
  .ok a

/-- The completion record of an integer result `r` for destination field `rd`, RESULT = nlen(r) (40_common R157). -/
def View.finish (v : View) (rd : DIdx) (r : Nat) : Done :=
  { dst := some (v.desc rd), value := r, scalar := nlen v.w r, scratch := none }

/-- A one-source modular command: template, range check a < `bound`, result `f` of context and source (40_common R164). -/
def modUnary (v : View) (rd ra rc : DIdx) (bound : Ctx → Nat) (f : Ctx → Nat → Nat) : Except Stop Done := do
  let c ← modTemplate v rd [ra] rc none (fun _ => 0)
  let a ← v.srcBelow ra (bound c)
  .ok (v.finish rd (f c a))

/-- A two-source modular command: both sources are read, then both must be below M (40_common R164, 41_montgomery
R183). -/
def modBinary (v : View) (rd ra rb rc : DIdx) (f : Ctx → Nat → Nat → Nat) : Except Stop Done := do
  let c ← modTemplate v rd [ra, rb] rc none (fun _ => 0)
  let a ← v.val (v.desc ra)
  let b ← v.val (v.desc rb)
  require (a < c.modulus && b < c.modulus) .range
  .ok (v.finish rd (f c a b))

end Sys2Proof.Machine
end

