-- ==== Sys2Proof/Machine/Bus.lean ====
section
/-! DEFINITION. The bus aperture: what stands at each offset (10_state R31, 20_memory R82), and the host's reads and
writes of it (R83, R88, 70_reset_and_hazards R353, R360). -/

namespace Sys2Proof.Machine

/-- What an offset of the aperture names. -/
inductive Target where
  | id
  | cfg
  | ctrl
  | status
  | cmd
  | result
  | memSize
  | desc (i : DIdx)
  /-- Word `k` of the implemented OPMEM window. -/
  | opmem (k : Nat)
  /-- Reads as zero, ignores writes (10_state R32). -/
  | reserved
deriving DecidableEq, Repr

/-- The number of bus words of the implemented OPMEM window (20_memory R82). -/
def Params.windowWords (p : Params) : Nat := p.memLimbs * p.limbBits.words

/-- The aperture's map (10_state R31, 20_memory R82) at an offset that is a multiple of 4. Offset 0x01C, 0x040 to
0x0FFFFF and everything from the window's end on are reserved, that tail while BUSY too: 70_reset_and_hazards R360 could
be read to cover it. DEDUCED (assumption 9), unsafe for a claim about such an access. -/
def target (p : Params) (offset : BitVec 21) : Target :=
  let o := offset.toNat
  if o = 0x000 then .id
  else if o = 0x004 then .cfg
  else if o = 0x008 then .ctrl
  else if o = 0x00C then .status
  else if o = 0x010 then .cmd
  else if o = 0x014 then .result
  else if o = 0x018 then .memSize
  else if 0x020 ≤ o ∧ o < 0x040 then .desc (BitVec.ofNat 3 ((o - 0x020) / 4))
  else if 0x100000 ≤ o ∧ (o - 0x100000) / 4 < Params.windowWords p then .opmem ((o - 0x100000) / 4)
  else .reserved

/-- Bus word `k` of the window: limb k for W = 32, half k mod 2 of limb k div 2 for W = 64, low half first (20_memory
R82). It has a value only where the whole limb is defined (10_state R51). -/
def Memory.word? (m : Memory) (w : LimbBits) (k : Nat) : Option Word :=
  match m.limb? w (k / w.words) with
  | some l => some (BitVec.ofNat 32 (l / 2 ^ (32 * (k % w.words))))
  | none => none

/-- Stores `v` in bus word `k` of the window and defines that part of its limb (20_memory R82, 10_state R51). -/
def Memory.setWord (m : Memory) (k : Nat) (v : Word) : Memory := m.writeBytes (4 * k) 4 v.toNat

/-- The data of a read of what stands at an offset. No read has a side effect (20_memory R88). A window word read while
BUSY is HostHazard, whether or not its limb is defined: the spec gives HostHazard (70_reset_and_hazards R360) and
UninitRead (R353) no order where both causes meet. DESIGN CHOICE (assumption 25), safe: the run stops either way. -/
def readTarget (s : State) : Target → Except Fault Word
  | .id => .ok Config.idValue
  | .cfg => .ok (Params.cfgWord s.params)
  | .ctrl => .ok s.ctrlWord
  | .status => .ok s.statusWord
  | .cmd => .ok s.lcmd
  | .result => .ok s.result
  | .memSize => .ok (Params.memSizeWord s.params)
  | .desc i => .ok (s.d.get i)
  | .opmem k =>
    match s.phase, s.mem.word? s.params.limbBits k with
    | .busy, _ => .error .hostHazard
    | .idle, some v => .ok v
    | .idle, none => .error .uninitRead
  | .reserved => .ok 0#32

/-- The state after a write of `v` to what stands at an offset (10_state R33 to R41, 20_memory R82, R88). -/
def writeTarget (s : State) (v : Word) : Target → Except Fault State
  | .ctrl => .ok (s.writeCtrl v)
  | .status => .ok (s.writeStatus v)
  | .cmd => .ok (s.writeCmd v)
  | .desc i => .ok { s with d := s.d.set i v }
  | .opmem k =>
    match s.phase with
    | .busy => .error .hostHazard
    | .idle => .ok { s with mem := s.mem.setWord k v }
  | .id | .cfg | .result | .memSize | .reserved => .ok s

/-- Only a 32-bit access at a multiple of 4 is allowed (20_memory R83). -/
def accessOk (width : BusWidth) (offset : BitVec 21) : Bool := width == .b32 && offset.toNat % 4 == 0

/-- The host's record of its last access: the data of a read, none after a write (assumption 5). -/
def State.recordData (s : State) (data : Option Word) : State := { s with host := { s.host with data := data } }

/-- A host write as the block performs it. A write that is not a 32-bit access at a multiple of 4 is BusError before
anything else, HostHazard included (assumption 26). -/
def busWrite (s : State) (width : BusWidth) (offset : BitVec 21) (v : Word) : Except Fault State :=
  if accessOk width offset then writeTarget s v (target s.params offset) else .error .busError

/-- One host access to the aperture, as the block performs it. An access of another width or at another offset is
BusError, also where it falls on the OPMEM window while BUSY or, IDLE, on an undefined limb: the spec gives BusError
(20_memory R83) no order against HostHazard (70_reset_and_hazards R360) and UninitRead (R353) where their causes meet.
DESIGN CHOICE (assumption 26), safe: the run stops either way. -/
def busAccess (s : State) : BusAccess → Host.Outcome State Fault Refusal
  | .read width offset =>
    if accessOk width offset then
      match readTarget s (target s.params offset) with
      | .ok v => .next (s.recordData (some v))
      | .error f => .fault f
    else .fault .busError
  | .write width offset v =>
    match busWrite s width offset v with
    | .ok t => .next (t.recordData none)
    | .error f => .fault f

end Sys2Proof.Machine
end

