-- ==== Sys2Proof/Machine/Crt.lean ====
section
/-! DEFINITION. The RSA CRT recombiner: CRTREC (45_crt R280). -/

namespace Sys2Proof.Machine

/-- Garner's recombination: h = qInv (xP - xQ) mod P over the integers, out = xQ + h Q (45_crt R280). -/
def crtValue (p q xp xq qinv : Nat) : Nat :=
  let h := ((qinv : Int) * ((xp : Int) - (xq : Int)) % (p : Int)).toNat
  xq + h * q

/-- The computation of CRTREC: the P context is loaded before the Q context, and all three sources are read before
their range check (45_crt R280). -/
def crtrecCmd (v : View) (rd ra rb rc rx ry : DIdx) : Except Stop Done := do
  checkRoles v.params [v.writes rd, v.reads ra, v.reads rb, v.reads rc, v.reads rx, v.reads ry]
  let cp ← loadCtx v (v.desc rc)
  let cq ← loadCtx v (v.desc rx)
  require (cp.m + cq.m ≤ descLen (v.desc rd)) .room
  let xp ← v.val (v.desc ra)
  let xq ← v.val (v.desc rb)
  let qinv ← v.val (v.desc ry)
  require (xp < cp.modulus && xq < cq.modulus && qinv < cp.modulus) .range
  .ok (v.finish rd (crtValue cp.modulus cq.modulus xp xq qinv))

/-- CRTREC: CRT recombination (R280). -/
def execCrtrec (rd ra rb rc rx ry : DIdx) (s : State) : Host.Outcome State Fault Refusal :=
  complete s (crtrecCmd s.view rd ra rb rc rx ry)

end Sys2Proof.Machine
end

