-- ==== Sys2Proof/Machine/Exponentiation.lean ====
section
/-! DEFINITION. The buffer-size query and the three exponentiation engines: BUFSZ, EXPBIN, EXPCT, EXPWIN
(43_exponentiation R230 to R236). -/

namespace Sys2Proof.Machine

/-- The size BUFSZ answers, in limbs, for a modulus of `m` limbs and an exponent of `ne` limbs (R230). -/
def bufferSize (w : LimbBits) (sel : BufSel) (win : BitVec 3) (m ne : Nat) : Nat :=
  match sel with
  | .bin => needBin m
  | .ct => needCt m
  | .win => needWin w (windowWidth win (ne * w.bits)) m
  | .ctx => needCtx m

/-- The computation of BUFSZ: only the LEN fields of RA and RB are read (R230). A term that no word decodes to ends
with ERR_FIELD, as decoding does (30_encoding R119, assumption 14). -/
def bufszCmd (v : View) (ra rb : DIdx) (sel : BufSel) (win : BitVec 3) : Except Stop Done := do
  require (Instr.bufsz ra rb sel win).wellFormed .field
  let m := descLen (v.desc ra)
  require (m != 0 && m ≤ v.params.maxModLimbs) .range
  .ok { dst := none, value := 0, scalar := bufferSize v.w sel win m (descLen (v.desc rb)), scratch := none }

/-- BUFSZ: the scratch-size query (R230). -/
def execBufsz (ra rb : DIdx) (sel : BufSel) (win : BitVec 3) (s : State) : Host.Outcome State Fault Refusal :=
  complete s (bufszCmd s.view ra rb sel win)

/-- `ExpMont(X, e, C)`: RM for e = 0, else X^e Rinv^(e-1) mod M (R231). -/
def expMont (w : LimbBits) (c : Ctx) (x e : Nat) : Nat :=
  if e = 0 then c.rm
  else powMod x e c.modulus * powMod (montRinv w c.m c.modulus) (e - 1) c.modulus % c.modulus

/-- An exponentiation command with scratch need `need`: template, base X < M, then the exponent; on success the scratch
range becomes undefined (R233 to R236). -/
def expCmd (v : View) (rd ra rb rc rs : DIdx) (need : Nat → Nat) : Except Stop Done := do
  let c ← modTemplate v rd [ra, rb] rc (some rs) need
  let x ← v.srcBelow ra c.modulus
  let e ← v.val (v.desc rb)
  let y := expMont v.w c x e
  .ok { dst := some (v.desc rd), value := y, scalar := nlen v.w y, scratch := some (v.desc rs) }

/-- EXPBIN: fast binary exponentiation (R234). -/
def execExpbin (rd ra rb rc rs : DIdx) (s : State) : Host.Outcome State Fault Refusal :=
  complete s (expCmd s.view rd ra rb rc rs needBin)

/-- EXPCT: constant-time binary exponentiation (R235). -/
def execExpct (rd ra rb rc rs : DIdx) (s : State) : Host.Outcome State Fault Refusal :=
  complete s (expCmd s.view rd ra rb rc rs needCt)

/-- The computation of EXPWIN: the window width comes from WIN, or from the policy on EBITS = len(RB) W (R236). A term
that no word decodes to ends with ERR_FIELD, as decoding does (assumption 14). -/
def expwinCmd (v : View) (rd ra rb rc rs : DIdx) (win : BitVec 3) : Except Stop Done := do
  require (Instr.expwin rd ra rb rc rs win).wellFormed .field
  expCmd v rd ra rb rc rs (needWin v.w (windowWidth win (descLen (v.desc rb) * v.w.bits)))

/-- EXPWIN: fixed-window exponentiation (R236). -/
def execExpwin (rd ra rb rc rs : DIdx) (win : BitVec 3) (s : State) : Host.Outcome State Fault Refusal :=
  complete s (expwinCmd s.view rd ra rb rc rs win)

end Sys2Proof.Machine
end

