-- ==== Sys2Proof/Machine/GcdInverse.lean ====
section
/-! DEFINITION. The extended GCD unit and the modular inverter: GCD, MINV (44_gcd_inverse R260, R261). -/

namespace Sys2Proof.Machine

/-- The computation of GCD (R260). -/
def gcdCmd (v : View) (rd ra rb : DIdx) : Except Stop Done := do
  checkRoles v.params [v.writes rd, v.reads ra, v.reads rb]
  let a ← v.val (v.desc ra)
  let b ← v.val (v.desc rb)
  require (!(a == 0 && b == 0)) .zeroGcd
  let g := Nat.gcd a b
  require (nlen v.w g ≤ descLen (v.desc rd)) .room
  .ok (v.finish rd g)

/-- GCD: greatest common divisor (R260). -/
def execGcd (rd ra rb : DIdx) (s : State) : Host.Outcome State Fault Refusal :=
  complete s (gcdCmd s.view rd ra rb)

/-- The computation of MINV (R261). -/
def minvCmd (v : View) (rd ra rb : DIdx) : Except Stop Done := do
  checkRoles v.params [v.writes rd, v.reads ra, v.reads rb]
  let a ← v.val (v.desc ra)
  let n ← v.val (v.desc rb)
  require (nlen v.w n ≤ descLen (v.desc rd)) .room
  require (0 < a && a < n) .range
  require (Nat.gcd a n == 1) .notInvertible
  .ok (v.finish rd (invMod a n))

/-- MINV: modular inverse (R261). -/
def execMinv (rd ra rb : DIdx) (s : State) : Host.Outcome State Fault Refusal :=
  complete s (minvCmd s.view rd ra rb)

end Sys2Proof.Machine
end

