-- ==== Sys2Proof/Machine/ModArith.lean ====
section
/-! DEFINITION. Modular add, subtract, negate, halve, double and triple (42_modular_arith R210 to R215). -/

namespace Sys2Proof.Machine

/-- MADD: (a + b) mod M (R210). -/
def execMadd (rd ra rb rc : DIdx) (s : State) : Host.Outcome State Fault Refusal :=
  complete s (modBinary s.view rd ra rb rc (fun c a b => (a + b) % c.modulus))

/-- MSUB: (a - b) mod M over the integers (R211). -/
def execMsub (rd ra rb rc : DIdx) (s : State) : Host.Outcome State Fault Refusal :=
  complete s (modBinary s.view rd ra rb rc (fun c a b => subMod a b c.modulus))

/-- MNEG: (0 - a) mod M (R212). -/
def execMneg (rd ra rc : DIdx) (s : State) : Host.Outcome State Fault Refusal :=
  complete s (modUnary s.view rd ra rc Ctx.modulus (fun c a => subMod 0 a c.modulus))

/-- MHALF: a inv2 mod M with inv2 = (M + 1) / 2 (R213). -/
def execMhalf (rd ra rc : DIdx) (s : State) : Host.Outcome State Fault Refusal :=
  complete s (modUnary s.view rd ra rc Ctx.modulus (fun c a => a * ((c.modulus + 1) / 2) % c.modulus))

/-- MDBL: 2 a mod M (R214). -/
def execMdbl (rd ra rc : DIdx) (s : State) : Host.Outcome State Fault Refusal :=
  complete s (modUnary s.view rd ra rc Ctx.modulus (fun c a => 2 * a % c.modulus))

/-- MTPL: 3 a mod M (R215). -/
def execMtpl (rd ra rc : DIdx) (s : State) : Host.Outcome State Fault Refusal :=
  complete s (modUnary s.view rd ra rc Ctx.modulus (fun c a => 3 * a % c.modulus))

end Sys2Proof.Machine
end

