-- ==== Sys2Proof/Machine/Montgomery.lean ====
section
/-! DEFINITION. The Montgomery multiplier and reducer: MSETUP, MENC, MDEC, MMUL, MSQR, MRED (41_montgomery R180 to
R185). -/

namespace Sys2Proof.Machine

/-- The context MSETUP builds for modulus `modulus` of `m` limbs, as one integer: TAG, m, bitlen(M), mp, M, R mod M,
R² mod M (41_montgomery R180, 30_encoding R121). -/
def ctxValue (w : LimbBits) (m modulus : Nat) : Nat :=
  Config.tag + m * w.base + bitlen modulus * w.base ^ 2 + negInv w modulus * w.base ^ 3
    + modulus * w.base ^ 4 + montR w m % modulus * w.base ^ (4 + m)
    + montR w m ^ 2 % modulus * w.base ^ (4 + 2 * m)

/-- The computation of MSETUP (41_montgomery R180). -/
def msetupCmd (v : View) (rd ra : DIdx) : Except Stop Done := do
  checkRoles v.params [v.writes rd, v.reads ra]
  let modulus ← v.val (v.desc ra)
  require (modulus % 2 != 0) .evenModulus
  let m := nlen v.w modulus
  require (m ≤ v.params.maxModLimbs) .range
  require (needCtx m ≤ descLen (v.desc rd)) .room
  .ok { dst := some (v.desc rd), value := ctxValue v.w m modulus, scalar := needCtx m, scratch := none }

/-- MSETUP: construct a modular context (R180). -/
def execMsetup (rd ra : DIdx) (s : State) : Host.Outcome State Fault Refusal :=
  complete s (msetupCmd s.view rd ra)

/-- MENC: a R mod M (R181). -/
def execMenc (rd ra rc : DIdx) (s : State) : Host.Outcome State Fault Refusal :=
  complete s (modUnary s.view rd ra rc Ctx.modulus (fun c a => a * montR s.view.w c.m % c.modulus))

/-- MDEC: a Rinv mod M (R182). -/
def execMdec (rd ra rc : DIdx) (s : State) : Host.Outcome State Fault Refusal :=
  complete s (modUnary s.view rd ra rc Ctx.modulus
    (fun c a => a * montRinv s.view.w c.m c.modulus % c.modulus))

/-- MMUL: a b Rinv mod M (R183). -/
def execMmul (rd ra rb rc : DIdx) (s : State) : Host.Outcome State Fault Refusal :=
  complete s (modBinary s.view rd ra rb rc
    (fun c a b => a * b * montRinv s.view.w c.m c.modulus % c.modulus))

/-- MSQR: a a Rinv mod M (R184). -/
def execMsqr (rd ra rc : DIdx) (s : State) : Host.Outcome State Fault Refusal :=
  complete s (modUnary s.view rd ra rc Ctx.modulus
    (fun c a => a * a * montRinv s.view.w c.m c.modulus % c.modulus))

/-- MRED: T Rinv mod M for T < M R, which is T div R < M (R185). -/
def execMred (rd ra rc : DIdx) (s : State) : Host.Outcome State Fault Refusal :=
  complete s (modUnary s.view rd ra rc (fun c => c.modulus * montR s.view.w c.m)
    (fun c t => t * montRinv s.view.w c.m c.modulus % c.modulus))

end Sys2Proof.Machine
end

