-- ==== Sys2Proof/Machine/Dispatch.lean ====
section
/-! DEFINITION. `exec`: one arm per command, each a direct call of that command's meaning. -/

namespace Sys2Proof.Machine

/-- The engine's Execute and completion of one decoded command (40_common R161). -/
def exec (i : Instr) (s : State) : Host.Outcome State Fault Refusal :=
  match i with
  | .msetup rd ra => Sys2Proof.Machine.execMsetup rd ra s
  | .bufsz ra rb sel win => Sys2Proof.Machine.execBufsz ra rb sel win s
  | .menc rd ra rc => Sys2Proof.Machine.execMenc rd ra rc s
  | .mdec rd ra rc => Sys2Proof.Machine.execMdec rd ra rc s
  | .mmul rd ra rb rc => Sys2Proof.Machine.execMmul rd ra rb rc s
  | .msqr rd ra rc => Sys2Proof.Machine.execMsqr rd ra rc s
  | .mred rd ra rc => Sys2Proof.Machine.execMred rd ra rc s
  | .madd rd ra rb rc => Sys2Proof.Machine.execMadd rd ra rb rc s
  | .msub rd ra rb rc => Sys2Proof.Machine.execMsub rd ra rb rc s
  | .mneg rd ra rc => Sys2Proof.Machine.execMneg rd ra rc s
  | .mhalf rd ra rc => Sys2Proof.Machine.execMhalf rd ra rc s
  | .mdbl rd ra rc => Sys2Proof.Machine.execMdbl rd ra rc s
  | .mtpl rd ra rc => Sys2Proof.Machine.execMtpl rd ra rc s
  | .expbin rd ra rb rc rs => Sys2Proof.Machine.execExpbin rd ra rb rc rs s
  | .expct rd ra rb rc rs => Sys2Proof.Machine.execExpct rd ra rb rc rs s
  | .expwin rd ra rb rc rs win => Sys2Proof.Machine.execExpwin rd ra rb rc rs win s
  | .gcd rd ra rb => Sys2Proof.Machine.execGcd rd ra rb s
  | .minv rd ra rb => Sys2Proof.Machine.execMinv rd ra rb s
  | .crtrec rd ra rb rc rx ry => Sys2Proof.Machine.execCrtrec rd ra rb rc rx ry s

end Sys2Proof.Machine
end

