-- ==== Sys2Proof/Machine/Reset.lean ====
section
/-! DEFINITION. Reset of the block while it runs (70_reset_and_hazards R350 to R352). -/

namespace Sys2Proof.Machine

/-- The fields of a command that name ranges it writes: its destination, and its scratch if it has one (30_encoding
R113). -/
def writtenFields : Instr → List DIdx
  | .msetup rd _ => [rd]
  | .bufsz _ _ _ _ => []
  | .menc rd _ _ | .mdec rd _ _ | .msqr rd _ _ | .mred rd _ _ | .mneg rd _ _ | .mhalf rd _ _ | .mdbl rd _ _
  | .mtpl rd _ _ => [rd]
  | .mmul rd _ _ _ | .madd rd _ _ _ | .msub rd _ _ _ => [rd]
  | .expbin rd _ _ _ rs | .expct rd _ _ _ rs | .expwin rd _ _ _ rs _ => [rd, rs]
  | .gcd rd _ _ | .minv rd _ _ => [rd]
  | .crtrec rd _ _ _ _ _ => [rd]

/-- The descriptors of the ranges the command in progress would write; none where the engine is IDLE or LCMD is no
command (R352, assumption 11). -/
def State.abandoned (s : State) : List Word :=
  match s.phase, decode s.lcmd with
  | .busy, .ok i => (writtenFields i).map s.ld.get
  | _, _ => []

/-- OPMEM after a warm reset: kept, but for the written ranges of an abandoned command (R351, R352). -/
def State.warmMem (s : State) : Memory :=
  s.abandoned.foldl (fun m d => m.undefineRange s.params.limbBits d) s.mem

/-- A power-on reset: every register and hidden state at its reset value, every limb undefined (R350, R351). The
environment of the block (the host and the turns) is not the block's and stays; that the host's posted writes stay on the
bus is a DESIGN CHOICE (assumption 16), unsafe on a platform whose reset drops them. -/
def State.powerOnReset (s : State) : State :=
  { State.resetWith s.params with host := s.host, turns := s.turns }

/-- Any other reset: as power-on, with OPMEM as `State.warmMem` says (R350 to R352). -/
def State.warmReset (s : State) : State := { s.powerOnReset with mem := s.warmMem }

end Sys2Proof.Machine
end

