-- ==== Sys2Proof/Machine/Agents.lean ====
section
/-! DEFINITION. One atomic step of each agent: the host's next operation (10_state R30, 30_encoding R126), the arrival of
a host write (20_memory R91, R92), the engine's whole command (40_common R161), a reset, and whose turn it is
(60_exceptions R321). -/

namespace Sys2Proof.Machine

/-- The completion code of a word that is no command (30_encoding R123, R124). -/
def DecodeError.errCode : DecodeError → ErrCode
  | .opcode => .opcode
  | .field => .field

/-- The engine's step: while BUSY it decodes the latched word and performs the command, or completes with the code of
the failed decoding (40_common R161). While IDLE it has no step to take. -/
def engineStep (s : State) : Host.Outcome State Fault Refusal :=
  match s.phase with
  | .idle => .next s
  | .busy =>
    match decode s.lcmd with
    | .ok i => exec i s
    | .error e => .next (s.completeErr (DecodeError.errCode e))

/-- The host's position moves to operation `n` of its program. -/
def State.hostAt (s : State) (n : Nat) : State := { s with host := { s.host with pos := n } }

/-- A host read of STATUS, the bus read inside WAIT, CHK and JERR (30_encoding R126). It has no other effect. -/
def State.pollStatus (s : State) : State := s.recordData (some s.statusWord)

/-- A host write put on the bus, behind those already there, without reaching the block (20_memory R92). -/
def State.post (s : State) (p : PostedWrite) : State :=
  { s with host := { s.host with data := none, posted := s.host.posted ++ [p] } }

/-- Posted write number `n` taken off the bus. -/
def State.unpost (s : State) (n : Nat) : State :=
  { s with host := { s.host with posted := s.host.posted.eraseIdx n } }

/-- A bus access the host makes. On a bus that keeps order it reaches the block at once (20_memory R91, R92). On any other
bus a write is posted, and may be passed by later ones; a read still reaches the block at once (assumption 16). -/
def hostAccess (s : State) : BusAccess → Host.Outcome State Fault Refusal
  | .read width offset => busAccess s (.read width offset)
  | .write width offset v =>
    if s.host.busOrdered then busAccess s (.write width offset v)
    else .next (s.post { width := width, offset := offset, value := v })

/-- Posted write number `n` reaches the block, which performs it (20_memory R91); with no such write nothing changes. -/
def arrive (s : State) (n : Nat) : Host.Outcome State Fault Refusal :=
  match s.host.posted[n]? with
  | none => .next s
  | some p =>
    match busWrite (s.unpost n) p.width p.offset p.value with
    | .ok t => .next t
    | .error f => .fault f

/-- One operation of the host program (30_encoding R126). WAIT stays where it is while it reads BUSY = 1. -/
def hostOp (s : State) : HostOp → Host.Outcome State Fault Refusal
  | .access a => hostAccess (s.hostAt (s.host.pos + 1)) a
  | .wait => .next (s.pollStatus.hostAt (if s.isBusy then s.host.pos else s.host.pos + 1))
  | .chk code =>
    let t := s.pollStatus.hostAt (s.host.pos + 1)
    .next { t with host := { t.host with checksOk := s.host.checksOk && s.errcode == code } }
  | .jerr code label => .next (s.pollStatus.hostAt (if s.errcode = code then label else s.host.pos + 1))

/-- The host's step: its next operation; a host whose program is at its end does nothing, and the block holds its
state (60_exceptions R335). -/
def hostStep (s : State) : Host.Outcome State Fault Refusal :=
  match s.host.prog[s.host.pos]? with
  | none => .next s
  | some op => hostOp s op

/-- Whose turn it is: the first listed turn; with none listed, a BUSY engine's, else the oldest posted write's,
else the host's (assumption 3). -/
def State.nextTurn (s : State) : Turn :=
  match s.turns with
  | t :: _ => t
  | [] => match s.phase, s.host.posted with
    | .busy, _ => .engine
    | .idle, _ :: _ => .arrive 0
    | .idle, [] => .host

/-- The state with its first listed turn, if any, taken. -/
def State.takeTurn (s : State) : State := { s with turns := s.turns.tail }

/-- One atomic step of the agent whose turn it is (60_exceptions R321, 70_reset_and_hazards R350). -/
def runTurn (s : State) : Turn → Host.Outcome State Fault Refusal
  | .host => hostStep s
  | .engine => engineStep s
  | .arrive n => arrive s n
  | .powerOn => .next s.powerOnReset
  | .warmReset => .next s.warmReset

/-- `s` with the engine BUSY on command word `w`, as the host's write of `w` to CMD leaves it (40_common R150), and the
engine's turn next. -/
def State.withCommand (s : State) (w : Word) : State := { s.issue w with turns := [] }

end Sys2Proof.Machine
end

