-- ==== Sys2Proof/Machine/Step.lean ====
section
/-! DEFINITION. One step of the machine, and where its next command is put. -/

namespace Sys2Proof.Machine

/-- One atomic event: the step of the agent whose turn it is (10_state R30, 60_exceptions R321). -/
def step (s : State) : Host.Outcome State Fault Refusal := runTurn s.takeTurn s.nextTurn

/-- `s` with the command word `w`, in the numbering of spec/opcode_table.json, issued and its execution the next step.
The block fetches nothing from memory: a command is given to it by a write to CMD (10_state R44, assumption 13). -/
def State.withFetchWord (s : State) (nbits w : Nat) : State := s.withCommand (tableWord nbits w)

end Sys2Proof.Machine
end

