-- ==== Sys2Proof/Machine/Pseudo.lean ====
section
/-! DEFINITION. The host's side of the notation: pseudo-instructions as host operations (30_encoding R126), the
assembler's text of a command (R125), and octet strings (20_memory R85). The block itself uses none of it. -/

namespace Sys2Proof.Machine

/-- `BusWrite32(offset, v)`. An offset past the 2 MiB aperture, which a `WRL` or `RDL` of a high limb can reach and to which
the spec gives no meaning, is taken modulo 2^21 here and in `busRead32`. DESIGN CHOICE (assumption 28), unsafe for a claim
about such an access. -/
def busWrite32 (offset : Nat) (v : Word) : HostOp := .access (.write .b32 (BitVec.ofNat 21 offset) v)

/-- `BusRead32(offset)`, the offset modulo 2^21 (assumption 28). -/
def busRead32 (offset : Nat) : HostOp := .access (.read .b32 (BitVec.ofNat 21 offset))

/-- `SETD Dk, addr, len` (R126). -/
def setdOps (k : DIdx) (addr len : Nat) : List HostOp := [busWrite32 (0x020 + 4 * k.toNat) (mkDesc addr len)]

/-- `count` window words from word `k` on, holding `v` in increasing order. -/
def writeWordsOps : Nat → Nat → Nat → List HostOp
  | _, 0, _ => []
  | k, count + 1, v => busWrite32 (0x100000 + 4 * k) (BitVec.ofNat 32 v) :: writeWordsOps (k + 1) count (v / 2 ^ 32)

/-- `count` window words from word `k` on, read in increasing order. -/
def readWordsOps : Nat → Nat → List HostOp
  | _, 0 => []
  | k, count + 1 => busRead32 (0x100000 + 4 * k) :: readWordsOps (k + 1) count

/-- `WRL addr, n, v` for v < B^n (R126). -/
def wrlOps (w : LimbBits) (addr n v : Nat) : List HostOp := writeWordsOps (addr * w.words) (n * w.words) v

/-- `RDL addr, n` (R126). -/
def rdlOps (w : LimbBits) (addr n : Nat) : List HostOp := readWordsOps (addr * w.words) (n * w.words)

/-- The value `RDL` forms from the words it read, the first word lowest (R126). -/
def rdlValue : List Word → Nat
  | [] => 0
  | v :: rest => v.toNat + 2 ^ 32 * rdlValue rest

/-- `ISSUE word` (R126). -/
def issueOps (w : Word) : List HostOp := [busWrite32 0x010 w]

/-- A command line: the write of its word to CMD, then WAIT (R126). -/
def commandOps (i : Instr) : List HostOp := issueOps (encode i) ++ [.wait]

/-- `CLRDONE` (R126). -/
def clrDoneOps : List HostOp := [busWrite32 0x00C 0x00000002#32]

/-- The machine after power-on reset with parameters `p` and a host program: how a program comes to run (assumption
12). -/
def State.boot (p : Params) (prog : List HostOp) : State :=
  { State.resetWith p with host := { HostAgent.empty with prog := prog } }

/-! ### Assembler text (30_encoding R125) -/

/-- `D0` to `D7`. -/
def regName (i : DIdx) : String := "D" ++ toString i.toNat

/-- Operand names separated by commas. -/
def operandText (ops : List String) : String := String.intercalate ", " ops

/-- BUFSZ's selector names (R125). -/
def BufSel.text : BufSel → String
  | .bin => "BIN"
  | .ct => "CT"
  | .win => "WIN"
  | .ctx => "CTX"

/-- A window operand; an omitted or automatic width is 0 (R125). -/
def winText (win : BitVec 3) : List String := if win = 0#3 then [] else [toString win.toNat]

/-- The line of a command: mnemonic and operands in R125's order. -/
def asmText : Instr → String
  | .msetup rd ra => "MSETUP " ++ operandText [regName rd, regName ra]
  | .bufsz ra rb sel win => "BUFSZ " ++ operandText ([regName ra, regName rb, BufSel.text sel] ++ winText win)
  | .menc rd ra rc => "MENC " ++ operandText [regName rd, regName ra, regName rc]
  | .mdec rd ra rc => "MDEC " ++ operandText [regName rd, regName ra, regName rc]
  | .mmul rd ra rb rc => "MMUL " ++ operandText [regName rd, regName ra, regName rb, regName rc]
  | .msqr rd ra rc => "MSQR " ++ operandText [regName rd, regName ra, regName rc]
  | .mred rd ra rc => "MRED " ++ operandText [regName rd, regName ra, regName rc]
  | .madd rd ra rb rc => "MADD " ++ operandText [regName rd, regName ra, regName rb, regName rc]
  | .msub rd ra rb rc => "MSUB " ++ operandText [regName rd, regName ra, regName rb, regName rc]
  | .mneg rd ra rc => "MNEG " ++ operandText [regName rd, regName ra, regName rc]
  | .mhalf rd ra rc => "MHALF " ++ operandText [regName rd, regName ra, regName rc]
  | .mdbl rd ra rc => "MDBL " ++ operandText [regName rd, regName ra, regName rc]
  | .mtpl rd ra rc => "MTPL " ++ operandText [regName rd, regName ra, regName rc]
  | .expbin rd ra rb rc rs => "EXPBIN " ++ operandText ([rd, ra, rb, rc, rs].map regName)
  | .expct rd ra rb rc rs => "EXPCT " ++ operandText ([rd, ra, rb, rc, rs].map regName)
  | .expwin rd ra rb rc rs win =>
    "EXPWIN " ++ operandText ([rd, ra, rb, rc, rs].map regName ++ [if win = 0#3 then "auto" else toString win.toNat])
  | .gcd rd ra rb => "GCD " ++ operandText [regName rd, regName ra, regName rb]
  | .minv rd ra rb => "MINV " ++ operandText [regName rd, regName ra, regName rb]
  | .crtrec rd ra rb rc rx ry => "CRTREC " ++ operandText ([rd, ra, rb, rc, rx, ry].map regName)

/-! ### Octet strings (20_memory R85) -/

/-- The integer an octet string denotes, most significant byte first. -/
def octetsValue (os : List Byte) : Nat := os.foldl (fun acc o => acc * 256 + o.toNat) 0

/-- The octet string of `len` bytes of a value, zero-padded or truncated to that length. R85 does not say which end a
truncation drops; the model keeps the least significant bytes. DESIGN CHOICE (assumption 27), unsafe for a claim about a
truncated string. -/
def toOctets : Nat → Nat → List Byte
  | 0, _ => []
  | len + 1, v => toOctets len (v / 256) ++ [BitVec.ofNat 8 v]

/-- An octet string decoded for a room of `n` limbs; `none`, an error and not a truncation, where it does not fit. R85's
"more bytes than fit the destination room" can mean a string of more than n W / 8 bytes or a value of B^n or more; the
model tests the value, so a longer string with leading zero bytes is accepted. DESIGN CHOICE (assumption 24), unsafe for
a claim about such a string. -/
def octetsToRoom (w : LimbBits) (n : Nat) (os : List Byte) : Option Nat :=
  if octetsValue os < w.base ^ n then some (octetsValue os) else none

end Sys2Proof.Machine
end

