-- ==== Sys2Proof/Machine/Reference.lean ====
section
/-! DEFINITION. The reference algorithms of the spec, which fix the structure the engine must follow (00_scope R19,
41_montgomery R186 to R189, 42_modular_arith R216, 43_exponentiation R237 to R239, 44_gcd_inverse R262, 45_crt R281;
R263 is `modInverse`). Their values are those of the command rules, and `exec` uses only those values (assumption 20).
The refinement statements in Certificates compare the two. -/

namespace Sys2Proof.Machine

/-! ### Limbs -/

/-- The n least significant limbs of v, least significant first (00_scope R15). -/
def toLimbs (w : LimbBits) : Nat → Nat → List Nat
  | 0, _ => []
  | n + 1, v => v % w.base :: toLimbs w n (v / w.base)

/-- The value of a list of limbs, least significant first (00_scope R15). -/
def ofLimbs (w : LimbBits) : List Nat → Nat
  | [] => 0
  | l :: rest => l + w.base * ofLimbs w rest

/-- `MaskedSelect(f, a, b)` over `width` bits: (a AND mask) OR (b AND NOT mask) with mask = 0 - f (00_scope R19). -/
def maskedSelect (width f a b : Nat) : Nat :=
  let mask := (2 ^ width - f) % 2 ^ width
  (a &&& mask) ||| (b &&& (2 ^ width - 1 - mask))

/-- One row of a multiply-accumulate: `(Cy, t[j]) <- t[j] + x_j y + Cy` over the limbs of `xs`, from carry `cy` on. The
limbs of t the row covers, and the carry out. -/
def addMulRow (w : LimbBits) (y : Nat) : List Nat → List Nat → Nat → List Nat × Nat
  | t :: ts, x :: xs, cy =>
    let e := t + x * y + cy
    let rest := addMulRow w y ts xs (e / w.base)
    (e % w.base :: rest.1, rest.2)
  | _, _, cy => ([], cy)

/-- A carry propagated upward through limbs; the carry out of the last one is dropped. -/
def addCarry (w : LimbBits) : List Nat → Nat → List Nat
  | [], _ => []
  | t :: ts, cy => (t + cy) % w.base :: addCarry w ts ((t + cy) / w.base)

/-! ### Montgomery multiply and reduce -/

/-- `FinalSub(u, C)`: the subtraction over m + 1 limbs is always made and the choice masked (41_montgomery R188). -/
def finalSub (w : LimbBits) (c : Ctx) (u : Nat) : Nat :=
  let bw := if u < c.modulus then 1 else 0
  let d := (u + w.base ^ (c.m + 1) - c.modulus) % w.base ^ (c.m + 1)
  maskedSelect (c.m * w.bits) bw (u % w.base ^ c.m) (d % w.base ^ c.m)

/-- One round of CIOS on t[0 .. m]: add a b_i, then add q M and drop the lowest limb (R186). -/
def ciosRound (w : LimbBits) (c : Ctx) (as : List Nat) (t : List Nat) (top bi : Nat) : List Nat × Nat :=
  let (t1, cy1) := addMulRow w bi t as 0
  let tm := (top + cy1) % w.base
  let tm1 := (top + cy1) / w.base
  let q := t1.headD 0 * c.mp % w.base
  let (t2, cy2) := addMulRow w q t1 (toLimbs w c.m c.modulus) 0
  (t2.tail ++ [(tm + cy2) % w.base], tm1 + (tm + cy2) / w.base)

/-- The rounds of CIOS over the limbs b_0, b_1, … of b (R186). -/
def ciosLoop (w : LimbBits) (c : Ctx) (as : List Nat) : List Nat → List Nat → Nat → List Nat × Nat
  | [], t, top => (t, top)
  | bi :: bs, t, top =>
    let (t', top') := ciosRound w c as t top bi
    ciosLoop w c as bs t' top'

/-- `MontMul(a, b, C)` by interleaved multiply-accumulate and one-limb reduction (R186). -/
def montMulRef (w : LimbBits) (c : Ctx) (a b : Nat) : Nat :=
  let (t, top) := ciosLoop w c (toLimbs w c.m a) (toLimbs w c.m b) (List.replicate c.m 0) 0
  finalSub w c (ofLimbs w t + top * w.base ^ c.m)

/-- One round of REDC on the limbs t[i ..]: q M is added, the carry goes upward, the lowest limb is left behind
(R187). -/
def redcRound (w : LimbBits) (c : Ctx) (t : List Nat) : List Nat :=
  let q := t.headD 0 * c.mp % w.base
  let (row, cy) := addMulRow w q t (toLimbs w c.m c.modulus) 0
  (row ++ addCarry w (t.drop c.m) cy).tail

/-- `k` rounds of REDC (R187). -/
def redcLoop (w : LimbBits) (c : Ctx) : Nat → List Nat → List Nat
  | 0, t => t
  | k + 1, t => redcLoop w c k (redcRound w c t)

/-- `Redc(T, C)` for T < M R (R187). -/
def redcRef (w : LimbBits) (c : Ctx) (t : Nat) : Nat :=
  finalSub w c (ofLimbs w (redcLoop w c c.m (toLimbs w (2 * c.m + 1) t)))

/-- MENC as MontMul(a, R2) (R189). -/
def encRef (w : LimbBits) (c : Ctx) (a : Nat) : Nat := montMulRef w c a c.r2

/-- MDEC as MontMul(a, 1) (R189). -/
def decRef (w : LimbBits) (c : Ctx) (a : Nat) : Nat := montMulRef w c a 1

/-! ### Modular arithmetic (42_modular_arith R216) -/

/-- `ModAdd(a, b)`. -/
def modAddRef (w : LimbBits) (c : Ctx) (a b : Nat) : Nat := finalSub w c (a + b)

/-- `ModSub(a, b)`: the difference over m limbs with its borrow, and that plus M with the carry dropped. -/
def modSubRef (w : LimbBits) (c : Ctx) (a b : Nat) : Nat :=
  let bw := if a < b then 1 else 0
  let d := (a + w.base ^ c.m - b) % w.base ^ c.m
  maskedSelect (c.m * w.bits) bw ((d + c.modulus) % w.base ^ c.m) d

/-- `ModNeg(a)`. -/
def modNegRef (w : LimbBits) (c : Ctx) (a : Nat) : Nat := modSubRef w c 0 a

/-- `ModHalf(a)`: M is added under a mask of the low bit, then an (m+1)-limb shift. -/
def modHalfRef (w : LimbBits) (c : Ctx) (a : Nat) : Nat :=
  let mask := (2 ^ (c.m * w.bits) - a % 2) % 2 ^ (c.m * w.bits)
  (a + (c.modulus &&& mask)) >>> 1

/-- `ModDbl(a)`. -/
def modDblRef (w : LimbBits) (c : Ctx) (a : Nat) : Nat := modAddRef w c a a

/-- `ModTpl(a)`. -/
def modTplRef (w : LimbBits) (c : Ctx) (a : Nat) : Nat := modAddRef w c (modDblRef w c a) a

/-! ### Exponentiation (43_exponentiation R237 to R239) -/

/-- Bit `i` of e as 0 or 1. -/
def bitOf (e i : Nat) : Nat := e / 2 ^ i % 2

/-- EXPBIN's loop for i from the given number less 1 down to 0 (R237). -/
def expBinLoop (mul : Nat → Nat → Nat) (x e : Nat) : Nat → Nat → Nat
  | 0, y => y
  | i + 1, y => expBinLoop mul x e i (if bitOf e i = 1 then mul (mul y y) x else mul y y)

/-- EXPBIN: square and multiply, branching on each bit (R237). -/
def expBinRef (w : LimbBits) (c : Ctx) (x e : Nat) : Nat :=
  if e = 0 then c.rm else if x = 0 then 0 else expBinLoop (montMulRef w c) x e (bitlen e - 1) x

/-- EXPCT's loop: a masked choice of base or Montgomery 1, a square and a multiply for every bit (R238). -/
def expCtLoop (w : LimbBits) (c : Ctx) (x e : Nat) : Nat → Nat → Nat
  | 0, y => y
  | i + 1, y =>
    let t := maskedSelect (c.m * w.bits) (bitOf e i) x c.rm
    expCtLoop w c x e i (montMulRef w c (montMulRef w c y y) t)

/-- EXPCT over EBITS = `ebits` bits (R238). -/
def expCtRef (w : LimbBits) (c : Ctx) (x e ebits : Nat) : Nat :=
  if e = 0 then c.rm else if x = 0 then 0 else expCtLoop w c x e ebits c.rm

/-- `k` table entries from `cur` on, each the one before times X (R239). -/
def tablePowers (mul : Nat → Nat → Nat) (x : Nat) : Nat → Nat → List Nat
  | 0, _ => []
  | k + 1, cur => cur :: tablePowers mul x k (mul cur x)

/-- Tab_0 = RM, Tab_1 = X, Tab_j = MontMul(Tab_(j-1), X) for the n = 2^width entries (R239). -/
def windowTable (w : LimbBits) (c : Ctx) (x width : Nat) : List Nat :=
  c.rm :: tablePowers (montMulRef w c) x (2 ^ width - 1) x

/-- The scrambled layout S[i n + j] = limb i of Tab_j (R239). -/
def scramble (w : LimbBits) (m : Nat) (tab : List Nat) : List Nat :=
  (List.range m).flatMap (fun i => tab.map (fun v => v / w.base ^ i % w.base))

/-- `EqMask(s, j)`: all ones if s = j, else 0 (R239). -/
def eqMask (w : LimbBits) (s j : Nat) : Nat := if s = j then w.base - 1 else 0

/-- `Lookup(j)`: every slot of every limb is read, only the matching one contributes (R239, 70_reset_and_hazards
R367). -/
def lookupRef (w : LimbBits) (m n : Nat) (table : List Nat) (j : Nat) : Nat :=
  ofLimbs w ((List.range m).map (fun i =>
    (List.range n).foldl (fun acc s => acc ||| (table.getD (i * n + s) 0 &&& eqMask w s j)) 0))

/-- `k` squarings of y. -/
def squarings (mul : Nat → Nat → Nat) : Nat → Nat → Nat
  | 0, y => y
  | k + 1, y => squarings mul k (mul y y)

/-- The full windows k - 1 down to 0 above the `rem` lowest bits (R239). -/
def windowLoop (mul : Nat → Nat → Nat) (look : Nat → Nat) (width rem e : Nat) : Nat → Nat → Nat
  | 0, y => y
  | k + 1, y =>
    windowLoop mul look width rem e k (mul (squarings mul width y) (look (e / 2 ^ (rem + k * width) % 2 ^ width)))

/-- EXPWIN over EBITS = `ebits` bits with window width `width` (R239). -/
def expWinRef (w : LimbBits) (c : Ctx) (x e ebits width : Nat) : Nat :=
  if e = 0 then c.rm
  else if x = 0 then 0
  else
    let mul := montMulRef w c
    let look := lookupRef w c.m (2 ^ width) (scramble w c.m (windowTable w c x width))
    let rem := ebits % width
    let y := windowLoop mul look width rem e (ebits / width) c.rm
    if rem = 0 then y else mul (squarings mul rem y) (look (e % 2 ^ rem))

/-! ### GCD and CRT (44_gcd_inverse R262, 45_crt R281) -/

/-- The Euclidean loop on (u, v), `fuel` rounds at most (R262). -/
def gcdLoop : Nat → Nat → Nat → Nat
  | 0, u, _ => u
  | fuel + 1, u, v => if v = 0 then u else gcdLoop fuel v (u % v)

/-- GCD by R262's loop: v strictly decreases, so b + 1 rounds do. -/
def gcdRef (a b : Nat) : Nat := gcdLoop (b + 1) a b

/-- Garner's step with the modular operations of the P context (R281). -/
def crtRef (w : LimbBits) (cp : Ctx) (q xp xq qinv : Nat) : Nat :=
  let d := modSubRef w cp xp (xq % cp.modulus)
  let h := decRef w cp (montMulRef w cp (encRef w cp qinv) (encRef w cp d))
  xq + h * q

end Sys2Proof.Machine
end

