-- ==== Sys2Proof/Safety.lean ====
section
/-! DEFINITION. The terms claims are stated in: the invariant of the machine, the operand situations of the spec's
command rules, said without the model's own checking functions, and the next states those rules give. -/

namespace Sys2Proof.Machine

/-! ### The invariant -/

/-- What every step keeps: legal parameters (00_scope R8, R9), OPMEM in its canonical form and inside its bounds
(10_state R50), no reserved error code (60_exceptions R300), DONE clear while BUSY (60_exceptions R323), and no write left
on a bus that keeps order (20_memory R91, R92). -/
abbrev State.Inv (s : State) : Prop :=
  s.params.Legal ∧ s.mem.wf ∧ (∀ c ∈ s.mem, c.1 < s.params.memLimbs * s.params.limbBits.bytes)
    ∧ s.errcode.toNat ≤ 0x0C ∧ (s.phase = .busy → s.done = false)
    ∧ (s.host.busOrdered = true → s.host.posted = [])

/-! ### Ranges and values of a command's operands -/

/-- The written role of field `i` in `s`: a dst or scr range (40_common section 2). -/
abbrev State.writtenRole (s : State) (i : DIdx) : Role := ⟨s.ld.get i, true⟩

/-- The read role of field `i` in `s`: a src or ctx range. -/
abbrev State.readRole (s : State) (i : DIdx) : Role := ⟨s.ld.get i, false⟩

/-- addr + len ≤ MEM_LIMBS for every role (40_common R153). -/
abbrev AllInBounds (p : Params) (roles : List Role) : Prop :=
  ∀ r ∈ roles, descAddr r.desc + descLen r.desc ≤ p.memLimbs

/-- Two ranges share no limb (30_encoding R116). -/
abbrev RangesDisjoint (d e : Word) : Prop :=
  descLen d = 0 ∨ descLen e = 0 ∨ descAddr d + descLen d ≤ descAddr e ∨ descAddr e + descLen e ≤ descAddr d

/-- No written role shares a limb with another role (40_common R154). -/
abbrev NoOverlap (roles : List Role) : Prop :=
  roles.Pairwise (fun r q => r.written = true ∨ q.written = true → RangesDisjoint r.desc q.desc)

/-- Both checks on the roles pass. -/
abbrev RolesOk (p : Params) (roles : List Role) : Prop := AllInBounds p roles ∧ NoOverlap roles

/-- OPMEM[a] is defined and holds `x`. -/
abbrev State.LimbIs (s : State) (a x : Nat) : Prop := s.mem.limb? s.params.limbBits a = some x

/-- The n limbs from `a` on are defined and denote `x`. -/
abbrev State.ReadIs (s : State) (a n x : Nat) : Prop := s.mem.memRead s.params.limbBits a n = some x

/-- val(LD[i]) = x (00_scope R16). -/
abbrev State.ValIs (s : State) (i : DIdx) (x : Nat) : Prop :=
  s.ReadIs (descAddr (s.ld.get i)) (descLen (s.ld.get i)) x

/-! ### Modular contexts -/

/-- The header of descriptor `d`'s context passes LoadCtx's TAG and m checks with modulus length `m` (40_common R155). -/
abbrev State.CtxHeaderIs (s : State) (d : Word) (m : Nat) : Prop :=
  4 ≤ descLen d ∧ s.LimbIs (descAddr d) 0x4D4F4E54 ∧ s.LimbIs (descAddr d + 1) m
    ∧ 1 ≤ m ∧ m ≤ s.params.maxModLimbs ∧ 4 + 3 * m ≤ descLen d

/-- The limbs of the context after its header are `c`'s, in the layout of 30_encoding R121. -/
abbrev State.CtxBodyIs (s : State) (d : Word) (c : Ctx) : Prop :=
  s.LimbIs (descAddr d + 2) c.mbits ∧ s.LimbIs (descAddr d + 3) c.mp
    ∧ s.ReadIs (descAddr d + 4) c.m c.modulus
    ∧ s.ReadIs (descAddr d + 4 + c.m) c.m c.rm
    ∧ s.ReadIs (descAddr d + 4 + 2 * c.m) c.m c.r2

/-- The rest of a context's consistency (30_encoding R122): M odd with nlen(M) = m, mbits = bitlen(M),
mp = (-M⁻¹) mod B, RM = R mod M and R2 = R² mod M for R = B^m. -/
abbrev Ctx.Consistent (w : LimbBits) (c : Ctx) : Prop :=
  c.modulus % 2 = 1 ∧ nlen w c.modulus = c.m ∧ c.mbits = bitlen c.modulus
    ∧ c.mp < 2 ^ w.bits ∧ (c.modulus * c.mp + 1) % 2 ^ w.bits = 0
    ∧ c.rm = (2 ^ w.bits) ^ c.m % c.modulus ∧ c.r2 = ((2 ^ w.bits) ^ c.m) ^ 2 % c.modulus

/-- Descriptor `d` names the consistent context `c`. -/
abbrev State.CtxAt (s : State) (d : Word) (c : Ctx) : Prop :=
  s.CtxHeaderIs d c.m ∧ s.CtxBodyIs d c ∧ c.Consistent s.params.limbBits

/-- LoadCtx ends with ERR_TAG: the context is shorter than 4 limbs, or its TAG limb is another value (R155). -/
abbrev State.CtxTagBad (s : State) (d : Word) : Prop :=
  descLen d < 4 ∨ ∃ x, s.LimbIs (descAddr d) x ∧ x ≠ 0x4D4F4E54

/-- LoadCtx ends with ERR_CTX: the TAG is right and m is 0, above MAX_MOD_LIMBS, or too large for LEN (R155). -/
abbrev State.CtxSizeBad (s : State) (d : Word) : Prop :=
  4 ≤ descLen d ∧ s.LimbIs (descAddr d) 0x4D4F4E54
    ∧ ∃ m, s.LimbIs (descAddr d + 1) m ∧ (m = 0 ∨ m > s.params.maxModLimbs ∨ descLen d < 4 + 3 * m)

/-- The range of field `i` holds an undefined limb (70_reset_and_hazards R353). -/
abbrev State.ValUndefined (s : State) (i : DIdx) : Prop :=
  ∃ a, inRange (s.ld.get i) a ∧ s.mem.limb? s.params.limbBits a = none

/-- LoadCtx of descriptor `d` comes to an undefined limb: the TAG limb; the m limb behind a right TAG; or any later limb
of the context behind a header that passes (40_common R155, R159, 60_exceptions R311). -/
abbrev State.CtxUndefined (s : State) (d : Word) : Prop :=
  4 ≤ descLen d ∧ (s.mem.limb? s.params.limbBits (descAddr d) = none
    ∨ (s.LimbIs (descAddr d) 0x4D4F4E54 ∧ s.mem.limb? s.params.limbBits (descAddr d + 1) = none)
    ∨ ∃ m k, s.CtxHeaderIs d m ∧ 2 ≤ k ∧ k < 4 + 3 * m ∧ s.mem.limb? s.params.limbBits (descAddr d + k) = none)

/-- `rinv` is the inverse of R = B^m modulo M (00_scope R18). -/
abbrev IsRinv (w : LimbBits) (c : Ctx) (rinv : Nat) : Prop :=
  rinv < c.modulus ∧ (2 ^ w.bits) ^ c.m * rinv % c.modulus = 1 % c.modulus

/-- `r` is the least multiple of `a` that is at least x (43_exponentiation R232). -/
abbrev IsRoundup (x a r : Nat) : Prop := a ∣ r ∧ x ≤ r ∧ ∀ q, a ∣ q → x ≤ q → r ≤ q

/-! ### Next states -/

/-- Completion with an error: STATUS.ERRCODE, BUSY and DONE, nothing else (40_common R158). -/
abbrev errorNext (s : State) (code : Byte) : Host.Outcome State Fault Refusal :=
  .next { s with errcode := code, phase := .idle, done := true }

/-- Completion with integer result `r` in the room of field `rd` and scalar result `scalar` (40_common R157). -/
abbrev writtenNext (s : State) (rd : DIdx) (r scalar : Nat) : Host.Outcome State Fault Refusal :=
  .next { s with
    mem := s.mem.memWrite s.params.limbBits (descAddr (s.ld.get rd)) (descLen (s.ld.get rd)) r
    result := BitVec.ofNat 32 scalar
    errcode := 0x00#8
    phase := .idle
    done := true }

/-- Completion with integer result `r`, RESULT = nlen(r) (40_common R157, R164). -/
abbrev resultNext (s : State) (rd : DIdx) (r : Nat) : Host.Outcome State Fault Refusal :=
  writtenNext s rd r (nlen s.params.limbBits r)

/-- As `resultNext`, and then every limb of field `rs`'s range is undefined (43_exponentiation R233). -/
abbrev expNext (s : State) (rd rs : DIdx) (r : Nat) : Host.Outcome State Fault Refusal :=
  .next { s with
    mem := (s.mem.memWrite s.params.limbBits (descAddr (s.ld.get rd)) (descLen (s.ld.get rd)) r).undefineRange
      s.params.limbBits (s.ld.get rs)
    result := BitVec.ofNat 32 (nlen s.params.limbBits r)
    errcode := 0x00#8
    phase := .idle
    done := true }

/-! ### The modular-operation template -/

/-- The operand fields of a command that takes one modular context in RC (40_common R164). -/
structure Template where
  rd : DIdx
  srcs : List DIdx
  rc : DIdx
  scr : Option DIdx
deriving DecidableEq, Repr

/-- The fourteen commands of 40_common R164 with their fields, and none for the other five. -/
def templateOf : Instr → Option Template
  | .menc rd ra rc => some ⟨rd, [ra], rc, none⟩
  | .mdec rd ra rc => some ⟨rd, [ra], rc, none⟩
  | .mmul rd ra rb rc => some ⟨rd, [ra, rb], rc, none⟩
  | .msqr rd ra rc => some ⟨rd, [ra], rc, none⟩
  | .mred rd ra rc => some ⟨rd, [ra], rc, none⟩
  | .madd rd ra rb rc => some ⟨rd, [ra, rb], rc, none⟩
  | .msub rd ra rb rc => some ⟨rd, [ra, rb], rc, none⟩
  | .mneg rd ra rc => some ⟨rd, [ra], rc, none⟩
  | .mhalf rd ra rc => some ⟨rd, [ra], rc, none⟩
  | .mdbl rd ra rc => some ⟨rd, [ra], rc, none⟩
  | .mtpl rd ra rc => some ⟨rd, [ra], rc, none⟩
  | .expbin rd ra rb rc rs => some ⟨rd, [ra, rb], rc, some rs⟩
  | .expct rd ra rb rc rs => some ⟨rd, [ra, rb], rc, some rs⟩
  | .expwin rd ra rb rc rs _ => some ⟨rd, [ra, rb], rc, some rs⟩
  | .msetup _ _ | .bufsz _ _ _ _ | .gcd _ _ _ | .minv _ _ _ | .crtrec _ _ _ _ _ _ => none

/-- The roles of a template command, in field order (40_common R153). -/
abbrev State.templateRoles (s : State) (t : Template) : List Role :=
  s.writtenRole t.rd :: t.srcs.map s.readRole ++ s.readRole t.rc :: t.scr.toList.map s.writtenRole

/-- Everything but the source values is in order for template `t` with context `c` and scratch need `need`. -/
abbrev State.TemplateReady (s : State) (t : Template) (c : Ctx) (need : Nat) : Prop :=
  RolesOk s.params (s.templateRoles t) ∧ s.CtxAt (s.ld.get t.rc) c
    ∧ (∀ rs ∈ t.scr, need ≤ descLen (s.ld.get rs)) ∧ c.m ≤ descLen (s.ld.get t.rd)

/-- The roles of CRTREC, in field order (45_crt R280). -/
abbrev State.crtRoles (s : State) (rd ra rb rc rx ry : DIdx) : List Role :=
  [s.writtenRole rd, s.readRole ra, s.readRole rb, s.readRole rc, s.readRole rx, s.readRole ry]

/-- The errors of the template before the source values, in their order: bounds, overlap, tag, context size, scratch
and room (40_common R164, 60_exceptions R310). `need` is the scratch need as a function of m. -/
abbrev TemplateErrors (i : Instr) (s : State) (t : Template) (need : Nat → Nat) : Prop :=
  (¬ AllInBounds s.params (s.templateRoles t) → exec i s = errorNext s 0x03#8)
  ∧ (AllInBounds s.params (s.templateRoles t) → ¬ NoOverlap (s.templateRoles t) → exec i s = errorNext s 0x04#8)
  ∧ (RolesOk s.params (s.templateRoles t) → s.CtxTagBad (s.ld.get t.rc) → exec i s = errorNext s 0x05#8)
  ∧ (RolesOk s.params (s.templateRoles t) → s.CtxSizeBad (s.ld.get t.rc) → exec i s = errorNext s 0x06#8)
  ∧ (∀ c, RolesOk s.params (s.templateRoles t) → s.CtxAt (s.ld.get t.rc) c →
      (∃ rs ∈ t.scr, descLen (s.ld.get rs) < need c.m) → exec i s = errorNext s 0x07#8)
  ∧ (∀ c, RolesOk s.params (s.templateRoles t) → s.CtxAt (s.ld.get t.rc) c →
      (∀ rs ∈ t.scr, need c.m ≤ descLen (s.ld.get rs)) → descLen (s.ld.get t.rd) < c.m →
      exec i s = errorNext s 0x08#8)

/-- What a one-source modular command does: opcode `op`; the template's errors; ERR_RANGE where `bad c a`; else the
result `f c a` in its destination. -/
abbrev OneSourceCommand (op : Byte) (i : Instr) (s : State) (rd ra rc : DIdx) (bad : Ctx → Nat → Prop)
    (f : Ctx → Nat → Nat → Prop) : Prop :=
  opOf (encode i) = op ∧ TemplateErrors i s ⟨rd, [ra], rc, none⟩ (fun _ => 0)
  ∧ ∀ c a, s.TemplateReady ⟨rd, [ra], rc, none⟩ c 0 → s.ValIs ra a →
      (bad c a → exec i s = errorNext s 0x0A#8) ∧ (¬ bad c a → ∃ r, f c a r ∧ exec i s = resultNext s rd r)

/-- What a two-source modular command does: opcode `op`; the template's errors; ERR_RANGE where a ≥ M or b ≥ M; else the
result. -/
abbrev TwoSourceCommand (op : Byte) (i : Instr) (s : State) (rd ra rb rc : DIdx) (f : Ctx → Nat → Nat → Nat → Prop) :
    Prop :=
  opOf (encode i) = op ∧ TemplateErrors i s ⟨rd, [ra, rb], rc, none⟩ (fun _ => 0)
  ∧ ∀ c a b, s.TemplateReady ⟨rd, [ra, rb], rc, none⟩ c 0 → s.ValIs ra a → s.ValIs rb b →
      (a ≥ c.modulus ∨ b ≥ c.modulus → exec i s = errorNext s 0x0A#8)
      ∧ (a < c.modulus → b < c.modulus → ∃ r, f c a b r ∧ exec i s = resultNext s rd r)

/-- `y` is ExpMont(X, e, C): RM for e = 0, else X^e Rinv^(e-1) mod M (43_exponentiation R231). -/
abbrev IsExpMont (w : LimbBits) (c : Ctx) (x e y : Nat) : Prop :=
  (e = 0 ∧ y = c.rm) ∨ (e ≠ 0 ∧ ∃ rinv, IsRinv w c rinv ∧ y = x ^ e * rinv ^ (e - 1) % c.modulus)

/-- What an exponentiation with scratch need `need` does: opcode `op`, the template's errors, ERR_RANGE for X ≥ M, else
ExpMont in its destination and the scratch undefined (43_exponentiation R231, R233). -/
abbrev ExpCommand (op : Byte) (i : Instr) (s : State) (rd ra rb rc rs : DIdx) (need : Nat → Nat) : Prop :=
  opOf (encode i) = op ∧ TemplateErrors i s ⟨rd, [ra, rb], rc, some rs⟩ need
  ∧ ∀ c x, s.TemplateReady ⟨rd, [ra, rb], rc, some rs⟩ c (need c.m) → s.ValIs ra x →
      (x ≥ c.modulus → exec i s = errorNext s 0x0A#8)
      ∧ (x < c.modulus → ∀ e, s.ValIs rb e → ∃ y, IsExpMont s.params.limbBits c x e y ∧ exec i s = expNext s rd rs y)

end Sys2Proof.Machine
end

