-- ==== Sys2Proof/Certificates/Slice0/Obligations.lean ====
section
/-! DEFINITION. The statements about the block, each from the numbered rules of spec/ its docstring names. The terms they
are said in stand in Sys2Proof/Safety.lean and at the head of this file. -/

open Sys2Proof Sys2Proof.Machine

namespace Sys2Proof.Claims

/-! ### The opcode map, written out from 30_encoding R120 -/

/-- A row of the spec's opcode map: opcode, match value and mask. -/
structure MapRow where
  op : Nat
  pattern : BitVec 32
  mask : BitVec 32
deriving DecidableEq, Repr

/-- 30_encoding R120, row by row. -/
def opcodeMap : List MapRow := [
  ⟨0x01, 0x00000001, 0xFFFFC0FF⟩, ⟨0x02, 0x00000002, 0x03FE07FF⟩, ⟨0x10, 0x00000010, 0xFFF1C0FF⟩,
  ⟨0x11, 0x00000011, 0xFFF1C0FF⟩, ⟨0x12, 0x00000012, 0xFFF000FF⟩, ⟨0x13, 0x00000013, 0xFFF1C0FF⟩,
  ⟨0x14, 0x00000014, 0xFFF1C0FF⟩, ⟨0x18, 0x00000018, 0xFFF000FF⟩, ⟨0x19, 0x00000019, 0xFFF000FF⟩,
  ⟨0x1A, 0x0000001A, 0xFFF1C0FF⟩, ⟨0x1B, 0x0000001B, 0xFFF1C0FF⟩, ⟨0x1C, 0x0000001C, 0xFFF1C0FF⟩,
  ⟨0x1D, 0x0000001D, 0xFFF1C0FF⟩, ⟨0x20, 0x00000020, 0xFF8000FF⟩, ⟨0x21, 0x00000021, 0xFF8000FF⟩,
  ⟨0x22, 0x00000022, 0x1F8000FF⟩, ⟨0x30, 0x00000030, 0xFFFE00FF⟩, ⟨0x31, 0x00000031, 0xFFFE00FF⟩,
  ⟨0x40, 0x00000040, 0xE07000FF⟩]

/-- The opcode field of a word (R111). -/
abbrev opField (w : Word) : Nat := w.toNat % 256

/-- The reserved opcodes of 30_encoding R123. -/
abbrev ReservedOpcode (op : Nat) : Prop :=
  op = 0x00 ∨ (0x03 ≤ op ∧ op ≤ 0x0F) ∨ (0x15 ≤ op ∧ op ≤ 0x17) ∨ op = 0x1E ∨ op = 0x1F
    ∨ (0x23 ≤ op ∧ op ≤ 0x2F) ∨ (0x32 ≤ op ∧ op ≤ 0x3F) ∨ (0x41 ≤ op ∧ op ≤ 0xFF)

/-- The selector and window fields (R111). -/
abbrev ryField (w : Word) : Nat := w.toNat / 2 ^ 26 % 8
abbrev winField (w : Word) : Nat := w.toNat / 2 ^ 29 % 8

/-- The reserved values the masks cannot express (R115, R119, R120): EXPWIN with WIN = 7, BUFSZ with selector 4 to 7,
with WIN = 7, or with WIN ≠ 0 and a selector other than 2. -/
abbrev ReservedFieldValue (w : Word) : Prop :=
  (opField w = 0x22 ∧ winField w = 7)
    ∨ (opField w = 0x02 ∧ (ryField w ≥ 4 ∨ (ryField w ≠ 2 ∧ winField w ≠ 0) ∨ winField w = 7))

/-! ### Sizes (43_exponentiation R232) -/

/-- The window policy, threshold by threshold. -/
abbrev IsPolicyWidth (ebits width : Nat) : Prop :=
  (ebits > 4096 ∧ width = 6) ∨ (2666 < ebits ∧ ebits ≤ 4096 ∧ width = 5) ∨ (717 < ebits ∧ ebits ≤ 2666 ∧ width = 4)
    ∨ (178 < ebits ∧ ebits ≤ 717 ∧ width = 3) ∨ (41 < ebits ∧ ebits ≤ 178 ∧ width = 2) ∨ (ebits ≤ 41 ∧ width = 1)

/-- The window width of WIN for an exponent of `ne` limbs (30_encoding R115). -/
abbrev IsWindowWidth (w : LimbBits) (win : BitVec 3) (ne width : Nat) : Prop :=
  (win = 0#3 ∧ IsPolicyWidth (ne * w.bits) width) ∨ (win ≠ 0#3 ∧ width = win.toNat)

/-- EXPWIN's scratch: roundup(2^w m, ALIGN_LIMBS) + 3m. -/
abbrev IsWindowNeed (w : LimbBits) (win : BitVec 3) (ne m size : Nat) : Prop :=
  ∃ width r, IsWindowWidth w win ne width ∧ IsRoundup (2 ^ width * m) (512 / w.bits) r ∧ size = r + 3 * m

/-- BUFSZ's answer (43_exponentiation R230). -/
abbrev IsBufferSize (w : LimbBits) (sel : BufSel) (win : BitVec 3) (m ne size : Nat) : Prop :=
  match sel with
  | .bin => size = 3 * m
  | .ct => size = 4 * m
  | .win => IsWindowNeed w win ne m size
  | .ctx => size = 4 + 3 * m

/-- The scratch an exponentiation needs for a modulus of `m` limbs (R234 to R236); no other command needs any. -/
def IsScratchNeed (s : State) (m size : Nat) : Instr → Prop
  | .expbin _ _ _ _ _ => size = 3 * m
  | .expct _ _ _ _ _ => size = 4 * m
  | .expwin _ _ rb _ _ win => IsWindowNeed s.params.limbBits win (descLen (s.ld.get rb)) m size
  | .msetup _ _ | .bufsz _ _ _ _ | .menc _ _ _ | .mdec _ _ _ | .mmul _ _ _ _ | .msqr _ _ _ | .mred _ _ _
  | .madd _ _ _ _ | .msub _ _ _ _ | .mneg _ _ _ | .mhalf _ _ _ | .mdbl _ _ _ | .mtpl _ _ _ | .gcd _ _ _ | .minv _ _ _
  | .crtrec _ _ _ _ _ _ => size = 0

/-! ### Host accesses -/

/-- A 32-bit host read at byte offset `o`. -/
abbrev hostRead (s : State) (o : Nat) : Host.Outcome State Fault Refusal := busAccess s (.read .b32 (BitVec.ofNat 21 o))

/-- A 32-bit host write at byte offset `o`. -/
abbrev hostWrite (s : State) (o : Nat) (v : Word) : Host.Outcome State Fault Refusal :=
  busAccess s (.write .b32 (BitVec.ofNat 21 o) v)

/-- The answer to a host read that returns `v`: nothing changes but the host's own record of the data. -/
abbrev readNext (s : State) (v : Word) : Host.Outcome State Fault Refusal :=
  .next { s with host := { s.host with data := some v } }

/-- The answer to a host write that leaves the block in state `t`: the host's record of read data is empty. -/
abbrev wroteNext (t : State) : Host.Outcome State Fault Refusal :=
  .next { t with host := { t.host with data := none } }

/-- The offsets 10_state R32 and 20_memory R82 reserve, of those that are multiples of 4. -/
abbrev ReservedOffset (p : Params) (o : Nat) : Prop :=
  o % 4 = 0 ∧ (o = 0x01C ∨ (0x040 ≤ o ∧ o ≤ 0x0FFFFF)
    ∨ (0x100000 + 4 * p.memLimbs * (p.limbBits.bits / 32) ≤ o ∧ o ≤ 0x1FFFFF))

/-- Byte address `a` of OPMEM is in the range descriptor `d` names. -/
abbrev InByteRange (w : LimbBits) (d : Word) (a : Nat) : Prop :=
  descAddr d * w.bytes ≤ a ∧ a < (descAddr d + descLen d) * w.bytes

end Sys2Proof.Claims

open Sys2Proof.Claims

/-! ## Encoding -/

/-- Decoding the word of a well-formed command gives it back, for every command and every operand value: no bit of an
encoding is dropped (30_encoding R111, R113, R120, R124). -/
def Obligations.DecodeOfEncodeIsTheCommand : Prop :=
  ∀ i : Instr, i.wellFormed = true → decode (encode i) = .ok i

/-- A word that decodes is the word of the command it decodes to, and that command is well formed: unused fields are
checked, and each word has one meaning (30_encoding R114, R120, R124). -/
def Obligations.EncodeOfDecodeIsTheWord : Prop :=
  ∀ (w : Word) (i : Instr), decode w = .ok i → encode i = w ∧ i.wellFormed = true

/-- A word decodes exactly when it selects a row of the opcode map, (w AND mask) = match, and holds none of the reserved
values the masks cannot express; the command then has that row's opcode (30_encoding R120). -/
def Obligations.WordDecodesIffItSelectsARow : Prop :=
  ∀ w : Word, ((∃ i, decode w = .ok i) ↔ (∃ r ∈ opcodeMap, w &&& r.mask = r.pattern) ∧ ¬ ReservedFieldValue w)
    ∧ ∀ i, decode w = .ok i → ∃ r ∈ opcodeMap, w &&& r.mask = r.pattern ∧ i.opcode.toNat = r.op

/-- A BUSY engine completes a word with a reserved opcode with ERR_OPCODE, and a word of a defined opcode with ERR_FIELD
where an unused field is nonzero or WIN or the selector is reserved; nothing else changes, and no other check comes before
(30_encoding R114, R115, R119, R123, R124). -/
def Obligations.ReservedEncodingsCompleteWithTheirErrors : Prop :=
  ∀ s : State, s.phase = .busy →
    (ReservedOpcode (opField s.lcmd) → engineStep s = errorNext s 0x01#8)
    ∧ ∀ r ∈ opcodeMap, opField s.lcmd = r.op →
        (s.lcmd &&& r.mask ≠ r.pattern ∨ ReservedFieldValue s.lcmd) → engineStep s = errorNext s 0x02#8

/-- The encoding examples of 30_encoding R127, read by the decoder. -/
def Obligations.EncodingExamplesDecode : Prop :=
  decode 0x00068812#32 = .ok (.mmul 0 1 2 3)
  ∧ decode 0x80568C22#32 = .ok (.expwin 4 1 2 3 5 4)
  ∧ decode 0x16068840#32 = .ok (.crtrec 0 1 2 3 4 5)
  ∧ decode 0x08008802#32 = .ok (.bufsz 1 2 .win 0)

/-! ## The life of a command -/

/-- On the engine's turn a BUSY machine runs the latched command: step is exec of it, with the turn taken and nothing
else around it (40_common R161), or the completion of a word that is no command, with ERR_OPCODE or ERR_FIELD (30_encoding
R123, R124). On the host's turn, step is the host's next bus access where HOST_BUS_ORDERED holds or the access is a read;
else a write is only put on the bus, and reaches the block on the turn of its arrival, which need not follow the order of
the writes (20_memory R91, R92, 60_exceptions R321). The turns are the model's own (log entry 3), and so are the posted
writes and that a read reaches the block at once on a bus that does not keep order (log entry 16). -/
def Obligations.StepRunsTheLatchedCommand : Prop :=
  (∀ (s : State) (i : Instr), s.phase = .busy → s.nextTurn = .engine → decode s.lcmd = .ok i →
    step s = exec i { s with turns := s.turns.tail })
  ∧ (∀ s : State, s.phase = .busy → s.nextTurn = .engine →
      step s = engineStep { s with turns := s.turns.tail }
      ∧ (decode s.lcmd = .error .opcode → step s = errorNext { s with turns := s.turns.tail } 0x01#8)
      ∧ (decode s.lcmd = .error .field → step s = errorNext { s with turns := s.turns.tail } 0x02#8))
  ∧ (∀ (s : State) (a : BusAccess), s.nextTurn = .host → s.host.prog[s.host.pos]? = some (.access a) →
      s.host.busOrdered = true ∨ (∃ w o, a = .read w o) →
      step s = busAccess { s with host := { s.host with pos := s.host.pos + 1 }, turns := s.turns.tail } a)
  ∧ (∀ (s : State) (w : BusWidth) (o : BitVec 21) (v : Word), s.nextTurn = .host →
      s.host.prog[s.host.pos]? = some (.access (.write w o v)) → s.host.busOrdered = false →
      step s = .next { s with
        host := { s.host with pos := s.host.pos + 1, data := none, posted := s.host.posted ++ [⟨w, o, v⟩] }
        turns := s.turns.tail })
  ∧ ∀ (s : State) (n : Nat) (p : PostedWrite), s.nextTurn = .arrive n → s.host.posted[n]? = some p →
      ∀ b, b = { s with host := { s.host with posted := s.host.posted.eraseIdx n }, turns := s.turns.tail } →
        (∀ f, busAccess b (.write p.width p.offset p.value) = .fault f → step s = .fault f)
        ∧ ∀ t, busAccess b (.write p.width p.offset p.value) = .next t → step s = .next { t with host := b.host }

/-- A host write to CMD while IDLE issues: the word and D0 to D7 are latched, DONE is cleared, BUSY set, and nothing
else of the block changes (40_common R150). While BUSY the write is discarded and sets OVR (R152). -/
def Obligations.CmdWriteIssuesOrSetsOvr : Prop :=
  ∀ (s : State) (w : Word),
    (s.phase = .idle →
      hostWrite s 0x010 w = wroteNext { s with lcmd := w, ld := s.d, done := false, phase := .busy })
    ∧ (s.phase = .busy → hostWrite s 0x010 w = wroteNext { s with ovr := true })

/-- Execute is a function of the latched word and descriptors and of OPMEM: two states that agree on them complete with
the same code, the same OPMEM and (with OK) the same RESULT, or reach the same fault (40_common R161, R151). -/
def Obligations.ExecuteDependsOnlyOnLatchesAndMemory : Prop :=
  ∀ (i : Instr) (s s' : State), s.params = s'.params → s.ld = s'.ld → s.mem = s'.mem →
    (∀ f, exec i s = .fault f ↔ exec i s' = .fault f)
    ∧ ∀ t, exec i s = .next t → ∃ t', exec i s' = .next t' ∧ t'.errcode = t.errcode ∧ t'.mem = t.mem
        ∧ (t.errcode = 0#8 → t'.result = t.result)

/-- A command that completes with an error code changes only STATUS: ERRCODE, BUSY and DONE; no limb of OPMEM and not
RESULT (40_common R158). -/
def Obligations.ErrorCompletionChangesOnlyStatus : Prop :=
  ∀ (i : Instr) (s t : State), exec i s = .next t → t.errcode ≠ 0#8 →
    t = { s with errcode := t.errcode, phase := .idle, done := true }

/-- The frame of all nineteen commands: whatever the code, a completed command leaves D0 to D7, the latches, CTRL.IE,
OVR, the parameters and the environment as they were, becomes IDLE with DONE set, writes only codes 0x00 to 0x0C, and
leaves every byte of OPMEM outside its destination and scratch ranges as it was (10_state R43, 20_memory R81). For BUFSZ,
which has neither range, that is all of OPMEM. -/
def Obligations.FrameOfEveryCommand : Prop :=
  ∀ (i : Instr) (s t : State), exec i s = .next t →
    t.params = s.params ∧ t.lcmd = s.lcmd ∧ t.ld = s.ld ∧ t.d = s.d ∧ t.ie = s.ie ∧ t.ovr = s.ovr
    ∧ t.host = s.host ∧ t.turns = s.turns ∧ t.phase = .idle ∧ t.done = true ∧ t.errcode.toNat ≤ 0x0C
    ∧ ∀ a, (∀ f ∈ writtenFields i, ¬ InByteRange s.params.limbBits (s.ld.get f) a) → t.mem.byte? a = s.mem.byte? a

/-- MemWrite then MemRead: a value below B^n is read back, limb i holds its i-th digit, and every limb outside the room
keeps its value; and MemRead of n defined limbs is their sum by powers of B (00_scope R15). -/
def Obligations.MemReadAndMemWriteAreLimbArrays : Prop :=
  ∀ (m : Memory) (w : LimbBits) (a n : Nat),
    (∀ v, v < (2 ^ w.bits) ^ n →
      (m.memWrite w a n v).memRead w a n = some v
      ∧ (∀ i, i < n → (m.memWrite w a n v).limb? w (a + i) = some (v / (2 ^ w.bits) ^ i % 2 ^ w.bits))
      ∧ ∀ b, b < a ∨ a + n ≤ b → (m.memWrite w a n v).limb? w b = m.limb? w b)
    ∧ ∀ x : Nat → Nat, (∀ i, i < n → m.limb? w (a + i) = some (x i)) →
        m.memRead w a n = some (∑ i ∈ Finset.range n, x i * (2 ^ w.bits) ^ i)

/-- A BUSY engine that gets its turn does not stay BUSY: the step faults, or the machine is IDLE with DONE set
(40_common R157, R158, R162). -/
def Obligations.EngineTurnEndsTheCommand : Prop :=
  ∀ s : State, s.phase = .busy → s.nextTurn = .engine →
    (∃ f, step s = .fault f) ∨ ∃ t, step s = .next t ∧ t.phase = .idle ∧ t.done = true

/-! ## Invariants and reset -/

/-- Every step keeps the invariant: legal parameters (and no step changes them or HOST_BUS_ORDERED), OPMEM canonical and
inside its bounds, no reserved error code, DONE clear while BUSY, and no write under way on a bus that keeps order
(00_scope R8, R9, 10_state R50, 60_exceptions R300, R323, 20_memory R91, R92; the posted writes are log entry 16's). -/
def Obligations.EveryStepKeepsTheInvariant : Prop :=
  ∀ s t : State, s.Inv → step s = .next t → t.Inv ∧ t.params = s.params ∧ t.host.busOrdered = s.host.busOrdered

/-- The invariant holds right after power-on reset, with the model's parameters and with any legal ones. -/
def Obligations.ResetMeetsTheInvariant : Prop :=
  State.reset.Inv ∧ ∀ p : Params, p.Legal → (State.resetWith p).Inv

/-- After a power-on reset every register has its reset value, IRQ is 0, and every limb of OPMEM is undefined, whatever
the phase was; the block's parameters stay (10_state R58, 70_reset_and_hazards R350, R351). That a reset is a turn is the
model's choice (log entry 12), and so is that the host's posted writes, in t.host = s.host, stay on the bus across it (log
entry 16, DESIGN CHOICE, unsafe). -/
def Obligations.PowerOnResetGivesTheResetValues : Prop :=
  ∀ (s : State) (rest : List Turn), s.turns = .powerOn :: rest → ∃ t, step s = .next t
    ∧ t.phase = .idle ∧ t.lcmd = 0#32 ∧ (∀ i, t.ld.get i = 0#32 ∧ t.d.get i = 0#32) ∧ t.ctrlWord = 0#32
    ∧ t.statusWord = 0#32 ∧ t.result = 0#32 ∧ t.irq = false ∧ t.params = s.params
    ∧ (∀ a, t.mem.limb? t.params.limbBits a = none) ∧ t.host = s.host ∧ t.turns = rest

/-- A warm reset gives the registers their reset values and abandons a command in progress without a completion. OPMEM
is kept, but every limb of an abandoned command's destination and scratch ranges becomes undefined (10_state R58,
70_reset_and_hazards R350, R351, R352). That a reset is a turn is the model's choice (log entry 12), and so is that the host's
posted writes, in t.host = s.host, stay on the bus across it (log entry 16, DESIGN CHOICE, unsafe). That a latched word
that is no command abandons no range, and that a command whose checks would fail does, is the model's reading (log entry
11). -/
def Obligations.WarmResetKeepsMemoryButAbandonedRanges : Prop :=
  ∀ (s : State) (rest : List Turn), s.turns = .warmReset :: rest → ∃ t, step s = .next t
    ∧ t.phase = .idle ∧ t.lcmd = 0#32 ∧ t.ld = DFile.zero ∧ t.d = DFile.zero ∧ t.ie = false
    ∧ t.statusWord = 0#32 ∧ t.result = 0#32 ∧ t.irq = false ∧ t.params = s.params ∧ t.host = s.host ∧ t.turns = rest
    ∧ (s.phase = .idle → t.mem = s.mem)
    ∧ (∀ e, s.phase = .busy → decode s.lcmd = .error e → t.mem = s.mem)
    ∧ ∀ i, s.phase = .busy → decode s.lcmd = .ok i →
        (∀ f ∈ writtenFields i, ∀ a, inRange (s.ld.get f) a → t.mem.limb? s.params.limbBits a = none)
        ∧ ∀ a, (∀ f ∈ writtenFields i, ¬ InByteRange s.params.limbBits (s.ld.get f) a) →
            t.mem.byte? a = s.mem.byte? a

/-! ## Registers and the bus -/

/-- The registers that ignore writes: ID reads 0x4D4D0007 (10_state R33); CFG reads W in [7:0], 0 in [15:8] and
MAX_MOD_LIMBS in [31:16] (R34); MEMSIZE reads zext_32(MEM_LIMBS) (R40); RESULT reads the scalar result (R39). CMD reads the
last accepted command word (R38). -/
def Obligations.ReadOnlyRegistersRead : Prop :=
  ∀ s : State, s.params.Legal → ∃ cfg size : Word,
    hostRead s 0x000 = readNext s 0x4D4D0007#32
    ∧ hostRead s 0x004 = readNext s cfg ∧ (cfg.extractLsb' 0 8).toNat = s.params.limbBits.bits
    ∧ cfg.extractLsb' 8 8 = 0#8 ∧ (cfg.extractLsb' 16 16).toNat = s.params.maxModLimbs
    ∧ hostRead s 0x018 = readNext s size ∧ size.toNat = s.params.memLimbs
    ∧ hostRead s 0x014 = readNext s s.result ∧ hostRead s 0x010 = readNext s s.lcmd
    ∧ ∀ (v : Word) (o : Nat), o = 0x000 ∨ o = 0x004 ∨ o = 0x014 ∨ o = 0x018 → hostWrite s o v = wroteNext s

/-- CTRL: bit 0 is IE, writable at any time; bits 31:1 read 0 and ignore writes (10_state R35). -/
def Obligations.CtrlHoldsTheInterruptEnable : Prop :=
  ∀ (s : State) (v : Word),
    hostWrite s 0x008 v = wroteNext { s with ie := v.getLsbD 0 }
    ∧ ∃ r : Word, hostRead s 0x008 = readNext s r ∧ r.getLsbD 0 = s.ie ∧ r.extractLsb' 1 31 = 0#31

/-- A read of STATUS gives BUSY, DONE, OVR, ERR = (ERRCODE ≠ 0) and ERRCODE at their places and 0 elsewhere (10_state
R36). -/
def Obligations.StatusReadsItsFields : Prop :=
  ∀ s : State, ∃ v : Word, hostRead s 0x00C = readNext s v
    ∧ (v.getLsbD 0 = true ↔ s.phase = .busy) ∧ v.getLsbD 1 = s.done ∧ v.getLsbD 2 = s.ovr
    ∧ (v.getLsbD 3 = true ↔ s.errcode ≠ 0#8) ∧ v.extractLsb' 4 4 = 0#4 ∧ v.extractLsb' 8 8 = s.errcode
    ∧ v.extractLsb' 16 16 = 0#16

/-- A write of v to STATUS: v[1] clears DONE, v[2] clears OVR, and every other bit is ignored (10_state R37). -/
def Obligations.StatusWriteClearsDoneAndOvr : Prop :=
  ∀ (s : State) (v : Word), hostWrite s 0x00C v = wroteNext
    { s with done := if v.getLsbD 1 = true then false else s.done
             ovr := if v.getLsbD 2 = true then false else s.ovr }

/-- Dk is read and written whole, at any time, with no other effect: not on the other registers, and not on the latched
copies (10_state R41). -/
def Obligations.DescriptorRegistersHoldWhatIsWritten : Prop :=
  ∀ (s : State) (k : DIdx) (v : Word), ∃ d : DFile,
    hostWrite s (0x020 + 4 * k.toNat) v = wroteNext { s with d := d }
    ∧ d.get k = v ∧ (∀ j, j ≠ k → d.get j = s.d.get j)
    ∧ hostRead s (0x020 + 4 * k.toNat) = readNext s (s.d.get k)

/-- A reserved offset reads as zero and ignores writes, with no other effect (10_state R32); a write to CTRL or STATUS
acts as one with the reserved bits 0. The clause on the offsets from the window's end to 0x1FFFFF holds while BUSY too:
there, that such an access is not HostHazard (70_reset_and_hazards R360 against 10_state R32) is the model's choice (log
entry 9, DEDUCED, unsafe), not a rule's. -/
def Obligations.ReservedOffsetsReadZeroAndIgnoreWrites : Prop :=
  ∀ (s : State) (v : Word),
    (∀ o, o < 2 ^ 21 → ReservedOffset s.params o → hostRead s o = readNext s 0#32 ∧ hostWrite s o v = wroteNext s)
    ∧ hostWrite s 0x008 v = hostWrite s 0x008 (v &&& 1#32)
    ∧ hostWrite s 0x00C v = hostWrite s 0x00C (v &&& 6#32)

/-- Bus word k of the window while IDLE: for W = 32 it is limb k, for W = 64 half k mod 2 of limb k div 2, low half
first. A read returns it; a write replaces it and defines it, whether or not its limb was defined, and nothing else changes
(20_memory R82, 10_state R51). That the word's bytes lie least significant first in the model's memory is log entry 6's. -/
def Obligations.WindowWordsAreLimbHalves : Prop :=
  ∀ (s : State) (k : Nat), s.phase = .idle → s.params.Legal → k < s.params.memLimbs * (s.params.limbBits.bits / 32) →
    (∀ l, s.LimbIs (k / (s.params.limbBits.bits / 32)) l →
      hostRead s (0x100000 + 4 * k)
        = readNext s (BitVec.ofNat 32 (l / 2 ^ (32 * (k % (s.params.limbBits.bits / 32))) % 2 ^ 32)))
    ∧ ∀ v m, m = s.mem.setWord k v → hostWrite s (0x100000 + 4 * k) v = wroteNext { s with mem := m }
        ∧ (∀ b, b < 4 → m.byte? (4 * k + b) = some (v.extractLsb' (8 * b) 8))
        ∧ (s.params.limbBits = .w32 → m.limb? .w32 k = some v.toNat)
        ∧ (s.params.limbBits = .w64 → ∀ l, s.mem.limb? .w64 (k / 2) = some l →
            m.limb? .w64 (k / 2) = some (if k % 2 = 0 then l / 2 ^ 32 * 2 ^ 32 + v.toNat
              else v.toNat * 2 ^ 32 + l % 2 ^ 32))
        ∧ ∀ a, a < 4 * k ∨ 4 * k + 4 ≤ a → m.byte? a = s.mem.byte? a

/-- For W = 64 a limb that was undefined in both halves stays undefined until both halves are written, in either order,
and then holds both (10_state R51, 93_implementation_defined U7). -/
def Obligations.HalfWrittenLimbIsUndefined : Prop :=
  ∀ (m : Memory) (a : Nat) (lo hi : Word), (∀ b, b < 8 → m.byte? (8 * a + b) = none) →
    (m.setWord (2 * a) lo).limb? .w64 a = none
    ∧ (m.setWord (2 * a + 1) hi).limb? .w64 a = none
    ∧ ((m.setWord (2 * a) lo).setWord (2 * a + 1) hi).limb? .w64 a = some (hi.toNat * 2 ^ 32 + lo.toNat)
    ∧ ((m.setWord (2 * a + 1) hi).setWord (2 * a) lo).limb? .w64 a = some (hi.toNat * 2 ^ 32 + lo.toNat)

/-- No read anywhere in the aperture changes the block: only the host's record of the data differs after it (20_memory
R88). -/
def Obligations.ReadsHaveNoSideEffect : Prop :=
  ∀ (s t : State) (width : BusWidth) (o : BitVec 21), busAccess s (.read width o) = .next t →
    ∃ v, t = { s with host := { s.host with data := some v } }

/-- Any host access but a 32-bit one at a multiple of 4 is the fault BusError, and no allowed access is (20_memory
R83). That it is BusError also on the OPMEM window where another model fault's cause is met too, HostHazard's while BUSY
(70_reset_and_hazards R360) or UninitRead's at an undefined limb (R353), is the model's choice (log entry 26). -/
def Obligations.OnlyAlignedWordAccessesAreAllowed : Prop :=
  ∀ (s : State) (width : BusWidth) (o : BitVec 21) (v : Word),
    (busAccess s (.read width o) = .fault .busError ↔ width ≠ .b32 ∨ o.toNat % 4 ≠ 0)
    ∧ (busAccess s (.write width o v) = .fault .busError ↔ width ≠ .b32 ∨ o.toNat % 4 ≠ 0)

/-- A host access to an OPMEM word while BUSY is the fault HostHazard, read or write; host accesses to the registers
while BUSY are not hazards and complete (70_reset_and_hazards R360). That a read of an undefined limb while BUSY is
HostHazard and not UninitRead is the model's choice (log entry 25). -/
def Obligations.OpmemAccessWhileBusyIsAHazard : Prop :=
  ∀ (s : State) (v : Word), s.phase = .busy → s.params.Legal →
    (∀ k, k < s.params.memLimbs * (s.params.limbBits.bits / 32) →
      hostRead s (0x100000 + 4 * k) = .fault .hostHazard ∧ hostWrite s (0x100000 + 4 * k) v = .fault .hostHazard)
    ∧ ∀ o, o < 0x100000 → o % 4 = 0 →
        (∃ t, hostRead s o = .next t) ∧ ∃ t, hostWrite s o v = .next t

/-- A read of an undefined limb is the fault UninitRead, at the read the checks reach: by the host through the window
while IDLE; and by every command that reads OPMEM: in LoadCtx, any limb of a context it comes to, for the commands with one
context and for both contexts of CRTREC; the first source of a template command, and the second (for an exponentiation, the
exponent once the base is below M); the source of MSETUP; either source of GCD and MINV; any source of CRTREC
(70_reset_and_hazards R353, 40_common R159, 60_exceptions R311). BUFSZ reads no limb. That the host's read of the written
half of a half-written 64-bit limb faults is the model's reading (log entry 21). -/
def Obligations.ReadOfUndefinedLimbFaults : Prop :=
  (∀ (s : State) (k : Nat), s.phase = .idle → s.params.Legal → k < s.params.memLimbs * (s.params.limbBits.bits / 32) →
    s.mem.limb? s.params.limbBits (k / (s.params.limbBits.bits / 32)) = none →
    hostRead s (0x100000 + 4 * k) = .fault .uninitRead)
  ∧ (∀ (i : Instr) (t : Template) (s : State), i.wellFormed = true → templateOf i = some t →
      (RolesOk s.params (s.templateRoles t) → s.CtxUndefined (s.ld.get t.rc) → exec i s = .fault .uninitRead)
      ∧ ∀ c need, IsScratchNeed s c.m need i → s.TemplateReady t c need →
          (∀ ra, t.srcs.head? = some ra → s.ValUndefined ra → exec i s = .fault .uninitRead)
          ∧ ∀ ra rb a, t.srcs = [ra, rb] → s.ValIs ra a → t.scr = none ∨ a < c.modulus → s.ValUndefined rb →
              exec i s = .fault .uninitRead)
  ∧ (∀ (s : State) (rd ra : DIdx), RolesOk s.params [s.writtenRole rd, s.readRole ra] → s.ValUndefined ra →
      exec (.msetup rd ra) s = .fault .uninitRead)
  ∧ (∀ (s : State) (rd ra rb : DIdx), RolesOk s.params [s.writtenRole rd, s.readRole ra, s.readRole rb] →
      s.ValUndefined ra ∨ s.ValUndefined rb →
      exec (.gcd rd ra rb) s = .fault .uninitRead ∧ exec (.minv rd ra rb) s = .fault .uninitRead)
  ∧ ∀ (s : State) (rd ra rb rc rx ry : DIdx), RolesOk s.params (s.crtRoles rd ra rb rc rx ry) →
      (s.CtxUndefined (s.ld.get rc) → exec (.crtrec rd ra rb rc rx ry) s = .fault .uninitRead)
      ∧ ∀ cp, s.CtxAt (s.ld.get rc) cp →
          (s.CtxUndefined (s.ld.get rx) → exec (.crtrec rd ra rb rc rx ry) s = .fault .uninitRead)
          ∧ ∀ cq, s.CtxAt (s.ld.get rx) cq → cp.m + cq.m ≤ descLen (s.ld.get rd) →
              s.ValUndefined ra ∨ s.ValUndefined rb ∨ s.ValUndefined ry →
              exec (.crtrec rd ra rb rc rx ry) s = .fault .uninitRead

/-- A context that passes the TAG and m checks, with every limb defined, but is not consistent is the fault
CtxInconsistent, for every command with one modular context, for CRTREC's first context, and for its second behind a
consistent first (40_common R156, 60_exceptions R311). -/
def Obligations.InconsistentContextFaults : Prop :=
  (∀ (i : Instr) (t : Template) (s : State) (c : Ctx), i.wellFormed = true → templateOf i = some t →
    RolesOk s.params (s.templateRoles t) → s.CtxHeaderIs (s.ld.get t.rc) c.m → s.CtxBodyIs (s.ld.get t.rc) c →
    ¬ c.Consistent s.params.limbBits → exec i s = .fault .ctxInconsistent)
  ∧ ∀ (s : State) (rd ra rb rc rx ry : DIdx), RolesOk s.params (s.crtRoles rd ra rb rc rx ry) →
      (∀ c, s.CtxHeaderIs (s.ld.get rc) c.m → s.CtxBodyIs (s.ld.get rc) c → ¬ c.Consistent s.params.limbBits →
        exec (.crtrec rd ra rb rc rx ry) s = .fault .ctxInconsistent)
      ∧ ∀ cp c, s.CtxAt (s.ld.get rc) cp → s.CtxHeaderIs (s.ld.get rx) c.m → s.CtxBodyIs (s.ld.get rx) c →
          ¬ c.Consistent s.params.limbBits → exec (.crtrec rd ra rb rc rx ry) s = .fault .ctxInconsistent

/-- IRQ is CTRL.IE AND STATUS.DONE: a completed command raises it exactly with IE set, clearing DONE or IE or issuing the
next command lowers it, and OVR does not touch it (10_state R42, 60_exceptions R320). -/
def Obligations.IrqFollowsDoneAndEnable : Prop :=
  ∀ s : State, (s.irq = true ↔ s.ie = true ∧ s.done = true)
    ∧ (∀ i t, exec i s = .next t → t.irq = s.ie)
    ∧ (∀ w, s.phase = .idle → ∀ t, hostWrite s 0x010 w = .next t → t.irq = false)
    ∧ (∀ w, s.phase = .busy → ∀ t, hostWrite s 0x010 w = .next t → t.irq = s.irq)
    ∧ (∀ v t, v.getLsbD 1 = true → hostWrite s 0x00C v = .next t → t.irq = false)
    ∧ ∀ v t, v.getLsbD 0 = false → hostWrite s 0x008 v = .next t → t.irq = false ∧ t.done = s.done

/-! ## The commands -/

/-- MSETUP: errors in their order, else the context TAG, m, bitlen(M), (-M⁻¹) mod B, M, R mod M, R² mod M in the room,
zero above it, and RESULT = 4 + 3m (41_montgomery R180). -/
def Obligations.MsetupBuildsTheContext : Prop :=
  ∀ (s : State) (rd ra : DIdx), opOf (encode (.msetup rd ra)) = 0x01#8
    ∧ (¬ AllInBounds s.params [s.writtenRole rd, s.readRole ra] → exec (.msetup rd ra) s = errorNext s 0x03#8)
    ∧ (AllInBounds s.params [s.writtenRole rd, s.readRole ra] → ¬ NoOverlap [s.writtenRole rd, s.readRole ra] →
        exec (.msetup rd ra) s = errorNext s 0x04#8)
    ∧ ∀ M m, RolesOk s.params [s.writtenRole rd, s.readRole ra] → s.ValIs ra M → m = nlen s.params.limbBits M →
        (M % 2 = 0 → exec (.msetup rd ra) s = errorNext s 0x09#8)
        ∧ (M % 2 = 1 → m > s.params.maxModLimbs → exec (.msetup rd ra) s = errorNext s 0x0A#8)
        ∧ (M % 2 = 1 → m ≤ s.params.maxModLimbs → descLen (s.ld.get rd) < 4 + 3 * m →
            exec (.msetup rd ra) s = errorNext s 0x08#8)
        ∧ (M % 2 = 1 → m ≤ s.params.maxModLimbs → 4 + 3 * m ≤ descLen (s.ld.get rd) →
            ∀ B, B = 2 ^ s.params.limbBits.bits → ∃ mp, mp < B ∧ (M * mp + 1) % B = 0
            ∧ exec (.msetup rd ra) s = writtenNext s rd
              (0x4D4F4E54 + m * B + bitlen M * B ^ 2 + mp * B ^ 3 + M * B ^ 4 + B ^ m % M * B ^ (4 + m)
                + (B ^ m) ^ 2 % M * B ^ (4 + 2 * m)) (4 + 3 * m))

/-- MSETUP writes only consistent contexts, in the layout of 30_encoding R121: after it the destination names a
consistent context of the source's modulus, and the excess of the room is zero (30_encoding R121, R122). -/
def Obligations.MsetupWritesAConsistentContext : Prop :=
  ∀ (s t : State) (rd ra : DIdx), s.params.Legal → exec (.msetup rd ra) s = .next t → t.errcode = 0#8 →
    ∃ c : Ctx, t.CtxAt (s.ld.get rd) c ∧ s.ValIs ra c.modulus
      ∧ ∀ j, 4 + 3 * c.m ≤ j → j < descLen (s.ld.get rd) → t.LimbIs (descAddr (s.ld.get rd) + j) 0

/-- BUFSZ: ERR_RANGE for m = 0 or m > MAX_MOD_LIMBS, else RESULT is the size; no OPMEM limb is read or written and no
bounds are checked. The size is monotonic in the modulus length and in the exponent length (43_exponentiation R230,
R232). -/
def Obligations.BufszAnswersTheSize : Prop :=
  (∀ (s : State) (ra rb : DIdx) (sel : BufSel) (win : BitVec 3), (Instr.bufsz ra rb sel win).wellFormed = true →
    (descLen (s.ld.get ra) = 0 ∨ descLen (s.ld.get ra) > s.params.maxModLimbs →
      exec (.bufsz ra rb sel win) s = errorNext s 0x0A#8)
    ∧ (1 ≤ descLen (s.ld.get ra) → descLen (s.ld.get ra) ≤ s.params.maxModLimbs → ∃ size,
        IsBufferSize s.params.limbBits sel win (descLen (s.ld.get ra)) (descLen (s.ld.get rb)) size
        ∧ exec (.bufsz ra rb sel win) s
          = .next { s with result := BitVec.ofNat 32 size, errcode := 0x00#8, phase := .idle, done := true }))
  ∧ ∀ (w : LimbBits) (sel : BufSel) (win : BitVec 3) (m m' ne ne' size size' : Nat), m ≤ m' → ne ≤ ne' →
      IsBufferSize w sel win m ne size → IsBufferSize w sel win m' ne' size' → size ≤ size'

/-- MENC: a R mod M, a < M (41_montgomery R181). -/
def Obligations.MencEncodes : Prop :=
  ∀ (s : State) (rd ra rc : DIdx), OneSourceCommand 0x10#8 (.menc rd ra rc) s rd ra rc (fun c a => a ≥ c.modulus)
    (fun c a r => r = a * (2 ^ s.params.limbBits.bits) ^ c.m % c.modulus)

/-- MDEC: a Rinv mod M, a < M (41_montgomery R182). -/
def Obligations.MdecDecodes : Prop :=
  ∀ (s : State) (rd ra rc : DIdx), OneSourceCommand 0x11#8 (.mdec rd ra rc) s rd ra rc (fun c a => a ≥ c.modulus)
    (fun c a r => ∃ rinv, IsRinv s.params.limbBits c rinv ∧ r = a * rinv % c.modulus)

/-- MMUL: a b Rinv mod M, a, b < M (41_montgomery R183). -/
def Obligations.MmulMultiplies : Prop :=
  ∀ (s : State) (rd ra rb rc : DIdx), TwoSourceCommand 0x12#8 (.mmul rd ra rb rc) s rd ra rb rc
    (fun c a b r => ∃ rinv, IsRinv s.params.limbBits c rinv ∧ r = a * b * rinv % c.modulus)

/-- MSQR: a a Rinv mod M, a < M (41_montgomery R184). -/
def Obligations.MsqrSquares : Prop :=
  ∀ (s : State) (rd ra rc : DIdx), OneSourceCommand 0x13#8 (.msqr rd ra rc) s rd ra rc (fun c a => a ≥ c.modulus)
    (fun c a r => ∃ rinv, IsRinv s.params.limbBits c rinv ∧ r = a * a * rinv % c.modulus)

/-- MRED: T Rinv mod M where T div R < M, else ERR_RANGE (41_montgomery R185). -/
def Obligations.MredReduces : Prop :=
  ∀ (s : State) (rd ra rc : DIdx), OneSourceCommand 0x14#8 (.mred rd ra rc) s rd ra rc
    (fun c t => t / (2 ^ s.params.limbBits.bits) ^ c.m ≥ c.modulus)
    (fun c t r => ∃ rinv, IsRinv s.params.limbBits c rinv ∧ r = t * rinv % c.modulus)

/-- MADD: (a + b) mod M (42_modular_arith R210). -/
def Obligations.MaddAdds : Prop :=
  ∀ (s : State) (rd ra rb rc : DIdx), TwoSourceCommand 0x18#8 (.madd rd ra rb rc) s rd ra rb rc
    (fun c a b r => r = (a + b) % c.modulus)

/-- MSUB: a - b over the integers, reduced into [0, M): a - b, or a - b + M where a < b (42_modular_arith R211). -/
def Obligations.MsubSubtracts : Prop :=
  ∀ (s : State) (rd ra rb rc : DIdx), TwoSourceCommand 0x19#8 (.msub rd ra rb rc) s rd ra rb rc
    (fun c a b r => r < c.modulus ∧ ((r : Int) = (a : Int) - b ∨ (r : Int) = (a : Int) - b + c.modulus))

/-- MNEG: 0 for a = 0, else M - a (42_modular_arith R212). -/
def Obligations.MnegNegates : Prop :=
  ∀ (s : State) (rd ra rc : DIdx), OneSourceCommand 0x1A#8 (.mneg rd ra rc) s rd ra rc (fun c a => a ≥ c.modulus)
    (fun c a r => r = if a = 0 then 0 else c.modulus - a)

/-- MHALF: a / 2 for an even a, (a + M) / 2 for an odd one (42_modular_arith R213). -/
def Obligations.MhalfHalves : Prop :=
  ∀ (s : State) (rd ra rc : DIdx), OneSourceCommand 0x1B#8 (.mhalf rd ra rc) s rd ra rc (fun c a => a ≥ c.modulus)
    (fun c a r => r = if a % 2 = 0 then a / 2 else (a + c.modulus) / 2)

/-- MDBL: 2 a mod M (42_modular_arith R214). -/
def Obligations.MdblDoubles : Prop :=
  ∀ (s : State) (rd ra rc : DIdx), OneSourceCommand 0x1C#8 (.mdbl rd ra rc) s rd ra rc (fun c a => a ≥ c.modulus)
    (fun c a r => r = 2 * a % c.modulus)

/-- MTPL: 3 a mod M (42_modular_arith R215). -/
def Obligations.MtplTriples : Prop :=
  ∀ (s : State) (rd ra rc : DIdx), OneSourceCommand 0x1D#8 (.mtpl rd ra rc) s rd ra rc (fun c a => a ≥ c.modulus)
    (fun c a r => r = 3 * a % c.modulus)

/-- EXPBIN: ExpMont(X, e, C) with scratch need 3m (43_exponentiation R234). -/
def Obligations.ExpbinExponentiates : Prop :=
  ∀ (s : State) (rd ra rb rc rs : DIdx), ExpCommand 0x20#8 (.expbin rd ra rb rc rs) s rd ra rb rc rs (fun m => 3 * m)

/-- EXPCT: ExpMont(X, e, C) with scratch need 4m (43_exponentiation R235). -/
def Obligations.ExpctExponentiates : Prop :=
  ∀ (s : State) (rd ra rb rc rs : DIdx), ExpCommand 0x21#8 (.expct rd ra rb rc rs) s rd ra rb rc rs (fun m => 4 * m)

/-- EXPWIN: ExpMont(X, e, C) with scratch need roundup(2^w m, ALIGN_LIMBS) + 3m for the window width w of WIN or of the
policy on EBITS (43_exponentiation R236). -/
def Obligations.ExpwinExponentiates : Prop :=
  ∀ (s : State) (rd ra rb rc rs : DIdx) (win : BitVec 3), win ≠ 7#3 → ∃ need : Nat → Nat,
    (∀ m, IsWindowNeed s.params.limbBits win (descLen (s.ld.get rb)) m (need m))
    ∧ ExpCommand 0x22#8 (.expwin rd ra rb rc rs win) s rd ra rb rc rs need

/-- GCD: errors in their order, else the greatest common divisor; with one operand 0 the other (44_gcd_inverse R260). -/
def Obligations.GcdGivesTheGreatestDivisor : Prop :=
  ∀ (s : State) (rd ra rb : DIdx), opOf (encode (.gcd rd ra rb)) = 0x30#8
    ∧ (¬ AllInBounds s.params [s.writtenRole rd, s.readRole ra, s.readRole rb] →
      exec (.gcd rd ra rb) s = errorNext s 0x03#8)
    ∧ (AllInBounds s.params [s.writtenRole rd, s.readRole ra, s.readRole rb] →
        ¬ NoOverlap [s.writtenRole rd, s.readRole ra, s.readRole rb] → exec (.gcd rd ra rb) s = errorNext s 0x04#8)
    ∧ ∀ a b, RolesOk s.params [s.writtenRole rd, s.readRole ra, s.readRole rb] → s.ValIs ra a → s.ValIs rb b →
        (a = 0 → b = 0 → exec (.gcd rd ra rb) s = errorNext s 0x0B#8)
        ∧ (¬ (a = 0 ∧ b = 0) → ∃ g, g ∣ a ∧ g ∣ b ∧ (∀ d, d ∣ a → d ∣ b → d ≤ g)
            ∧ (descLen (s.ld.get rd) < nlen s.params.limbBits g → exec (.gcd rd ra rb) s = errorNext s 0x08#8)
            ∧ (nlen s.params.limbBits g ≤ descLen (s.ld.get rd) → exec (.gcd rd ra rb) s = resultNext s rd g))

/-- MINV: errors in their order, else the unique x with 1 ≤ x < n and a x mod n = 1 (44_gcd_inverse R261). -/
def Obligations.MinvInverts : Prop :=
  ∀ (s : State) (rd ra rb : DIdx), opOf (encode (.minv rd ra rb)) = 0x31#8
    ∧ (¬ AllInBounds s.params [s.writtenRole rd, s.readRole ra, s.readRole rb] →
      exec (.minv rd ra rb) s = errorNext s 0x03#8)
    ∧ (AllInBounds s.params [s.writtenRole rd, s.readRole ra, s.readRole rb] →
        ¬ NoOverlap [s.writtenRole rd, s.readRole ra, s.readRole rb] → exec (.minv rd ra rb) s = errorNext s 0x04#8)
    ∧ ∀ a n, RolesOk s.params [s.writtenRole rd, s.readRole ra, s.readRole rb] → s.ValIs ra a → s.ValIs rb n →
        (descLen (s.ld.get rd) < nlen s.params.limbBits n → exec (.minv rd ra rb) s = errorNext s 0x08#8)
        ∧ (nlen s.params.limbBits n ≤ descLen (s.ld.get rd) →
            (¬ (0 < a ∧ a < n) → exec (.minv rd ra rb) s = errorNext s 0x0A#8)
            ∧ (0 < a → a < n → Nat.gcd a n ≠ 1 → exec (.minv rd ra rb) s = errorNext s 0x0C#8)
            ∧ (0 < a → a < n → Nat.gcd a n = 1 → ∃ x, 1 ≤ x ∧ x < n ∧ a * x % n = 1
                ∧ exec (.minv rd ra rb) s = resultNext s rd x))

/-- CRTREC: errors in their order, the P context before the Q context, else xQ + h Q with h = qInv (xP - xQ) mod P over
the integers (45_crt R280). -/
def Obligations.CrtrecRecombines : Prop :=
  ∀ (s : State) (rd ra rb rc rx ry : DIdx) (roles : List Role),
    roles = s.crtRoles rd ra rb rc rx ry →
    opOf (encode (.crtrec rd ra rb rc rx ry)) = 0x40#8
    ∧ (¬ AllInBounds s.params roles → exec (.crtrec rd ra rb rc rx ry) s = errorNext s 0x03#8)
    ∧ (AllInBounds s.params roles → ¬ NoOverlap roles → exec (.crtrec rd ra rb rc rx ry) s = errorNext s 0x04#8)
    ∧ (RolesOk s.params roles → s.CtxTagBad (s.ld.get rc) → exec (.crtrec rd ra rb rc rx ry) s = errorNext s 0x05#8)
    ∧ (RolesOk s.params roles → s.CtxSizeBad (s.ld.get rc) → exec (.crtrec rd ra rb rc rx ry) s = errorNext s 0x06#8)
    ∧ ∀ cp, RolesOk s.params roles → s.CtxAt (s.ld.get rc) cp →
        (s.CtxTagBad (s.ld.get rx) → exec (.crtrec rd ra rb rc rx ry) s = errorNext s 0x05#8)
        ∧ (s.CtxSizeBad (s.ld.get rx) → exec (.crtrec rd ra rb rc rx ry) s = errorNext s 0x06#8)
        ∧ ∀ cq, s.CtxAt (s.ld.get rx) cq →
            (descLen (s.ld.get rd) < cp.m + cq.m → exec (.crtrec rd ra rb rc rx ry) s = errorNext s 0x08#8)
            ∧ (cp.m + cq.m ≤ descLen (s.ld.get rd) → ∀ xp xq qinv,
                s.ValIs ra xp → s.ValIs rb xq → s.ValIs ry qinv →
                (xp ≥ cp.modulus ∨ xq ≥ cq.modulus ∨ qinv ≥ cp.modulus →
                  exec (.crtrec rd ra rb rc rx ry) s = errorNext s 0x0A#8)
                ∧ (xp < cp.modulus → xq < cq.modulus → qinv < cp.modulus → ∃ h : Nat, h < cp.modulus
                    ∧ (h : Int) ≡ (qinv : Int) * ((xp : Int) - (xq : Int)) [ZMOD (cp.modulus : Int)]
                    ∧ exec (.crtrec rd ra rb rc rx ry) s = resultNext s rd (xq + h * cq.modulus)))

/-! ## What the commands give together -/

/-- MDEC of what MENC wrote gives the value back, through OPMEM: encode then decode is the identity (41_montgomery
R182). -/
def Obligations.DecodeAfterEncodeIsTheIdentity : Prop :=
  ∀ (s t u : State) (rd ra rc rd2 : DIdx) (a : Nat), s.ValIs ra a → exec (.menc rd ra rc) s = .next t → t.errcode = 0#8 →
    exec (.mdec rd2 rd rc) t = .next u → u.errcode = 0#8 → u.ValIs rd2 a

/-- The three exponentiation engines agree: on the same operands and scratch, wherever they complete with OK, they leave
the same state, for every window width (43_exponentiation R235, R236). -/
def Obligations.ExponentiationEnginesAgree : Prop :=
  ∀ (s t u v : State) (rd ra rb rc rs : DIdx) (win : BitVec 3),
    exec (.expbin rd ra rb rc rs) s = .next t → t.errcode = 0#8 →
    exec (.expct rd ra rb rc rs) s = .next u → u.errcode = 0#8 →
    exec (.expwin rd ra rb rc rs win) s = .next v → v.errcode = 0#8 → t = u ∧ u = v

/-- The exponentiation result is Mont(Dec(X)^e mod M), for every X < M and every e, 0 included (43_exponentiation
R231). -/
def Obligations.ExpMontIsMontOfThePower : Prop :=
  ∀ (w : LimbBits) (c : Ctx) (x e rinv : Nat), c.Consistent w → x < c.modulus → IsRinv w c rinv →
    expMont w c x e = (x * rinv % c.modulus) ^ e % c.modulus * (2 ^ w.bits) ^ c.m % c.modulus

/-- Where qInv is the inverse of Q modulo P, CRTREC's value is below P Q and congruent to xP modulo P and to xQ modulo Q
(45_crt R280). Garner's step by the modular operations of the P context has that value (R281). -/
def Obligations.CrtValueSolvesBothCongruences : Prop :=
  (∀ p q xp xq qinv : Nat, xp < p → xq < q → qinv * q % p = 1 % p →
    crtValue p q xp xq qinv < p * q ∧ crtValue p q xp xq qinv % p = xp ∧ crtValue p q xp xq qinv % q = xq)
  ∧ ∀ (w : LimbBits) (c : Ctx) (q xp xq qinv : Nat), c.Consistent w → xp < c.modulus → xq < q → qinv < c.modulus →
      crtRef w c q xp xq qinv = crtValue c.modulus q xp xq qinv

/-! ## The reference algorithms -/

/-- The loop of 44_gcd_inverse R263 decides both the coprimality check and the value: for 0 < a < n it fails exactly when
gcd(a, n) ≠ 1, and else gives the inverse in [1, n). The Euclidean loop of R262 computes the greatest common divisor. -/
def Obligations.EuclideanLoopsComputeGcdAndInverse : Prop :=
  (∀ a n : Nat, 0 < a → a < n →
    (modInverse a n = none ↔ Nat.gcd a n ≠ 1)
    ∧ ∀ x, modInverse a n = some x → 1 ≤ x ∧ x < n ∧ a * x % n = 1)
  ∧ ∀ a b : Nat, gcdRef a b = Nat.gcd a b

/-- MontMul by interleaved multiply-accumulate and one-limb reduction (41_montgomery R186, R188) is a b Rinv mod M, and
so MENC and MDEC by it are encode and decode (R189). -/
def Obligations.CiosMultiplyIsTheMontgomeryProduct : Prop :=
  ∀ (w : LimbBits) (c : Ctx) (a b rinv : Nat), c.Consistent w → a < c.modulus → b < c.modulus → IsRinv w c rinv →
    montMulRef w c a b = a * b * rinv % c.modulus
    ∧ encRef w c a = a * (2 ^ w.bits) ^ c.m % c.modulus ∧ decRef w c a = a * rinv % c.modulus

/-- Redc (41_montgomery R187) is T Rinv mod M for T < M R. -/
def Obligations.RedcIsTheMontgomeryReduction : Prop :=
  ∀ (w : LimbBits) (c : Ctx) (t rinv : Nat), c.Consistent w → t < c.modulus * (2 ^ w.bits) ^ c.m → IsRinv w c rinv →
    redcRef w c t = t * rinv % c.modulus

/-- The masked modular operations (42_modular_arith R216, 00_scope R19) have the values of R210 to R215. -/
def Obligations.MaskedModularOperationsAreExact : Prop :=
  ∀ (w : LimbBits) (c : Ctx) (a b : Nat), c.Consistent w → a < c.modulus → b < c.modulus →
    modAddRef w c a b = (a + b) % c.modulus
    ∧ modSubRef w c a b = (if b ≤ a then a - b else a + c.modulus - b)
    ∧ modNegRef w c a = (if a = 0 then 0 else c.modulus - a)
    ∧ modHalfRef w c a = (if a % 2 = 0 then a / 2 else (a + c.modulus) / 2)
    ∧ modDblRef w c a = 2 * a % c.modulus ∧ modTplRef w c a = 3 * a % c.modulus

/-- EXPBIN's square-and-multiply and EXPCT's masked loop over EBITS bits compute ExpMont (43_exponentiation R237,
R238). -/
def Obligations.BinaryExponentiationLoopsAreExpMont : Prop :=
  ∀ (w : LimbBits) (c : Ctx) (x e ebits y : Nat), c.Consistent w → x < c.modulus → e < 2 ^ ebits → IsExpMont w c x e y →
    expBinRef w c x e = y ∧ expCtRef w c x e ebits = y

/-- EXPWIN's window loop over the scrambled table with its scanning lookup computes ExpMont for every window width from 1
to 6, whether or not EBITS is a multiple of it (43_exponentiation R239). -/
def Obligations.WindowedExponentiationIsExpMont : Prop :=
  ∀ (w : LimbBits) (c : Ctx) (x e ebits width y : Nat), c.Consistent w → x < c.modulus → e < 2 ^ ebits → 1 ≤ width →
    width ≤ 6 → IsExpMont w c x e y → expWinRef w c x e ebits width = y
end

