-- ==== Sys2Proof/Laws/Arith.lean ====
section
/-! SUPPORT. The arithmetic of the command rules: the modular power is the power, the Euclidean loop finds the inverse,
and the Montgomery constants are what 00_scope R18 says. -/

namespace Sys2Proof.Machine

theorem LimbBits.base_pos (w : LimbBits) : 0 < w.base := by cases w <;> decide

theorem LimbBits.one_lt_base (w : LimbBits) : 1 < w.base := by cases w <;> decide

theorem lt_two_pow_bitlen (v : Nat) : v < 2 ^ bitlen v := by
  unfold bitlen
  split
  · simp [*]
  · exact Nat.lt_log2_self

/-! ### Modular power -/

theorem powModBits_eq (m : Nat) : ∀ (k b e : Nat), e < 2 ^ k → powModBits m k b e = b ^ e % m := by
  intro k
  induction k with
  | zero =>
    intro b e h
    obtain rfl : e = 0 := by omega
    simp [powModBits]
  | succ k ih =>
    intro b e h
    have hh : powModBits m k (b * b % m) (e / 2) = (b * b) ^ (e / 2) % m := by
      rw [ih _ _ (by omega), ← Nat.pow_mod]
    have hsq : (b * b) ^ (e / 2) = b ^ (2 * (e / 2)) := by rw [Nat.pow_mul, Nat.pow_two]
    simp only [powModBits, hh, hsq]
    split
    · rename_i h1
      conv_rhs => rw [show e = 2 * (e / 2) + 1 by omega, Nat.pow_succ', Nat.mul_mod]
      rw [Nat.mul_mod, Nat.mod_mod]
    · rw [show 2 * (e / 2) = e by omega]

/-- The modular power is the power modulo m. -/
theorem powMod_eq (b e m : Nat) : powMod b e m = b ^ e % m := powModBits_eq m _ _ _ (lt_two_pow_bitlen e)

/-! ### Modular inverse -/

/-- The invariant of R263's loop on (A, Mv, X1, X2) for the inverse of `a` modulo `n`. -/
structure InvState (a n A mv x1 x2 : Nat) : Prop where
  pos : 1 ≤ A
  coprime : Nat.Coprime A mv
  left : a * x1 ≡ A [MOD n]
  right : a * x2 + mv ≡ 0 [MOD n]
  det : A * x2 + mv * x1 = n
  x1Pos : 1 ≤ x1
  first : A ≤ mv ∨ 1 ≤ x2

theorem invLoop_spec {a n : Nat} (hn : 1 < n) : ∀ (k A mv x1 x2 : Nat), A < 2 ^ k → InvState a n A mv x1 x2 →
    ∃ x, invLoop n (k + 1) A mv x1 x2 = some x ∧ x < n ∧ a * x % n = 1 := by
  intro k
  induction k with
  | zero => intro A mv x1 x2 hA h; have := h.pos; omega
  | succ k ih =>
    intro A mv x1 x2 hA h
    rw [invLoop]
    by_cases h1 : A = 1
    · rw [if_pos h1]
      refine ⟨x1 % n, rfl, Nat.mod_lt _ (by omega), ?_⟩
      have := h.left
      rw [Nat.ModEq, h1, Nat.mod_eq_of_lt hn] at this
      rw [Nat.mul_mod, Nat.mod_mod, ← Nat.mul_mod, this]
    · have hA0 : A ≠ 0 := by have := h.pos; omega
      rw [if_neg h1, if_neg hA0]
      dsimp only
      have hdm : mv = A * (mv / A) + mv % A := (Nat.div_add_mod mv A).symm
      have hlt : mv % A < A := Nat.mod_lt _ (by omega)
      have hcop : Nat.Coprime A (mv % A) := by
        rw [Nat.Coprime, Nat.gcd_comm, ← Nat.gcd_rec]; exact h.coprime
      have hmv0 : mv % A ≠ 0 := by
        intro h0
        rw [h0] at hcop
        simp at hcop
        exact h1 hcop
      generalize hq : mv / A = q at *
      generalize hm : mv % A = r at *
      have hdet : A * (x2 + q * x1) + r * x1 = n := by
        rw [← h.det, hdm]; ring
      have hright : a * (x2 + q * x1) + r ≡ 0 [MOD n] := by
        have h3 : a * (x2 + q * x1) + r + A * q ≡ 0 + A * q [MOD n] := by
          have e1 : a * (x2 + q * x1) + r + A * q = (a * x2 + mv) + a * x1 * q := by rw [hdm]; ring
          rw [e1]
          exact (h.right.add (h.left.mul_right q))
        exact Nat.ModEq.add_right_cancel' _ h3
      have hx2 : 1 ≤ x2 + q * x1 := by
        rcases h.first with hf | hf
        · have : 1 ≤ q := by
            rw [← hq]; exact (Nat.one_le_div_iff (by omega)).mpr hf
          have := Nat.mul_le_mul this h.x1Pos
          omega
        · omega
      by_cases hr1 : r = 1
      · rw [if_pos hr1]
        have hle : x2 + q * x1 ≤ n := by
          have : 1 * (x2 + q * x1) ≤ A * (x2 + q * x1) := Nat.mul_le_mul_right _ h.pos
          omega
        refine ⟨_, rfl, by omega, ?_⟩
        have h4 : a * (n - (x2 + q * x1)) ≡ 1 [MOD n] := by
          have h5 : a * (n - (x2 + q * x1)) + (a * (x2 + q * x1)) ≡ 1 + a * (x2 + q * x1) [MOD n] := by
            rw [← Nat.mul_add, Nat.sub_add_cancel hle]
            rw [hr1, Nat.add_comm] at hright
            exact ((Nat.modEq_zero_iff_dvd).mpr (Nat.dvd_mul_left n a)).trans hright.symm
          exact Nat.ModEq.add_right_cancel' _ h5
        rw [Nat.ModEq, Nat.mod_eq_of_lt hn] at h4
        exact h4
      · rw [if_neg hr1, if_neg hmv0]
        refine ih _ _ _ _ ?_ ?_
        · have : A % r < r := Nat.mod_lt _ (by omega)
          have h6 : A = r * (A / r) + A % r := (Nat.div_add_mod A r).symm
          have h7 : 1 ≤ A / r := (Nat.one_le_div_iff (by omega)).mpr (by omega)
          have h8 : r * 1 ≤ r * (A / r) := Nat.mul_le_mul_left _ h7
          rw [Nat.pow_succ] at hA
          omega
        · have hdm2 : A = r * (A / r) + A % r := (Nat.div_add_mod A r).symm
          have hcop2 : Nat.Coprime (A % r) r := by
            rw [Nat.Coprime, ← Nat.gcd_rec, Nat.gcd_comm]; exact hcop
          generalize A / r = q2 at *
          refine ⟨?_, hcop2, ?_, hright, ?_, by have := h.x1Pos; omega, .inr hx2⟩
          · rcases Nat.eq_zero_or_pos (A % r) with h0 | h0
            · rw [h0] at hcop2; simp at hcop2; omega
            · exact h0
          · have h9 : a * (x1 + q2 * (x2 + q * x1)) + r * q2 ≡ A % r + r * q2 [MOD n] := by
              have e1 : a * (x1 + q2 * (x2 + q * x1)) + r * q2 = a * x1 + (a * (x2 + q * x1) + r) * q2 := by ring
              rw [e1, show A % r + r * q2 = A + 0 * q2 by rw [Nat.zero_mul]; omega]
              exact h.left.add (hright.mul_right q2)
            exact Nat.ModEq.add_right_cancel' _ h9
          · generalize A % r = r2 at *
            rw [← hdet, hdm2]; ring

/-- For 0 < a < n coprime to n the loop finds the inverse (44_gcd_inverse R263). -/
theorem modInverse_spec {a n : Nat} (h0 : 0 < a) (hlt : a < n) (h : Nat.gcd a n = 1) :
    ∃ x, modInverse a n = some x ∧ x < n ∧ a * x % n = 1 := by
  have hn : 1 < n := by
    rcases Nat.lt_or_ge 1 n with h1 | h1
    · exact h1
    · omega
  refine invLoop_spec hn _ _ _ _ _ (lt_two_pow_bitlen a) ⟨h0, h, ?_, ?_, ?_, le_rfl, .inl hlt.le⟩
  · rw [Nat.mul_one]
  · simp [Nat.ModEq]
  · simp

/-- `invMod a n` is the inverse of a modulo n, in [0, n), wherever there is one. -/
theorem invMod_spec {a n : Nat} (hn : 0 < n) (h : Nat.gcd a n = 1) :
    invMod a n < n ∧ a * invMod a n % n = 1 % n := by
  rcases Nat.lt_or_ge 1 n with h1 | h1
  · have hg : Nat.gcd (a % n) n = 1 := by
      rw [← Nat.gcd_rec, Nat.gcd_comm]
      exact h
    have hpos : 0 < a % n := by
      rcases Nat.eq_zero_or_pos (a % n) with h0 | h0
      · rw [h0] at hg; simp at hg; omega
      · exact h0
    obtain ⟨x, hx, hxl, hxm⟩ := modInverse_spec hpos (Nat.mod_lt _ hn) hg
    have : invMod a n = x := by simp [invMod, hx]
    rw [this, Nat.mod_eq_of_lt h1]
    exact ⟨hxl, by rw [← hxm, Nat.mod_mul_mod]⟩
  · obtain rfl : n = 1 := by omega
    simp [invMod, modInverse, invLoop, Nat.mod_one]

/-- Two inverses below n are the same. -/
theorem inverse_unique {a n x y : Nat} (hx : x < n) (hy : y < n) (hax : a * x % n = 1 % n) (hay : a * y % n = 1 % n) :
    x = y := by
  have h1 : x ≡ y [MOD n] := by
    calc x = x * 1 := (Nat.mul_one x).symm
      _ ≡ x * (a * y) [MOD n] := (Nat.ModEq.symm hay).mul_left x
      _ = (a * x) * y := by ring
      _ ≡ 1 * y [MOD n] := Nat.ModEq.mul_right y hax
      _ = y := Nat.one_mul y
  rw [Nat.ModEq, Nat.mod_eq_of_lt hx, Nat.mod_eq_of_lt hy] at h1
  exact h1

/-! ### Montgomery constants -/

theorem LimbBits.coprime_base {w : LimbBits} {M : Nat} (h : M % 2 = 1) : Nat.gcd M w.base = 1 := by
  have h2 : Nat.Coprime M 2 := Nat.coprime_two_right.mpr (Nat.odd_iff.mpr h)
  exact Nat.Coprime.pow_right _ h2

/-- R·Rinv ≡ 1 (mod M) for odd M (00_scope R18). -/
theorem montRinv_spec (w : LimbBits) (m : Nat) {M : Nat} (h : M % 2 = 1) :
    montRinv w m M < M ∧ montR w m * montRinv w m M % M = 1 % M := by
  have hg : Nat.gcd (montR w m) M = 1 := by
    rw [Nat.gcd_comm]
    exact Nat.Coprime.pow_right _ (LimbBits.coprime_base h)
  exact invMod_spec (by omega) hg

/-- mp is the limb with M·mp ≡ -1 (mod B) (00_scope R18). -/
theorem negInv_spec (w : LimbBits) {M : Nat} (h : M % 2 = 1) :
    negInv w M < w.base ∧ (M * negInv w M + 1) % w.base = 0 := by
  have hB := LimbBits.one_lt_base w
  obtain ⟨h1, h2⟩ := invMod_spec (by omega) (LimbBits.coprime_base (w := w) h)
  refine ⟨Nat.mod_lt _ (by omega), ?_⟩
  rw [Nat.mod_eq_of_lt hB] at h2
  have h3 : M * negInv w M + M * invMod M w.base ≡ 0 [MOD w.base] := by
    rw [← Nat.mul_add]
    refine Nat.ModEq.trans (Nat.ModEq.mul_left M ((Nat.mod_modEq _ _).add_right _)) ?_
    rw [Nat.sub_add_cancel h1.le]
    exact (Nat.modEq_zero_iff_dvd).mpr (Nat.dvd_mul_left _ _)
  have h4 : M * negInv w M + 1 ≡ M * negInv w M + M * invMod M w.base [MOD w.base] := by
    refine Nat.ModEq.add_left _ ?_
    rw [Nat.ModEq, h2, Nat.mod_eq_of_lt hB]
  exact (h4.trans h3)

end Sys2Proof.Machine
end

