-- ==== Sys2Proof/Laws/Memory.lean ====
section
/-! SUPPORT. Operand memory: a read after a write, what a write leaves alone, and that every memory operation keeps
the canonical form and the bounds of the address space. -/

namespace Sys2Proof.Machine

/-- Every cell of `m` is at an address below `n`. -/
abbrev Memory.Below (m : Memory) (n : Nat) : Prop := ∀ c ∈ m, c.1 < n

/-! ### One byte -/

theorem Memory.byte?_setByte_same (m : Memory) (a : Nat) (b : Byte) : (m.setByte a b).byte? a = some b := by
  induction m with
  | nil => simp [Memory.setByte, Memory.byte?]
  | cons c rest ih =>
    simp only [Memory.setByte]
    split
    · simp [Memory.byte?]
    · split
      · simp [Memory.byte?]
      · have : c.1 ≠ a := by omega
        simp [Memory.byte?, this, ih]

theorem Memory.byte?_setByte_ne (m : Memory) {a a' : Nat} (b : Byte) (h : a' ≠ a) :
    (m.setByte a b).byte? a' = m.byte? a' := by
  induction m with
  | nil => simp [Memory.setByte, Memory.byte?, h.symm]
  | cons c rest ih =>
    simp only [Memory.setByte]
    split
    · simp [Memory.byte?, h.symm]
    · split
      · rename_i _ h2
        simp [Memory.byte?, ← h2, h.symm]
      · simp [Memory.byte?, ih]

theorem Memory.mem_setByte {m : Memory} {a : Nat} {b : Byte} {c : Host.Cell} (h : c ∈ m.setByte a b) :
    c.1 = a ∨ c ∈ m := by
  induction m with
  | nil => simp [Memory.setByte] at h; simp [h]
  | cons d rest ih =>
    simp only [Memory.setByte] at h
    split at h
    · rcases List.mem_cons.mp h with h | h
      · simp [h]
      · exact .inr h
    · split at h
      · rcases List.mem_cons.mp h with h | h
        · simp [h]
        · exact .inr (List.mem_cons_of_mem _ h)
      · rcases List.mem_cons.mp h with h | h
        · simp [h]
        · rcases ih h with h | h
          · exact .inl h
          · exact .inr (List.mem_cons_of_mem _ h)

theorem Memory.setByte_wf {m : Memory} (h : m.wf) (a : Nat) (b : Byte) : (m.setByte a b).wf := by
  induction m with
  | nil => simp [Memory.setByte, Memory.wf]
  | cons c rest ih =>
    obtain ⟨hc, hr⟩ := List.pairwise_cons.mp h
    simp only [Memory.setByte]
    split
    · rename_i hlt
      refine List.pairwise_cons.mpr ⟨fun d hd => ?_, h⟩
      rcases List.mem_cons.mp hd with rfl | hd
      · exact hlt
      · exact Nat.lt_trans hlt (hc d hd)
    · split
      · rename_i _ heq
        exact List.pairwise_cons.mpr ⟨fun d hd => by simpa [heq] using hc d hd, hr⟩
      · refine List.pairwise_cons.mpr ⟨fun d hd => ?_, ih hr⟩
        rcases Memory.mem_setByte hd with h' | h'
        · omega
        · exact hc d h'

theorem Memory.setByte_below {m : Memory} {n : Nat} (h : m.Below n) {a : Nat} (ha : a < n) (b : Byte) :
    (m.setByte a b).Below n := fun c hc => by
  rcases Memory.mem_setByte hc with h' | h'
  · omega
  · exact h c h'

/-! ### Several bytes, limbs, values and window words -/

theorem Memory.byte?_writeBytes_outside (n : Nat) : ∀ (m : Memory) (a v a' : Nat), a' < a ∨ a + n ≤ a' →
    (m.writeBytes a n v).byte? a' = m.byte? a' := by
  induction n with
  | zero => intro m a v a' _; rfl
  | succ n ih =>
    intro m a v a' h
    rw [Memory.writeBytes, ih _ _ _ _ (by omega), Memory.byte?_setByte_ne _ _ (by omega)]

/-- Byte b of a stored value, least significant first. -/
theorem Memory.byte?_writeBytes_inside (n : Nat) : ∀ (m : Memory) (a v b : Nat), b < n →
    (m.writeBytes a n v).byte? (a + b) = some (BitVec.ofNat 8 (v / 256 ^ b)) := by
  induction n with
  | zero => intro m a v b h; omega
  | succ n ih =>
    intro m a v b h
    rw [Memory.writeBytes]
    cases b with
    | zero => rw [Memory.byte?_writeBytes_outside _ _ _ _ _ (by omega)]; simp [Memory.byte?_setByte_same]
    | succ b =>
      rw [show a + (b + 1) = a + 1 + b by omega, ih _ _ _ _ (by omega), Nat.div_div_eq_div_mul,
        show 256 * 256 ^ b = 256 ^ (b + 1) by rw [Nat.pow_succ, Nat.mul_comm]]

theorem Memory.writeBytes_wf (n : Nat) : ∀ (m : Memory) (a v : Nat), m.wf → (m.writeBytes a n v).wf := by
  induction n with
  | zero => intro m a v h; exact h
  | succ n ih => intro m a v h; exact ih _ _ _ (Memory.setByte_wf h _ _)

theorem Memory.writeBytes_below {k : Nat} (n : Nat) : ∀ (m : Memory) (a v : Nat), m.Below k → a + n ≤ k →
    (m.writeBytes a n v).Below k := by
  induction n with
  | zero => intro m a v h _; exact h
  | succ n ih => intro m a v h hk; exact ih _ _ _ (Memory.setByte_below h (by omega) _) (by omega)

theorem Memory.byte?_memWrite_outside (w : LimbBits) (n : Nat) : ∀ (m : Memory) (a v a' : Nat),
    a' < a * w.bytes ∨ (a + n) * w.bytes ≤ a' → (m.memWrite w a n v).byte? a' = m.byte? a' := by
  induction n with
  | zero => intro m a v a' _; rfl
  | succ n ih =>
    intro m a v a' h
    rw [Memory.memWrite, ih _ _ _ _ (by rcases h with h | h <;> simp only [Nat.add_mul] at * <;> omega), Memory.setLimb,
      Memory.byte?_writeBytes_outside _ _ _ _ _ (by rcases h with h | h <;> simp only [Nat.add_mul] at * <;> omega)]

theorem Memory.memWrite_wf (w : LimbBits) (n : Nat) : ∀ (m : Memory) (a v : Nat), m.wf → (m.memWrite w a n v).wf := by
  induction n with
  | zero => intro m a v h; exact h
  | succ n ih => intro m a v h; exact ih _ _ _ (Memory.writeBytes_wf _ _ _ _ h)

theorem Memory.memWrite_below {k : Nat} (w : LimbBits) (n : Nat) : ∀ (m : Memory) (a v : Nat), m.Below k →
    (a + n) * w.bytes ≤ k → (m.memWrite w a n v).Below k := by
  induction n with
  | zero => intro m a v h _; exact h
  | succ n ih =>
    intro m a v h hk
    refine ih _ _ _ (Memory.writeBytes_below _ _ _ _ h ?_) ?_ <;> simp only [Nat.add_mul] at * <;> omega

theorem Memory.setWord_wf {m : Memory} (h : m.wf) (k : Nat) (v : Word) : (m.setWord k v).wf :=
  Memory.writeBytes_wf _ _ _ _ h

/-! ### Undefined ranges -/

theorem Memory.byte?_undefine_inside (m : Memory) {lo n a : Nat} (h : lo ≤ a ∧ a < lo + n) :
    (m.undefine lo n).byte? a = none := by
  induction m with
  | nil => rfl
  | cons c rest ih =>
    simp only [Memory.undefine, List.filter_cons]
    split
    · rename_i hc
      have : c.1 ≠ a := by rintro rfl; simp [h.1, h.2] at hc
      rw [Memory.byte?, if_neg this]
      exact ih
    · exact ih

theorem Memory.byte?_undefine_outside (m : Memory) {lo n a : Nat} (h : a < lo ∨ lo + n ≤ a) :
    (m.undefine lo n).byte? a = m.byte? a := by
  induction m with
  | nil => rfl
  | cons c rest ih =>
    simp only [Memory.undefine, List.filter_cons]
    split
    · simp only [Memory.byte?]
      split
      · rfl
      · exact ih
    · rename_i hc
      have : c.1 ≠ a := by
        rintro rfl
        simp only [Bool.not_eq_true', Bool.not_eq_false, Bool.and_eq_true, decide_eq_true_eq] at hc
        omega
      rw [Memory.byte?, if_neg this]
      exact ih

theorem Memory.undefine_wf {m : Memory} (h : m.wf) (lo n : Nat) : (m.undefine lo n).wf := h.filter _

theorem Memory.undefine_below {m : Memory} {k : Nat} (h : m.Below k) (lo n : Nat) : (m.undefine lo n).Below k :=
  fun c hc => h c (List.mem_filter.mp hc).1

theorem Memory.undefineRange_wf {m : Memory} (h : m.wf) (w : LimbBits) (d : Word) : (m.undefineRange w d).wf :=
  Memory.undefine_wf h _ _

theorem Memory.writeDst_wf {m : Memory} (h : m.wf) (w : LimbBits) (dst : Option Word) (v : Nat) :
    (m.writeDst w dst v).wf := by
  cases dst with
  | none => exact h
  | some d => exact Memory.memWrite_wf _ _ _ _ _ h

theorem Memory.dropScratch_wf {m : Memory} (h : m.wf) (w : LimbBits) (scr : Option Word) :
    (m.dropScratch w scr).wf := by
  cases scr with
  | none => exact h
  | some d => exact Memory.undefineRange_wf h _ _

/-- A warm reset keeps the canonical form. -/
theorem State.warmMem_wf {s : State} (h : s.mem.wf) : s.warmMem.wf := by
  have key : ∀ (ds : List Word) (m : Memory), m.wf →
      (ds.foldl (fun m d => m.undefineRange s.params.limbBits d) m).wf := by
    intro ds
    induction ds with
    | nil => intro m hm; exact hm
    | cons d ds ih => intro m hm; exact ih _ (Memory.undefineRange_wf hm _ _)
  exact key _ _ h

/-- A warm reset lists no new cell. -/
theorem State.warmMem_below {s : State} {k : Nat} (h : s.mem.Below k) : s.warmMem.Below k := by
  have key : ∀ (ds : List Word) (m : Memory), m.Below k →
      (ds.foldl (fun m d => m.undefineRange s.params.limbBits d) m).Below k := by
    intro ds
    induction ds with
    | nil => intro m hm; exact hm
    | cons d ds ih => intro m hm; exact ih _ (Memory.undefine_below hm _ _)
  exact key _ _ h

/-! ### Values -/

theorem Memory.readBytes_congr (n : Nat) : ∀ (m m' : Memory) (a : Nat),
    (∀ a', a ≤ a' → a' < a + n → m.byte? a' = m'.byte? a') → m.readBytes a n = m'.readBytes a n := by
  induction n with
  | zero => intro m m' a _; rfl
  | succ n ih =>
    intro m m' a h
    simp only [Memory.readBytes]
    rw [h a (by omega) (by omega), ih m m' (a + 1) (fun a' h1 h2 => h a' (by omega) (by omega))]

/-- What was written in `n` bytes is read back. -/
theorem Memory.readBytes_writeBytes (n : Nat) : ∀ (m : Memory) (a v : Nat),
    (m.writeBytes a n v).readBytes a n = some (v % 256 ^ n) := by
  induction n with
  | zero => intro m a v; simp [Memory.readBytes, Nat.mod_one]
  | succ n ih =>
    intro m a v
    simp only [Memory.readBytes, Memory.writeBytes]
    rw [Memory.byte?_writeBytes_outside _ _ _ _ _ (by omega), Memory.byte?_setByte_same, ih]
    simp only [Option.some.injEq, BitVec.toNat_ofNat]
    have hp : 256 ^ (n + 1) = 256 * 256 ^ n := Nat.pow_succ'
    rw [hp, Nat.mod_mul]

/-- A limb reads back as what was written in it. -/
theorem Memory.limb?_setLimb_same (m : Memory) (w : LimbBits) (a v : Nat) (h : v < w.base) :
    (m.setLimb w a v).limb? w a = some v := by
  rw [Memory.limb?, Memory.setLimb, Memory.readBytes_writeBytes]
  have : 256 ^ w.bytes = w.base := by cases w <;> rfl
  rw [this, Nat.mod_eq_of_lt h]

/-- Another limb keeps its value. -/
theorem Memory.limb?_setLimb_ne (m : Memory) (w : LimbBits) {a a' : Nat} (v : Nat) (h : a' ≠ a) :
    (m.setLimb w a v).limb? w a' = m.limb? w a' := by
  refine Memory.readBytes_congr _ _ _ _ fun b h1 h2 => Memory.byte?_writeBytes_outside _ _ _ _ _ ?_
  rcases Nat.lt_or_gt_of_ne h with h | h
  · left
    have : (a' + 1) * w.bytes ≤ a * w.bytes := Nat.mul_le_mul_right _ h
    rw [Nat.add_mul] at this
    omega
  · right
    have : (a + 1) * w.bytes ≤ a' * w.bytes := Nat.mul_le_mul_right _ h
    rw [Nat.add_mul] at this
    omega

/-- MemRead has no value exactly where one of its limbs is undefined. -/
theorem Memory.memRead_none_iff {m : Memory} {w : LimbBits} {a n : Nat} :
    m.memRead w a n = none ↔ ∃ b, a ≤ b ∧ b < a + n ∧ m.limb? w b = none := by
  induction n generalizing a with
  | zero => simp only [Memory.memRead, reduceCtorEq, false_iff]; omega
  | succ n ih =>
    have e : m.memRead w a (n + 1) = none ↔ m.limb? w a = none ∨ m.memRead w (a + 1) n = none := by
      simp only [Memory.memRead]
      cases m.limb? w a <;> cases m.memRead w (a + 1) n <;> simp
    rw [e, ih]
    constructor
    · rintro (h | ⟨b, h1, h2, h3⟩)
      · exact ⟨a, by omega, by omega, h⟩
      · exact ⟨b, by omega, by omega, h3⟩
    · rintro ⟨b, h1, h2, h3⟩
      rcases Nat.eq_or_lt_of_le h1 with rfl | h1
      · exact .inl h3
      · exact .inr ⟨b, by omega, by omega, h3⟩

end Sys2Proof.Machine
end

