-- ==== Sys2Proof/Laws/State.lean ====
section
/-! SUPPORT. The fields of a state after each named update: one lemma per field and update, each true by definition. -/

namespace Sys2Proof.Machine

/-! ### `State.issue` -/

@[simp] theorem State.issue_params (s : State) (w : Word) : (s.issue w).params = s.params := rfl
@[simp] theorem State.issue_phase (s : State) (w : Word) : (s.issue w).phase = .busy := rfl
@[simp] theorem State.issue_lcmd (s : State) (w : Word) : (s.issue w).lcmd = w := rfl
@[simp] theorem State.issue_ld (s : State) (w : Word) : (s.issue w).ld = s.d := rfl
@[simp] theorem State.issue_d (s : State) (w : Word) : (s.issue w).d = s.d := rfl
@[simp] theorem State.issue_ie (s : State) (w : Word) : (s.issue w).ie = s.ie := rfl
@[simp] theorem State.issue_done (s : State) (w : Word) : (s.issue w).done = false := rfl
@[simp] theorem State.issue_ovr (s : State) (w : Word) : (s.issue w).ovr = s.ovr := rfl
@[simp] theorem State.issue_errcode (s : State) (w : Word) : (s.issue w).errcode = s.errcode := rfl
@[simp] theorem State.issue_result (s : State) (w : Word) : (s.issue w).result = s.result := rfl
@[simp] theorem State.issue_mem (s : State) (w : Word) : (s.issue w).mem = s.mem := rfl
@[simp] theorem State.issue_host (s : State) (w : Word) : (s.issue w).host = s.host := rfl
@[simp] theorem State.issue_turns (s : State) (w : Word) : (s.issue w).turns = s.turns := rfl

/-! ### `State.completeOk` -/

@[simp] theorem State.completeOk_params (s : State) (r : Done) : (s.completeOk r).params = s.params := rfl
@[simp] theorem State.completeOk_phase (s : State) (r : Done) : (s.completeOk r).phase = .idle := rfl
@[simp] theorem State.completeOk_lcmd (s : State) (r : Done) : (s.completeOk r).lcmd = s.lcmd := rfl
@[simp] theorem State.completeOk_ld (s : State) (r : Done) : (s.completeOk r).ld = s.ld := rfl
@[simp] theorem State.completeOk_d (s : State) (r : Done) : (s.completeOk r).d = s.d := rfl
@[simp] theorem State.completeOk_ie (s : State) (r : Done) : (s.completeOk r).ie = s.ie := rfl
@[simp] theorem State.completeOk_done (s : State) (r : Done) : (s.completeOk r).done = true := rfl
@[simp] theorem State.completeOk_ovr (s : State) (r : Done) : (s.completeOk r).ovr = s.ovr := rfl
@[simp] theorem State.completeOk_errcode (s : State) (r : Done) : (s.completeOk r).errcode = 0x00#8 := rfl
@[simp] theorem State.completeOk_result (s : State) (r : Done) :
    (s.completeOk r).result = BitVec.ofNat 32 r.scalar := rfl
@[simp] theorem State.completeOk_mem (s : State) (r : Done) :
    (s.completeOk r).mem = (s.mem.writeDst s.params.limbBits r.dst r.value).dropScratch s.params.limbBits r.scratch := rfl
@[simp] theorem State.completeOk_host (s : State) (r : Done) : (s.completeOk r).host = s.host := rfl
@[simp] theorem State.completeOk_turns (s : State) (r : Done) : (s.completeOk r).turns = s.turns := rfl

/-! ### `State.completeErr` -/

@[simp] theorem State.completeErr_params (s : State) (c : ErrCode) : (s.completeErr c).params = s.params := rfl
@[simp] theorem State.completeErr_phase (s : State) (c : ErrCode) : (s.completeErr c).phase = .idle := rfl
@[simp] theorem State.completeErr_lcmd (s : State) (c : ErrCode) : (s.completeErr c).lcmd = s.lcmd := rfl
@[simp] theorem State.completeErr_ld (s : State) (c : ErrCode) : (s.completeErr c).ld = s.ld := rfl
@[simp] theorem State.completeErr_d (s : State) (c : ErrCode) : (s.completeErr c).d = s.d := rfl
@[simp] theorem State.completeErr_ie (s : State) (c : ErrCode) : (s.completeErr c).ie = s.ie := rfl
@[simp] theorem State.completeErr_done (s : State) (c : ErrCode) : (s.completeErr c).done = true := rfl
@[simp] theorem State.completeErr_ovr (s : State) (c : ErrCode) : (s.completeErr c).ovr = s.ovr := rfl
@[simp] theorem State.completeErr_errcode (s : State) (c : ErrCode) : (s.completeErr c).errcode = c.code := rfl
@[simp] theorem State.completeErr_result (s : State) (c : ErrCode) : (s.completeErr c).result = s.result := rfl
@[simp] theorem State.completeErr_mem (s : State) (c : ErrCode) : (s.completeErr c).mem = s.mem := rfl
@[simp] theorem State.completeErr_host (s : State) (c : ErrCode) : (s.completeErr c).host = s.host := rfl
@[simp] theorem State.completeErr_turns (s : State) (c : ErrCode) : (s.completeErr c).turns = s.turns := rfl

/-! ### `State.writeStatus` -/

@[simp] theorem State.writeStatus_params (s : State) (v : Word) : (s.writeStatus v).params = s.params := rfl
@[simp] theorem State.writeStatus_phase (s : State) (v : Word) : (s.writeStatus v).phase = s.phase := rfl
@[simp] theorem State.writeStatus_lcmd (s : State) (v : Word) : (s.writeStatus v).lcmd = s.lcmd := rfl
@[simp] theorem State.writeStatus_ld (s : State) (v : Word) : (s.writeStatus v).ld = s.ld := rfl
@[simp] theorem State.writeStatus_d (s : State) (v : Word) : (s.writeStatus v).d = s.d := rfl
@[simp] theorem State.writeStatus_ie (s : State) (v : Word) : (s.writeStatus v).ie = s.ie := rfl
@[simp] theorem State.writeStatus_done (s : State) (v : Word) :
    (s.writeStatus v).done = (s.done && !v.getLsbD 1) := rfl
@[simp] theorem State.writeStatus_ovr (s : State) (v : Word) : (s.writeStatus v).ovr = (s.ovr && !v.getLsbD 2) := rfl
@[simp] theorem State.writeStatus_errcode (s : State) (v : Word) : (s.writeStatus v).errcode = s.errcode := rfl
@[simp] theorem State.writeStatus_result (s : State) (v : Word) : (s.writeStatus v).result = s.result := rfl
@[simp] theorem State.writeStatus_mem (s : State) (v : Word) : (s.writeStatus v).mem = s.mem := rfl
@[simp] theorem State.writeStatus_host (s : State) (v : Word) : (s.writeStatus v).host = s.host := rfl
@[simp] theorem State.writeStatus_turns (s : State) (v : Word) : (s.writeStatus v).turns = s.turns := rfl

/-! ### `State.writeCtrl` -/

@[simp] theorem State.writeCtrl_params (s : State) (v : Word) : (s.writeCtrl v).params = s.params := rfl
@[simp] theorem State.writeCtrl_phase (s : State) (v : Word) : (s.writeCtrl v).phase = s.phase := rfl
@[simp] theorem State.writeCtrl_lcmd (s : State) (v : Word) : (s.writeCtrl v).lcmd = s.lcmd := rfl
@[simp] theorem State.writeCtrl_ld (s : State) (v : Word) : (s.writeCtrl v).ld = s.ld := rfl
@[simp] theorem State.writeCtrl_d (s : State) (v : Word) : (s.writeCtrl v).d = s.d := rfl
@[simp] theorem State.writeCtrl_ie (s : State) (v : Word) : (s.writeCtrl v).ie = v.getLsbD 0 := rfl
@[simp] theorem State.writeCtrl_done (s : State) (v : Word) : (s.writeCtrl v).done = s.done := rfl
@[simp] theorem State.writeCtrl_ovr (s : State) (v : Word) : (s.writeCtrl v).ovr = s.ovr := rfl
@[simp] theorem State.writeCtrl_errcode (s : State) (v : Word) : (s.writeCtrl v).errcode = s.errcode := rfl
@[simp] theorem State.writeCtrl_result (s : State) (v : Word) : (s.writeCtrl v).result = s.result := rfl
@[simp] theorem State.writeCtrl_mem (s : State) (v : Word) : (s.writeCtrl v).mem = s.mem := rfl
@[simp] theorem State.writeCtrl_host (s : State) (v : Word) : (s.writeCtrl v).host = s.host := rfl
@[simp] theorem State.writeCtrl_turns (s : State) (v : Word) : (s.writeCtrl v).turns = s.turns := rfl

/-! ### `State.recordData` -/

@[simp] theorem State.recordData_params (s : State) (v : Option Word) : (s.recordData v).params = s.params := rfl
@[simp] theorem State.recordData_phase (s : State) (v : Option Word) : (s.recordData v).phase = s.phase := rfl
@[simp] theorem State.recordData_lcmd (s : State) (v : Option Word) : (s.recordData v).lcmd = s.lcmd := rfl
@[simp] theorem State.recordData_ld (s : State) (v : Option Word) : (s.recordData v).ld = s.ld := rfl
@[simp] theorem State.recordData_d (s : State) (v : Option Word) : (s.recordData v).d = s.d := rfl
@[simp] theorem State.recordData_ie (s : State) (v : Option Word) : (s.recordData v).ie = s.ie := rfl
@[simp] theorem State.recordData_done (s : State) (v : Option Word) : (s.recordData v).done = s.done := rfl
@[simp] theorem State.recordData_ovr (s : State) (v : Option Word) : (s.recordData v).ovr = s.ovr := rfl
@[simp] theorem State.recordData_errcode (s : State) (v : Option Word) : (s.recordData v).errcode = s.errcode := rfl
@[simp] theorem State.recordData_result (s : State) (v : Option Word) : (s.recordData v).result = s.result := rfl
@[simp] theorem State.recordData_mem (s : State) (v : Option Word) : (s.recordData v).mem = s.mem := rfl
@[simp] theorem State.recordData_host (s : State) (v : Option Word) :
    (s.recordData v).host = { s.host with data := v } := rfl
@[simp] theorem State.recordData_turns (s : State) (v : Option Word) : (s.recordData v).turns = s.turns := rfl

/-! ### `State.hostAt` -/

@[simp] theorem State.hostAt_params (s : State) (n : Nat) : (s.hostAt n).params = s.params := rfl
@[simp] theorem State.hostAt_phase (s : State) (n : Nat) : (s.hostAt n).phase = s.phase := rfl
@[simp] theorem State.hostAt_lcmd (s : State) (n : Nat) : (s.hostAt n).lcmd = s.lcmd := rfl
@[simp] theorem State.hostAt_ld (s : State) (n : Nat) : (s.hostAt n).ld = s.ld := rfl
@[simp] theorem State.hostAt_d (s : State) (n : Nat) : (s.hostAt n).d = s.d := rfl
@[simp] theorem State.hostAt_ie (s : State) (n : Nat) : (s.hostAt n).ie = s.ie := rfl
@[simp] theorem State.hostAt_done (s : State) (n : Nat) : (s.hostAt n).done = s.done := rfl
@[simp] theorem State.hostAt_ovr (s : State) (n : Nat) : (s.hostAt n).ovr = s.ovr := rfl
@[simp] theorem State.hostAt_errcode (s : State) (n : Nat) : (s.hostAt n).errcode = s.errcode := rfl
@[simp] theorem State.hostAt_result (s : State) (n : Nat) : (s.hostAt n).result = s.result := rfl
@[simp] theorem State.hostAt_mem (s : State) (n : Nat) : (s.hostAt n).mem = s.mem := rfl
@[simp] theorem State.hostAt_host (s : State) (n : Nat) : (s.hostAt n).host = { s.host with pos := n } := rfl
@[simp] theorem State.hostAt_turns (s : State) (n : Nat) : (s.hostAt n).turns = s.turns := rfl

/-! ### `State.post` and `State.unpost` -/

@[simp] theorem State.post_params (s : State) (p : PostedWrite) : (s.post p).params = s.params := rfl
@[simp] theorem State.post_phase (s : State) (p : PostedWrite) : (s.post p).phase = s.phase := rfl
@[simp] theorem State.post_lcmd (s : State) (p : PostedWrite) : (s.post p).lcmd = s.lcmd := rfl
@[simp] theorem State.post_ld (s : State) (p : PostedWrite) : (s.post p).ld = s.ld := rfl
@[simp] theorem State.post_d (s : State) (p : PostedWrite) : (s.post p).d = s.d := rfl
@[simp] theorem State.post_ie (s : State) (p : PostedWrite) : (s.post p).ie = s.ie := rfl
@[simp] theorem State.post_done (s : State) (p : PostedWrite) : (s.post p).done = s.done := rfl
@[simp] theorem State.post_ovr (s : State) (p : PostedWrite) : (s.post p).ovr = s.ovr := rfl
@[simp] theorem State.post_errcode (s : State) (p : PostedWrite) : (s.post p).errcode = s.errcode := rfl
@[simp] theorem State.post_result (s : State) (p : PostedWrite) : (s.post p).result = s.result := rfl
@[simp] theorem State.post_mem (s : State) (p : PostedWrite) : (s.post p).mem = s.mem := rfl
@[simp] theorem State.post_host (s : State) (p : PostedWrite) :
    (s.post p).host = { s.host with data := none, posted := s.host.posted ++ [p] } := rfl
@[simp] theorem State.post_turns (s : State) (p : PostedWrite) : (s.post p).turns = s.turns := rfl
@[simp] theorem State.unpost_params (s : State) (n : Nat) : (s.unpost n).params = s.params := rfl
@[simp] theorem State.unpost_phase (s : State) (n : Nat) : (s.unpost n).phase = s.phase := rfl
@[simp] theorem State.unpost_lcmd (s : State) (n : Nat) : (s.unpost n).lcmd = s.lcmd := rfl
@[simp] theorem State.unpost_ld (s : State) (n : Nat) : (s.unpost n).ld = s.ld := rfl
@[simp] theorem State.unpost_d (s : State) (n : Nat) : (s.unpost n).d = s.d := rfl
@[simp] theorem State.unpost_ie (s : State) (n : Nat) : (s.unpost n).ie = s.ie := rfl
@[simp] theorem State.unpost_done (s : State) (n : Nat) : (s.unpost n).done = s.done := rfl
@[simp] theorem State.unpost_ovr (s : State) (n : Nat) : (s.unpost n).ovr = s.ovr := rfl
@[simp] theorem State.unpost_errcode (s : State) (n : Nat) : (s.unpost n).errcode = s.errcode := rfl
@[simp] theorem State.unpost_result (s : State) (n : Nat) : (s.unpost n).result = s.result := rfl
@[simp] theorem State.unpost_mem (s : State) (n : Nat) : (s.unpost n).mem = s.mem := rfl
@[simp] theorem State.unpost_host (s : State) (n : Nat) :
    (s.unpost n).host = { s.host with posted := s.host.posted.eraseIdx n } := rfl
@[simp] theorem State.unpost_turns (s : State) (n : Nat) : (s.unpost n).turns = s.turns := rfl

/-! ### `State.pollStatus` -/

@[simp] theorem State.pollStatus_params (s : State) : s.pollStatus.params = s.params := rfl
@[simp] theorem State.pollStatus_phase (s : State) : s.pollStatus.phase = s.phase := rfl
@[simp] theorem State.pollStatus_lcmd (s : State) : s.pollStatus.lcmd = s.lcmd := rfl
@[simp] theorem State.pollStatus_ld (s : State) : s.pollStatus.ld = s.ld := rfl
@[simp] theorem State.pollStatus_d (s : State) : s.pollStatus.d = s.d := rfl
@[simp] theorem State.pollStatus_ie (s : State) : s.pollStatus.ie = s.ie := rfl
@[simp] theorem State.pollStatus_done (s : State) : s.pollStatus.done = s.done := rfl
@[simp] theorem State.pollStatus_ovr (s : State) : s.pollStatus.ovr = s.ovr := rfl
@[simp] theorem State.pollStatus_errcode (s : State) : s.pollStatus.errcode = s.errcode := rfl
@[simp] theorem State.pollStatus_result (s : State) : s.pollStatus.result = s.result := rfl
@[simp] theorem State.pollStatus_mem (s : State) : s.pollStatus.mem = s.mem := rfl
@[simp] theorem State.pollStatus_host (s : State) :
    s.pollStatus.host = { s.host with data := some s.statusWord } := rfl
@[simp] theorem State.pollStatus_turns (s : State) : s.pollStatus.turns = s.turns := rfl

/-! ### `State.takeTurn` -/

@[simp] theorem State.takeTurn_params (s : State) : s.takeTurn.params = s.params := rfl
@[simp] theorem State.takeTurn_phase (s : State) : s.takeTurn.phase = s.phase := rfl
@[simp] theorem State.takeTurn_lcmd (s : State) : s.takeTurn.lcmd = s.lcmd := rfl
@[simp] theorem State.takeTurn_ld (s : State) : s.takeTurn.ld = s.ld := rfl
@[simp] theorem State.takeTurn_d (s : State) : s.takeTurn.d = s.d := rfl
@[simp] theorem State.takeTurn_ie (s : State) : s.takeTurn.ie = s.ie := rfl
@[simp] theorem State.takeTurn_done (s : State) : s.takeTurn.done = s.done := rfl
@[simp] theorem State.takeTurn_ovr (s : State) : s.takeTurn.ovr = s.ovr := rfl
@[simp] theorem State.takeTurn_errcode (s : State) : s.takeTurn.errcode = s.errcode := rfl
@[simp] theorem State.takeTurn_result (s : State) : s.takeTurn.result = s.result := rfl
@[simp] theorem State.takeTurn_mem (s : State) : s.takeTurn.mem = s.mem := rfl
@[simp] theorem State.takeTurn_host (s : State) : s.takeTurn.host = s.host := rfl
@[simp] theorem State.takeTurn_turns (s : State) : s.takeTurn.turns = s.turns.tail := rfl

/-! ### `State.powerOnReset` -/

@[simp] theorem State.powerOnReset_params (s : State) : s.powerOnReset.params = s.params := rfl
@[simp] theorem State.powerOnReset_phase (s : State) : s.powerOnReset.phase = .idle := rfl
@[simp] theorem State.powerOnReset_lcmd (s : State) : s.powerOnReset.lcmd = 0#32 := rfl
@[simp] theorem State.powerOnReset_ld (s : State) : s.powerOnReset.ld = DFile.zero := rfl
@[simp] theorem State.powerOnReset_d (s : State) : s.powerOnReset.d = DFile.zero := rfl
@[simp] theorem State.powerOnReset_ie (s : State) : s.powerOnReset.ie = false := rfl
@[simp] theorem State.powerOnReset_done (s : State) : s.powerOnReset.done = false := rfl
@[simp] theorem State.powerOnReset_ovr (s : State) : s.powerOnReset.ovr = false := rfl
@[simp] theorem State.powerOnReset_errcode (s : State) : s.powerOnReset.errcode = 0#8 := rfl
@[simp] theorem State.powerOnReset_result (s : State) : s.powerOnReset.result = 0#32 := rfl
@[simp] theorem State.powerOnReset_mem (s : State) : s.powerOnReset.mem = [] := rfl
@[simp] theorem State.powerOnReset_host (s : State) : s.powerOnReset.host = s.host := rfl
@[simp] theorem State.powerOnReset_turns (s : State) : s.powerOnReset.turns = s.turns := rfl

/-! ### `State.warmReset` -/

@[simp] theorem State.warmReset_params (s : State) : s.warmReset.params = s.params := rfl
@[simp] theorem State.warmReset_phase (s : State) : s.warmReset.phase = .idle := rfl
@[simp] theorem State.warmReset_lcmd (s : State) : s.warmReset.lcmd = 0#32 := rfl
@[simp] theorem State.warmReset_ld (s : State) : s.warmReset.ld = DFile.zero := rfl
@[simp] theorem State.warmReset_d (s : State) : s.warmReset.d = DFile.zero := rfl
@[simp] theorem State.warmReset_ie (s : State) : s.warmReset.ie = false := rfl
@[simp] theorem State.warmReset_done (s : State) : s.warmReset.done = false := rfl
@[simp] theorem State.warmReset_ovr (s : State) : s.warmReset.ovr = false := rfl
@[simp] theorem State.warmReset_errcode (s : State) : s.warmReset.errcode = 0#8 := rfl
@[simp] theorem State.warmReset_result (s : State) : s.warmReset.result = 0#32 := rfl
@[simp] theorem State.warmReset_mem (s : State) : s.warmReset.mem = s.warmMem := rfl
@[simp] theorem State.warmReset_host (s : State) : s.warmReset.host = s.host := rfl
@[simp] theorem State.warmReset_turns (s : State) : s.warmReset.turns = s.turns := rfl

/-! ### `State.withCommand` -/

@[simp] theorem State.withCommand_params (s : State) (w : Word) : (s.withCommand w).params = s.params := rfl
@[simp] theorem State.withCommand_phase (s : State) (w : Word) : (s.withCommand w).phase = .busy := rfl
@[simp] theorem State.withCommand_lcmd (s : State) (w : Word) : (s.withCommand w).lcmd = w := rfl
@[simp] theorem State.withCommand_ld (s : State) (w : Word) : (s.withCommand w).ld = s.d := rfl
@[simp] theorem State.withCommand_d (s : State) (w : Word) : (s.withCommand w).d = s.d := rfl
@[simp] theorem State.withCommand_ie (s : State) (w : Word) : (s.withCommand w).ie = s.ie := rfl
@[simp] theorem State.withCommand_done (s : State) (w : Word) : (s.withCommand w).done = false := rfl
@[simp] theorem State.withCommand_ovr (s : State) (w : Word) : (s.withCommand w).ovr = s.ovr := rfl
@[simp] theorem State.withCommand_errcode (s : State) (w : Word) : (s.withCommand w).errcode = s.errcode := rfl
@[simp] theorem State.withCommand_result (s : State) (w : Word) : (s.withCommand w).result = s.result := rfl
@[simp] theorem State.withCommand_mem (s : State) (w : Word) : (s.withCommand w).mem = s.mem := rfl
@[simp] theorem State.withCommand_host (s : State) (w : Word) : (s.withCommand w).host = s.host := rfl
@[simp] theorem State.withCommand_turns (s : State) (w : Word) : (s.withCommand w).turns = [] := rfl

/-! ### `State.view` -/

@[simp] theorem State.view_params (s : State) : s.view.params = s.params := rfl
@[simp] theorem State.view_ld (s : State) : s.view.ld = s.ld := rfl
@[simp] theorem State.view_mem (s : State) : s.view.mem = s.mem := rfl
@[simp] theorem State.view_w (s : State) : s.view.w = s.params.limbBits := rfl
@[simp] theorem State.view_desc (s : State) (i : DIdx) : s.view.desc i = s.ld.get i := rfl

/-! ### `State.writeCmd`, which issues or sets OVR -/

theorem State.writeCmd_idle (s : State) (w : Word) (h : s.phase = .idle) : s.writeCmd w = s.issue w := by
  simp [State.writeCmd, h]

theorem State.writeCmd_busy (s : State) (w : Word) (h : s.phase = .busy) : s.writeCmd w = { s with ovr := true } := by
  simp [State.writeCmd, h]

end Sys2Proof.Machine
end

