-- ==== Sys2Proof/Laws/Bus.lean ====
section
/-! SUPPORT. The aperture: what stands at each kind of offset, what a host access answers, and what a write can
change. -/

namespace Sys2Proof.Machine

/-- A byte offset below 2 MiB survives as an aperture offset. -/
theorem offset_toNat {o : Nat} (h : o < 2 ^ 21) : (BitVec.ofNat 21 o).toNat = o := by
  rw [BitVec.toNat_ofNat, Nat.mod_eq_of_lt h]

theorem accessOk_iff {width : BusWidth} {o : BitVec 21} : accessOk width o = true ↔ width = .b32 ∧ o.toNat % 4 = 0 := by
  simp [accessOk]

/-- An allowed read answers what its target reads, and changes only the host's record. -/
theorem busAccess_read {s : State} {o : BitVec 21} (h : o.toNat % 4 = 0) :
    busAccess s (.read .b32 o) = match readTarget s (target s.params o) with
      | .ok v => .next (s.recordData (some v))
      | .error f => .fault f :=
  if_pos (accessOk_iff.mpr ⟨rfl, h⟩)

/-- An allowed write does what its target does, and empties the host's record. -/
theorem busAccess_write {s : State} {o : BitVec 21} {v : Word} (h : o.toNat % 4 = 0) :
    busAccess s (.write .b32 o v) = match writeTarget s v (target s.params o) with
      | .ok t => .next (t.recordData none)
      | .error f => .fault f :=
  congrArg (fun r : Except Fault State => (match r with
    | .ok t => .next (t.recordData none)
    | .error f => .fault f : Host.Outcome State Fault Refusal)) (if_pos (accessOk_iff.mpr ⟨rfl, h⟩))

theorem LimbBits.words_eq (w : LimbBits) : w.words = w.bits / 32 := by cases w <;> rfl

theorem LimbBits.bytes_eq (w : LimbBits) : w.bytes = 4 * w.words := by cases w <;> rfl

/-- The implemented window lies in the aperture (20_memory R82). -/
theorem window_fits {p : Params} (h : p.Legal) {k : Nat} (hk : k < Params.windowWords p) : 0x100000 + 4 * k < 2 ^ 21 := by
  have h1 : Params.windowWords p ≤ 65536 * 2 := Nat.mul_le_mul h.2.1 (by cases p.limbBits <;> decide)
  omega

/-- Word k of the window (20_memory R82). -/
theorem target_opmem {p : Params} (h : p.Legal) {k : Nat} (hk : k < Params.windowWords p) :
    target p (BitVec.ofNat 21 (0x100000 + 4 * k)) = .opmem k := by
  have e : (0x100000 + 4 * k - 0x100000) / 4 = k := by omega
  simp only [target, offset_toNat (window_fits h hk), e]
  split_ifs <;> first | omega | rfl

/-- Register Dk (10_state R31). -/
theorem target_desc (p : Params) (k : DIdx) : target p (BitVec.ofNat 21 (0x020 + 4 * k.toNat)) = .desc k := by
  have hk : k.toNat < 8 := k.isLt
  have e : BitVec.ofNat 3 ((0x020 + 4 * k.toNat - 0x020) / 4) = k := by
    rw [show (0x020 + 4 * k.toNat - 0x020) / 4 = k.toNat by omega, BitVec.ofNat_toNat, BitVec.setWidth_eq]
  simp only [target, offset_toNat (show 0x020 + 4 * k.toNat < 2 ^ 21 by omega), e]
  split_ifs <;> first | omega | rfl

/-- The reserved offsets (10_state R32, 20_memory R82). -/
theorem target_reserved {p : Params} {o : Nat} (h : o < 2 ^ 21) (h4 : o % 4 = 0)
    (hr : o = 0x01C ∨ (0x040 ≤ o ∧ o ≤ 0x0FFFFF) ∨ 0x100000 + 4 * Params.windowWords p ≤ o) :
    target p (BitVec.ofNat 21 o) = .reserved := by
  simp only [target, offset_toNat h]
  split_ifs <;> first | omega | rfl

/-- No offset below the window is a window word. -/
theorem target_ne_opmem {p : Params} {o : Nat} (h : o < 0x100000) (k : Nat) :
    target p (BitVec.ofNat 21 o) ≠ .opmem k := by
  simp only [target, offset_toNat (show o < 2 ^ 21 by omega)]
  split_ifs <;> first | omega | simp

/-- A window word the target map names is implemented. -/
theorem target_opmem_lt {p : Params} {o : BitVec 21} {k : Nat} (h : target p o = .opmem k) : k < Params.windowWords p := by
  simp only [target] at h
  split_ifs at h with _ _ _ _ _ _ _ _ h9
  simp only [Target.opmem.injEq] at h
  omega

/-- A completed read changed only the host's record (20_memory R88). -/
theorem busAccess_read_next {s t : State} {width : BusWidth} {o : BitVec 21}
    (h : busAccess s (.read width o) = .next t) : ∃ v, t = s.recordData (some v) := by
  unfold busAccess at h
  dsimp only at h
  split at h
  · split at h
    · exact ⟨_, by simpa using h.symm⟩
    · simp at h
  · simp at h

/-- What a write of an existing target can do to the block, one case for each kind of register. -/
theorem writeTarget_ok {s t : State} {v : Word} {g : Target} (h : writeTarget s v g = .ok t) :
    t = s ∨ t = s.writeCtrl v ∨ t = s.writeStatus v ∨ t = s.writeCmd v
      ∨ (∃ i, g = .desc i ∧ t = { s with d := s.d.set i v })
      ∨ ∃ k, g = .opmem k ∧ s.phase = .idle ∧ t = { s with mem := s.mem.setWord k v } := by
  cases g with
  | opmem k =>
    cases hp : s.phase with
    | busy => simp [writeTarget, hp] at h
    | idle => simp [writeTarget, hp] at h; simp [← h]
  | ctrl | status | cmd | id | cfg | result | memSize | reserved | desc =>
    simp only [writeTarget, Except.ok.injEq] at h
    simp [← h]

/-- A write changes neither the host nor the parameters. -/
theorem writeTarget_host {s t : State} {v : Word} {g : Target} (h : writeTarget s v g = .ok t) :
    t.host = s.host ∧ t.params = s.params := by
  rcases writeTarget_ok h with rfl | rfl | rfl | rfl | ⟨_, _, rfl⟩ | ⟨_, _, _, rfl⟩
  case inr.inr.inr.inl => cases hp : s.phase <;> simp [State.writeCmd, hp]
  all_goals simp

/-- A write the block performed did what its target does. -/
theorem busWrite_ok {s t : State} {width : BusWidth} {o : BitVec 21} {v : Word} (h : busWrite s width o v = .ok t) :
    writeTarget s v (target s.params o) = .ok t := by
  unfold busWrite at h
  split at h
  · exact h
  · cases h

/-- A completed write did what its target does, and then emptied the host's record. -/
theorem busAccess_write_next {s t : State} {width : BusWidth} {o : BitVec 21} {v : Word}
    (h : busAccess s (.write width o v) = .next t) :
    ∃ u, writeTarget s v (target s.params o) = .ok u ∧ t = u.recordData none := by
  unfold busAccess at h
  dsimp only at h
  split at h
  · exact ⟨_, busWrite_ok ‹_›, by simpa using h.symm⟩
  · simp at h

/-- An access the block performs changes of the host only its record of the data, and no parameter. -/
theorem busAccess_host {s t : State} {a : BusAccess} (h : busAccess s a = .next t) :
    (∃ v, t.host = { s.host with data := v }) ∧ t.params = s.params := by
  cases a with
  | read w o => obtain ⟨v, rfl⟩ := busAccess_read_next h; exact ⟨⟨_, rfl⟩, rfl⟩
  | write w o v =>
    obtain ⟨u, hu, rfl⟩ := busAccess_write_next h
    have hh := writeTarget_host hu
    exact ⟨⟨none, by simp [hh.1]⟩, hh.2⟩

end Sys2Proof.Machine
end

