-- ==== Sys2Proof/Laws/Ops.lean ====
section
/-! SUPPORT. What each shared operation can do, said once: completion, the checks, LoadCtx, the template, and every
command's computation when it succeeds. -/

namespace Sys2Proof.Machine

/-! ### The computation monad -/

/-- A sequenced computation that succeeds: both parts do. -/
theorem bind_ok_iff {α β : Type} {x : Except Stop α} {f : α → Except Stop β} {b : β} :
    (x >>= f) = .ok b ↔ ∃ a, x = .ok a ∧ f a = .ok b := by
  cases x with
  | ok a => simp [bind, Except.bind]
  | error e => simp [bind, Except.bind]

@[simp] theorem ok_bind {α β : Type} (a : α) (f : α → Except Stop β) : (Except.ok a >>= f) = f a := rfl

@[simp] theorem error_bind {α β : Type} (e : Stop) (f : α → Except Stop β) :
    ((Except.error e : Except Stop α) >>= f) = .error e := rfl

@[simp] theorem require_true (c : ErrCode) : require true c = .ok () := rfl

@[simp] theorem require_false (c : ErrCode) : require false c = .error (.err c) := rfl

theorem require_ok_iff {b : Bool} {c : ErrCode} {u : Unit} : require b c = .ok u ↔ b = true := by
  cases b <;> simp

theorem defined_ok_iff {o : Option Nat} {x : Nat} : defined o = .ok x ↔ o = some x := by
  cases o <;> simp [defined]

@[simp] theorem defined_some (x : Nat) : defined (some x) = .ok x := rfl

@[simp] theorem defined_none : defined none = .error (.fault .uninitRead) := rfl

/-! ### Completion -/

@[simp] theorem complete_ok (s : State) (d : Done) : complete s (.ok d) = .next (s.completeOk d) := rfl

@[simp] theorem complete_err (s : State) (c : ErrCode) : complete s (.error (.err c)) = .next (s.completeErr c) := rfl

@[simp] theorem complete_fault (s : State) (f : Fault) : complete s (.error (.fault f)) = .fault f := rfl

/-- A command that answers a next state either succeeded or raised an error code. -/
theorem complete_next {s t : State} {r : Except Stop Done} (h : complete s r = .next t) :
    (∃ d, r = .ok d ∧ t = s.completeOk d) ∨ ∃ c, r = .error (.err c) ∧ t = s.completeErr c := by
  match r, h with
  | .ok d, h => exact .inl ⟨d, rfl, by simpa using h.symm⟩
  | .error (.err c), h => exact .inr ⟨c, rfl, by simpa using h.symm⟩

/-- No command is refused. -/
theorem complete_not_refused (s : State) (r : Except Stop Done) (q : Refusal) : complete s r ≠ .refused q := by
  match r with
  | .ok _ => simp
  | .error (.err _) => simp
  | .error (.fault _) => simp

/-! ### The checks on roles -/

theorem allInBounds_iff (p : Params) (roles : List Role) : allInBounds p roles = true ↔ AllInBounds p roles := by
  simp [allInBounds, inBounds, AllInBounds]

theorem rangesOverlap_iff (d e : Word) : rangesOverlap d e = false ↔ RangesDisjoint d e := by
  simp only [rangesOverlap, decide_eq_false_iff_not, Nat.not_lt, RangesDisjoint]
  omega

theorem writtenOverlap_iff (roles : List Role) : writtenOverlap roles = false ↔ NoOverlap roles := by
  induction roles with
  | nil => simp [writtenOverlap]
  | cons r rest ih =>
    simp only [writtenOverlap, Bool.or_eq_false_iff, ih, NoOverlap, List.pairwise_cons, List.any_eq_false]
    refine and_congr_left fun _ => forall₂_congr fun q _ => ?_
    rw [← rangesOverlap_iff]
    cases r.written <;> cases q.written <;> simp

theorem checkRoles_ok_iff {p : Params} {roles : List Role} {u : Unit} :
    checkRoles p roles = .ok u ↔ RolesOk p roles := by
  simp only [checkRoles, bind_ok_iff, require_ok_iff, allInBounds_iff, Bool.not_eq_true', writtenOverlap_iff]
  simp [RolesOk]

theorem checkRoles_bounds {p : Params} {roles : List Role} (h : ¬ AllInBounds p roles) :
    checkRoles p roles = .error (.err .bounds) := by
  rw [← allInBounds_iff, Bool.not_eq_true] at h
  simp [checkRoles, h]

theorem checkRoles_overlap {p : Params} {roles : List Role} (h : AllInBounds p roles) (h2 : ¬ NoOverlap roles) :
    checkRoles p roles = .error (.err .overlap) := by
  rw [← allInBounds_iff] at h
  rw [← writtenOverlap_iff, Bool.not_eq_false] at h2
  simp [checkRoles, h, h2]

/-! ### LoadCtx -/

/-- The model's consistency check is 30_encoding R122's. -/
theorem consistent_iff {w : LimbBits} {c : Ctx} : c.consistent w = true ↔ c.Consistent w := by
  have hb : w.base = 2 ^ w.bits := rfl
  simp only [Ctx.consistent, Ctx.Consistent, Bool.and_eq_true, beq_iff_eq, montR, hb, and_assoc]
  refine and_congr_right fun hodd => and_congr_right fun _ => and_congr_right fun _ => ?_
  rw [← and_assoc (a := c.mp < 2 ^ w.bits)]
  refine and_congr_left fun _ => ?_
  obtain ⟨h1, h2⟩ := negInv_spec w hodd
  rw [hb] at h1 h2
  constructor
  · rintro h; rw [h]; exact ⟨h1, h2⟩
  · rintro ⟨h3, h4⟩
    have h5 : c.modulus * c.mp ≡ c.modulus * negInv w c.modulus [MOD 2 ^ w.bits] :=
      Nat.ModEq.add_right_cancel' 1 (show _ % _ = _ % _ by rw [h4, h2])
    have h6 : Nat.gcd (2 ^ w.bits) c.modulus = 1 := by
      rw [Nat.gcd_comm]; exact LimbBits.coprime_base hodd
    have h7 := Nat.ModEq.cancel_left_of_coprime h6 h5
    rwa [Nat.ModEq, Nat.mod_eq_of_lt h3, Nat.mod_eq_of_lt h1] at h7

theorem checked_ok_iff {w : LimbBits} {c c' : Ctx} : Ctx.checked w c = .ok c' ↔ c.Consistent w ∧ c = c' := by
  rw [← consistent_iff]
  unfold Ctx.checked
  cases c.consistent w <;> simp

/-- LoadCtx succeeds with exactly the consistent context the descriptor names. -/
theorem loadCtx_ok_iff {s : State} {d : Word} {c : Ctx} : loadCtx s.view d = .ok c ↔ s.CtxAt d c := by
  simp only [loadCtx, bind_ok_iff, require_ok_iff, View.limb, View.read, defined_ok_iff, Bool.and_eq_true,
    decide_eq_true_eq, beq_iff_eq, bne_iff_ne, ne_eq, checked_ok_iff]
  constructor
  · rintro ⟨_, h1, tag, h2, _, rfl, m, h3, _, ⟨⟨h4, h5⟩, h6⟩, mbits, h7, mp, h8, M, h9, rm, h10, r2, h11, h12, rfl⟩
    exact ⟨⟨h1, h2, h3, Nat.one_le_iff_ne_zero.mpr h4, h5, h6⟩, ⟨h7, h8, h9, h10, h11⟩, h12⟩
  · rintro ⟨⟨h1, h2, h3, h4, h5, h6⟩, ⟨h7, h8, h9, h10, h11⟩, h12⟩
    exact ⟨(), h1, _, h2, (), rfl, _, h3, (), ⟨⟨Nat.one_le_iff_ne_zero.mp h4, h5⟩, h6⟩, _, h7, _, h8, _, h9, _, h10,
      _, h11, h12, rfl⟩

theorem limb_eq {s : State} {a x : Nat} (h : s.LimbIs a x) : s.view.limb a = .ok x := defined_ok_iff.mpr h

theorem loadCtx_tag {s : State} {d : Word} (h : s.CtxTagBad d) : loadCtx s.view d = .error (.err .tag) := by
  by_cases hl : 4 ≤ descLen d
  · rcases h with h | ⟨x, h, hx⟩
    · omega
    · have hx' : (x == Config.tag) = false := by simp only [beq_eq_false_iff_ne]; exact hx
      simp only [loadCtx, hl, decide_true, require_true, ok_bind, limb_eq h, hx', require_false, error_bind]
  · simp [loadCtx, hl]

theorem loadCtx_size {s : State} {d : Word} (h : s.CtxSizeBad d) : loadCtx s.view d = .error (.err .ctx) := by
  obtain ⟨hl, ht, m, hm, hbad⟩ := h
  have ht' : ((0x4D4F4E54 : Nat) == Config.tag) = true := rfl
  have hb : (m != 0 && decide (m ≤ s.view.params.maxModLimbs) && decide (needCtx m ≤ descLen d)) = false := by
    rw [Bool.eq_false_iff]
    intro h
    simp only [Bool.and_eq_true, decide_eq_true_eq, bne_iff_ne] at h
    have h2 : m ≤ s.params.maxModLimbs := h.1.2
    have h3 : 4 + 3 * m ≤ descLen d := h.2
    omega
  simp only [loadCtx, hl, decide_true, require_true, ok_bind, limb_eq ht, limb_eq hm, ht', hb, require_false,
    error_bind]

/-- Behind a header that passes, LoadCtx reads the rest of the context and checks it. -/
theorem loadCtx_header {s : State} {d : Word} {m : Nat} (h : s.CtxHeaderIs d m) :
    loadCtx s.view d =
      (s.view.limb (descAddr d + 2) >>= fun mbits =>
        s.view.limb (descAddr d + 3) >>= fun mp =>
          s.view.read (descAddr d + 4) m >>= fun modulus =>
            s.view.read (descAddr d + 4 + m) m >>= fun rm =>
              s.view.read (descAddr d + 4 + 2 * m) m >>= fun r2 =>
                Ctx.checked s.params.limbBits ⟨m, mbits, mp, modulus, rm, r2⟩) := by
  obtain ⟨h1, h2, h3, h4, h5, h6⟩ := h
  have ht : ((0x4D4F4E54 : Nat) == Config.tag) = true := rfl
  have hm : (m != 0 && decide (m ≤ s.view.params.maxModLimbs) && decide (needCtx m ≤ descLen d)) = true := by
    simp only [Bool.and_eq_true, decide_eq_true_eq, bne_iff_ne]
    exact ⟨⟨Nat.one_le_iff_ne_zero.mp h4, h5⟩, h6⟩
  simp only [loadCtx, h1, decide_true, require_true, ok_bind, limb_eq h2, limb_eq h3, ht, hm]
  rfl

theorem limb_none {s : State} {a : Nat} (h : s.mem.limb? s.params.limbBits a = none) :
    s.view.limb a = .error (.fault .uninitRead) := congrArg defined h

/-- A read of a range with an undefined limb is UninitRead (40_common R159). -/
theorem read_none {s : State} {a n b : Nat} (h1 : a ≤ b) (h2 : b < a + n)
    (h : s.mem.limb? s.params.limbBits b = none) : s.view.read a n = .error (.fault .uninitRead) :=
  congrArg defined (Memory.memRead_none_iff.mpr ⟨b, h1, h2, h⟩)

theorem val_none {s : State} {i : DIdx} (h : s.ValUndefined i) : s.view.val (s.ld.get i) = .error (.fault .uninitRead) := by
  obtain ⟨b, ⟨h1, h2⟩, h⟩ := h
  exact read_none h1 h2 h

theorem defined_cases (o : Option Nat) : (∃ x, defined o = .ok x) ∨ defined o = .error (.fault .uninitRead) := by
  cases o <;> simp

/-- LoadCtx of a context with an undefined limb it comes to is UninitRead (60_exceptions R311). -/
theorem loadCtx_undefined {s : State} {d : Word} (h : s.CtxUndefined d) :
    loadCtx s.view d = .error (.fault .uninitRead) := by
  have ht : ((0x4D4F4E54 : Nat) == Config.tag) = true := rfl
  obtain ⟨hl, h | ⟨h2, h⟩ | ⟨m, k, hm, hk2, hk, h⟩⟩ := h
  · simp only [loadCtx, hl, decide_true, require_true, ok_bind, limb_none h, error_bind]
  · simp only [loadCtx, hl, decide_true, require_true, ok_bind, limb_eq h2, ht, limb_none h, error_bind]
  · rw [loadCtx_header hm]
    by_cases e2 : k = 2
    · subst e2; rw [limb_none h, error_bind]
    rcases defined_cases (s.mem.limb? s.params.limbBits (descAddr d + 2)) with ⟨_, e⟩ | e <;>
      rw [show s.view.limb (descAddr d + 2) = _ from e]
    swap; · rfl
    rw [ok_bind]
    by_cases e3 : k = 3
    · subst e3; rw [limb_none h, error_bind]
    rcases defined_cases (s.mem.limb? s.params.limbBits (descAddr d + 3)) with ⟨_, e⟩ | e <;>
      rw [show s.view.limb (descAddr d + 3) = _ from e]
    swap; · rfl
    rw [ok_bind]
    by_cases e4 : k < 4 + m
    · rw [read_none (b := descAddr d + k) (by omega) (by omega) h, error_bind]
    rcases defined_cases (s.mem.memRead s.params.limbBits (descAddr d + 4) m) with ⟨_, e⟩ | e <;>
      rw [show s.view.read (descAddr d + 4) m = _ from e]
    swap; · rfl
    rw [ok_bind]
    by_cases e5 : k < 4 + 2 * m
    · rw [read_none (b := descAddr d + k) (by omega) (by omega) h, error_bind]
    rcases defined_cases (s.mem.memRead s.params.limbBits (descAddr d + 4 + m) m) with ⟨_, e⟩ | e <;>
      rw [show s.view.read (descAddr d + 4 + m) m = _ from e]
    swap; · rfl
    rw [ok_bind, read_none (b := descAddr d + k) (by omega) (by omega) h, error_bind]

/-- LoadCtx of a context with every limb defined that is not consistent is CtxInconsistent (40_common R156). -/
theorem loadCtx_inconsistent {s : State} {d : Word} {c : Ctx} (h : s.CtxHeaderIs d c.m) (h2 : s.CtxBodyIs d c)
    (h3 : ¬ c.Consistent s.params.limbBits) : loadCtx s.view d = .error (.fault .ctxInconsistent) := by
  obtain ⟨b1, b2, b3, b4, b5⟩ := h2
  have e : ∀ {a n x : Nat}, s.ReadIs a n x → s.view.read a n = .ok x := fun h => defined_ok_iff.mpr h
  have hc : c.consistent s.params.limbBits = false := by
    rw [Bool.eq_false_iff]
    exact fun h => h3 (consistent_iff.mp h)
  rw [loadCtx_header h, limb_eq b1, ok_bind, limb_eq b2, ok_bind, e b3, ok_bind, e b4, ok_bind, e b5, ok_bind]
  simp only [Ctx.checked, hc]

/-! ### The template -/

/-- The template succeeds with exactly the context of a ready template situation. -/
theorem modTemplate_ok_iff {s : State} {rd rc : DIdx} {srcs : List DIdx} {scr : Option DIdx} {need : Nat → Nat}
    {c : Ctx} : modTemplate s.view rd srcs rc scr need = .ok c ↔ s.TemplateReady ⟨rd, srcs, rc, scr⟩ c (need c.m) := by
  simp only [modTemplate, bind_ok_iff, require_ok_iff, checkRoles_ok_iff, loadCtx_ok_iff, Option.all_eq_true,
    decide_eq_true_eq]
  constructor
  · rintro ⟨_, h1, c', h2, _, h3, _, h4, h5⟩
    simp only [Except.ok.injEq] at h5
    subst h5
    exact ⟨h1, h2, h3, h4⟩
  · rintro ⟨h1, h2, h3, h4⟩
    exact ⟨(), h1, c, h2, (), h3, (), h4, rfl⟩

/-! ### Where the template stops -/

/-- The template in the terms of Safety.lean. -/
theorem modTemplate_eq (s : State) (t : Template) (need : Nat → Nat) :
    modTemplate s.view t.rd t.srcs t.rc t.scr need =
      (checkRoles s.params (s.templateRoles t) >>= fun _ =>
        loadCtx s.view (s.ld.get t.rc) >>= fun c =>
          require (t.scr.all (fun rs => need c.m ≤ descLen (s.ld.get rs))) .scratch >>= fun _ =>
            require (c.m ≤ descLen (s.ld.get t.rd)) .room >>= fun _ => .ok c) := rfl

theorem modTemplate_bounds {s : State} {t : Template} {need : Nat → Nat}
    (h : ¬ AllInBounds s.params (s.templateRoles t)) :
    modTemplate s.view t.rd t.srcs t.rc t.scr need = .error (.err .bounds) := by
  rw [modTemplate_eq, checkRoles_bounds h, error_bind]

theorem modTemplate_overlap {s : State} {t : Template} {need : Nat → Nat}
    (h : AllInBounds s.params (s.templateRoles t)) (h2 : ¬ NoOverlap (s.templateRoles t)) :
    modTemplate s.view t.rd t.srcs t.rc t.scr need = .error (.err .overlap) := by
  rw [modTemplate_eq, checkRoles_overlap h h2, error_bind]

/-- With the roles in order, a template that does not load its context ends as LoadCtx does. -/
theorem modTemplate_loadCtx {s : State} {t : Template} {need : Nat → Nat} {e : Stop}
    (h : RolesOk s.params (s.templateRoles t)) (h2 : loadCtx s.view (s.ld.get t.rc) = .error e) :
    modTemplate s.view t.rd t.srcs t.rc t.scr need = .error e := by
  rw [modTemplate_eq, checkRoles_ok_iff (u := ()).mpr h, ok_bind, h2, error_bind]

theorem modTemplate_scratch {s : State} {t : Template} {need : Nat → Nat} {c : Ctx} {rs : DIdx}
    (h : RolesOk s.params (s.templateRoles t)) (h2 : s.CtxAt (s.ld.get t.rc) c) (h3 : rs ∈ t.scr)
    (h4 : descLen (s.ld.get rs) < need c.m) :
    modTemplate s.view t.rd t.srcs t.rc t.scr need = .error (.err .scratch) := by
  have h5 : t.scr.all (fun i => decide (need c.m ≤ descLen (s.ld.get i))) = false := by
    rw [Option.mem_def.mp h3]
    exact decide_eq_false (Nat.not_le.mpr h4)
  rw [modTemplate_eq, checkRoles_ok_iff (u := ()).mpr h, ok_bind, loadCtx_ok_iff.mpr h2, ok_bind, h5, require_false,
    error_bind]

theorem modTemplate_room {s : State} {t : Template} {need : Nat → Nat} {c : Ctx}
    (h : RolesOk s.params (s.templateRoles t)) (h2 : s.CtxAt (s.ld.get t.rc) c)
    (h3 : ∀ rs ∈ t.scr, need c.m ≤ descLen (s.ld.get rs)) (h4 : descLen (s.ld.get t.rd) < c.m) :
    modTemplate s.view t.rd t.srcs t.rc t.scr need = .error (.err .room) := by
  have h5 : t.scr.all (fun i => decide (need c.m ≤ descLen (s.ld.get i))) = true := by
    simp only [Option.all_eq_true, decide_eq_true_eq]
    exact h3
  rw [modTemplate_eq, checkRoles_ok_iff (u := ()).mpr h, ok_bind, loadCtx_ok_iff.mpr h2, ok_bind, h5, require_true,
    ok_bind, decide_eq_false (Nat.not_le.mpr h4), require_false, error_bind]

/-! ### Every command's computation -/

/-- What a successful command writes: its destination is a written field in bounds (BUFSZ has none), and its scratch, if
any, is a written field. -/
structure WritesOk (i : Instr) (s : State) (d : Done) : Prop where
  dst : ∀ w, d.dst = some w → w ∈ (writtenFields i).map s.ld.get ∧ descAddr w + descLen w ≤ s.params.memLimbs
  scratch : ∀ w, d.scratch = some w → w ∈ (writtenFields i).map s.ld.get

theorem modUnary_ok {s : State} {rd ra rc : DIdx} {bound : Ctx → Nat} {f : Ctx → Nat → Nat} {d : Done}
    (h : modUnary s.view rd ra rc bound f = .ok d) :
    ∃ c a, s.TemplateReady ⟨rd, [ra], rc, none⟩ c 0 ∧ s.ValIs ra a ∧ a < bound c ∧ d = s.view.finish rd (f c a) := by
  simp only [modUnary, View.srcBelow, bind_ok_iff, require_ok_iff, decide_eq_true_eq, View.val, View.read,
    defined_ok_iff, modTemplate_ok_iff] at h
  obtain ⟨c, h1, a, ⟨a', h2, _, h3, h4⟩, h5⟩ := h
  simp only [Except.ok.injEq] at h4 h5
  subst h4
  exact ⟨c, a', h1, h2, h3, h5.symm⟩

theorem modBinary_ok {s : State} {rd ra rb rc : DIdx} {f : Ctx → Nat → Nat → Nat} {d : Done}
    (h : modBinary s.view rd ra rb rc f = .ok d) :
    ∃ c a b, s.TemplateReady ⟨rd, [ra, rb], rc, none⟩ c 0 ∧ s.ValIs ra a ∧ s.ValIs rb b
      ∧ a < c.modulus ∧ b < c.modulus ∧ d = s.view.finish rd (f c a b) := by
  simp only [modBinary, bind_ok_iff, require_ok_iff, Bool.and_eq_true, decide_eq_true_eq, View.val, View.read,
    defined_ok_iff, modTemplate_ok_iff] at h
  obtain ⟨c, h1, a, h2, b, h3, _, ⟨h4, h5⟩, h6⟩ := h
  simp only [Except.ok.injEq] at h6
  exact ⟨c, a, b, h1, h2, h3, h4, h5, h6.symm⟩

theorem expCmd_ok {s : State} {rd ra rb rc rs : DIdx} {need : Nat → Nat} {d : Done}
    (h : expCmd s.view rd ra rb rc rs need = .ok d) :
    ∃ c x e, s.TemplateReady ⟨rd, [ra, rb], rc, some rs⟩ c (need c.m) ∧ s.ValIs ra x ∧ s.ValIs rb e ∧ x < c.modulus
      ∧ d = { dst := some (s.ld.get rd), value := expMont s.params.limbBits c x e
              scalar := nlen s.params.limbBits (expMont s.params.limbBits c x e), scratch := some (s.ld.get rs) } := by
  simp only [expCmd, View.srcBelow, bind_ok_iff, require_ok_iff, decide_eq_true_eq, View.val, View.read,
    defined_ok_iff, modTemplate_ok_iff] at h
  obtain ⟨c, h1, x, ⟨x', h2, _, h3, h4⟩, e, h5, h6⟩ := h
  simp only [Except.ok.injEq] at h4 h6
  subst h4
  exact ⟨c, x', e, h1, h2, h5, h3, h6.symm⟩

/-- The destination of a template command is in bounds. -/
theorem State.TemplateReady.dstInBounds {s : State} {t : Template} {c : Ctx} {need : Nat}
    (h : s.TemplateReady t c need) : descAddr (s.ld.get t.rd) + descLen (s.ld.get t.rd) ≤ s.params.memLimbs :=
  h.1.1 (s.writtenRole t.rd) (List.mem_cons_self ..)

theorem WritesOk.ofFinish {i : Instr} {s : State} {rd : DIdx} (hrd : rd ∈ writtenFields i)
    (hb : descAddr (s.ld.get rd) + descLen (s.ld.get rd) ≤ s.params.memLimbs) (r : Nat) :
    WritesOk i s (s.view.finish rd r) where
  dst w hw := by
    simp only [View.finish, Option.some.injEq] at hw
    subst hw
    exact ⟨List.mem_map_of_mem hrd, hb⟩
  scratch w hw := by simp [View.finish] at hw

theorem WritesOk.ofModUnary {i : Instr} {s : State} {rd ra rc : DIdx} {bound : Ctx → Nat} {f : Ctx → Nat → Nat}
    {d : Done} (hrd : rd ∈ writtenFields i) (h : modUnary s.view rd ra rc bound f = .ok d) : WritesOk i s d := by
  obtain ⟨c, a, h1, -, -, rfl⟩ := modUnary_ok h
  exact .ofFinish hrd h1.dstInBounds _

theorem WritesOk.ofModBinary {i : Instr} {s : State} {rd ra rb rc : DIdx} {f : Ctx → Nat → Nat → Nat} {d : Done}
    (hrd : rd ∈ writtenFields i) (h : modBinary s.view rd ra rb rc f = .ok d) : WritesOk i s d := by
  obtain ⟨c, a, b, h1, -, -, -, -, rfl⟩ := modBinary_ok h
  exact .ofFinish hrd h1.dstInBounds _

theorem WritesOk.ofExp {i : Instr} {s : State} {rd ra rb rc rs : DIdx} {need : Nat → Nat} {d : Done}
    (hrd : rd ∈ writtenFields i) (hrs : rs ∈ writtenFields i) (h : expCmd s.view rd ra rb rc rs need = .ok d) :
    WritesOk i s d := by
  obtain ⟨c, x, e, h1, -, -, -, rfl⟩ := expCmd_ok h
  refine ⟨(WritesOk.ofFinish hrd h1.dstInBounds 0).dst, fun w hw => ?_⟩
  simp only [Option.some.injEq] at hw
  subst hw
  exact List.mem_map_of_mem hrs

theorem WritesOk.ofMsetup {s : State} {rd ra : DIdx} {d : Done} (h : msetupCmd s.view rd ra = .ok d) :
    WritesOk (.msetup rd ra) s d := by
  simp only [msetupCmd, bind_ok_iff, require_ok_iff, checkRoles_ok_iff] at h
  obtain ⟨_, h1, M, _, _, _, _, _, _, _, h2⟩ := h
  simp only [Except.ok.injEq] at h2
  subst h2
  refine ⟨fun w hw => ?_, fun w hw => by simp at hw⟩
  simp only [Option.some.injEq] at hw
  subst hw
  exact ⟨List.mem_map_of_mem (List.mem_cons_self ..), h1.1 (s.writtenRole rd) (List.mem_cons_self ..)⟩

theorem WritesOk.ofBufsz {s : State} {ra rb : DIdx} {sel : BufSel} {win : BitVec 3} {d : Done}
    (h : bufszCmd s.view ra rb sel win = .ok d) : WritesOk (.bufsz ra rb sel win) s d := by
  simp only [bufszCmd, bind_ok_iff] at h
  obtain ⟨_, _, _, _, h2⟩ := h
  simp only [Except.ok.injEq] at h2
  subst h2
  exact ⟨fun w hw => by simp at hw, fun w hw => by simp at hw⟩

theorem WritesOk.ofGcd {s : State} {rd ra rb : DIdx} {d : Done} (h : gcdCmd s.view rd ra rb = .ok d) :
    WritesOk (.gcd rd ra rb) s d := by
  simp only [gcdCmd, bind_ok_iff, require_ok_iff, checkRoles_ok_iff] at h
  obtain ⟨_, h1, _, _, _, _, _, _, _, _, h2⟩ := h
  simp only [Except.ok.injEq] at h2
  subst h2
  exact .ofFinish (List.mem_cons_self ..) (h1.1 (s.writtenRole rd) (List.mem_cons_self ..)) _

theorem WritesOk.ofMinv {s : State} {rd ra rb : DIdx} {d : Done} (h : minvCmd s.view rd ra rb = .ok d) :
    WritesOk (.minv rd ra rb) s d := by
  simp only [minvCmd, bind_ok_iff, require_ok_iff, checkRoles_ok_iff] at h
  obtain ⟨_, h1, _, _, _, _, _, _, _, _, _, _, h2⟩ := h
  simp only [Except.ok.injEq] at h2
  subst h2
  exact .ofFinish (List.mem_cons_self ..) (h1.1 (s.writtenRole rd) (List.mem_cons_self ..)) _

theorem WritesOk.ofCrtrec {s : State} {rd ra rb rc rx ry : DIdx} {d : Done}
    (h : crtrecCmd s.view rd ra rb rc rx ry = .ok d) : WritesOk (.crtrec rd ra rb rc rx ry) s d := by
  simp only [crtrecCmd, bind_ok_iff, require_ok_iff, checkRoles_ok_iff] at h
  obtain ⟨_, h1, _, _, _, _, _, _, _, _, _, _, _, _, _, _, h2⟩ := h
  simp only [Except.ok.injEq] at h2
  subst h2
  exact .ofFinish (List.mem_cons_self ..) (h1.1 (s.writtenRole rd) (List.mem_cons_self ..)) _

/-- Every command's computation, one for each constructor: `exec` completes it. -/
theorem exec_eq_complete (i : Instr) (s : State) :
    ∃ r, exec i s = complete s r ∧ ∀ d, r = .ok d → WritesOk i s d := by
  cases i with
  | msetup rd ra => exact ⟨_, rfl, fun _ h => .ofMsetup h⟩
  | bufsz ra rb sel win => exact ⟨_, rfl, fun _ h => .ofBufsz h⟩
  | menc rd ra rc => exact ⟨_, rfl, fun _ h => .ofModUnary (List.mem_cons_self ..) h⟩
  | mdec rd ra rc => exact ⟨_, rfl, fun _ h => .ofModUnary (List.mem_cons_self ..) h⟩
  | mmul rd ra rb rc => exact ⟨_, rfl, fun _ h => .ofModBinary (List.mem_cons_self ..) h⟩
  | msqr rd ra rc => exact ⟨_, rfl, fun _ h => .ofModUnary (List.mem_cons_self ..) h⟩
  | mred rd ra rc => exact ⟨_, rfl, fun _ h => .ofModUnary (List.mem_cons_self ..) h⟩
  | madd rd ra rb rc => exact ⟨_, rfl, fun _ h => .ofModBinary (List.mem_cons_self ..) h⟩
  | msub rd ra rb rc => exact ⟨_, rfl, fun _ h => .ofModBinary (List.mem_cons_self ..) h⟩
  | mneg rd ra rc => exact ⟨_, rfl, fun _ h => .ofModUnary (List.mem_cons_self ..) h⟩
  | mhalf rd ra rc => exact ⟨_, rfl, fun _ h => .ofModUnary (List.mem_cons_self ..) h⟩
  | mdbl rd ra rc => exact ⟨_, rfl, fun _ h => .ofModUnary (List.mem_cons_self ..) h⟩
  | mtpl rd ra rc => exact ⟨_, rfl, fun _ h => .ofModUnary (List.mem_cons_self ..) h⟩
  | expbin rd ra rb rc rs =>
    exact ⟨_, rfl, fun _ h => .ofExp (List.mem_cons_self ..) (List.mem_cons_of_mem _ (List.mem_cons_self ..)) h⟩
  | expct rd ra rb rc rs =>
    exact ⟨_, rfl, fun _ h => .ofExp (List.mem_cons_self ..) (List.mem_cons_of_mem _ (List.mem_cons_self ..)) h⟩
  | expwin rd ra rb rc rs win =>
    refine ⟨_, rfl, fun _ h => ?_⟩
    simp only [expwinCmd, bind_ok_iff] at h
    obtain ⟨_, _, h⟩ := h
    exact .ofExp (List.mem_cons_self ..) (List.mem_cons_of_mem _ (List.mem_cons_self ..)) h
  | gcd rd ra rb => exact ⟨_, rfl, fun _ h => .ofGcd h⟩
  | minv rd ra rb => exact ⟨_, rfl, fun _ h => .ofMinv h⟩
  | crtrec rd ra rb rc rx ry => exact ⟨_, rfl, fun _ h => .ofCrtrec h⟩

/-- A command that answers a next state either completed with a result in its written ranges, or with an error code. -/
theorem exec_next {i : Instr} {s t : State} (h : exec i s = .next t) :
    (∃ d, WritesOk i s d ∧ t = s.completeOk d) ∨ ∃ c, t = s.completeErr c := by
  obtain ⟨r, hr, hw⟩ := exec_eq_complete i s
  rw [hr] at h
  rcases complete_next h with ⟨d, hd, rfl⟩ | ⟨c, -, rfl⟩
  · exact .inl ⟨d, hw d hd, rfl⟩
  · exact .inr ⟨c, rfl⟩

/-- No instruction is refused. -/
theorem exec_not_refused (i : Instr) (s : State) (q : Refusal) : exec i s ≠ .refused q := by
  obtain ⟨r, hr, -⟩ := exec_eq_complete i s
  rw [hr]
  exact complete_not_refused s r q

end Sys2Proof.Machine
end

