-- ==== Sys2Proof/Laws/PerInstr.lean ====
section
/-! SUPPORT. The families of statements about a command as syntax, one lemma for each constructor. -/

namespace Sys2Proof.Laws

/-- The word of a command has the command's opcode in bits [7:0], and the opcode has a row of the opcode map
(30_encoding R111, R120). -/
def OpcodeByte.Statement (i : Instr) : Prop :=
  opOf (encode i) = i.opcode ∧ ∃ row ∈ opTable, row.op = i.opcode

/-- OP is the lowest byte of a word put together from its fields. -/
theorem opOf_wordOf (op : Byte) (f : Fields) : opOf (wordOf op f) = op := by
  apply BitVec.eq_of_toNat_eq
  simp only [opOf, wordOf, BitVec.extractLsb'_toNat, BitVec.toNat_append, Nat.shiftRight_zero]
  rw [Nat.or_mod_two_pow, Nat.shiftLeft_eq, Nat.mul_mod_left, Nat.zero_or, Nat.mod_eq_of_lt op.isLt]

theorem OpcodeByte.msetup (rd ra : DIdx) : OpcodeByte.Statement (.msetup rd ra) :=
  ⟨opOf_wordOf _ _, opTable[0], by simp [opTable], rfl⟩

theorem OpcodeByte.bufsz (ra rb : DIdx) (sel : BufSel) (win : BitVec 3) : OpcodeByte.Statement (.bufsz ra rb sel win) :=
  ⟨opOf_wordOf _ _, opTable[1], by simp [opTable], rfl⟩

theorem OpcodeByte.menc (rd ra rc : DIdx) : OpcodeByte.Statement (.menc rd ra rc) :=
  ⟨opOf_wordOf _ _, opTable[2], by simp [opTable], rfl⟩

theorem OpcodeByte.mdec (rd ra rc : DIdx) : OpcodeByte.Statement (.mdec rd ra rc) :=
  ⟨opOf_wordOf _ _, opTable[3], by simp [opTable], rfl⟩

theorem OpcodeByte.mmul (rd ra rb rc : DIdx) : OpcodeByte.Statement (.mmul rd ra rb rc) :=
  ⟨opOf_wordOf _ _, opTable[4], by simp [opTable], rfl⟩

theorem OpcodeByte.msqr (rd ra rc : DIdx) : OpcodeByte.Statement (.msqr rd ra rc) :=
  ⟨opOf_wordOf _ _, opTable[5], by simp [opTable], rfl⟩

theorem OpcodeByte.mred (rd ra rc : DIdx) : OpcodeByte.Statement (.mred rd ra rc) :=
  ⟨opOf_wordOf _ _, opTable[6], by simp [opTable], rfl⟩

theorem OpcodeByte.madd (rd ra rb rc : DIdx) : OpcodeByte.Statement (.madd rd ra rb rc) :=
  ⟨opOf_wordOf _ _, opTable[7], by simp [opTable], rfl⟩

theorem OpcodeByte.msub (rd ra rb rc : DIdx) : OpcodeByte.Statement (.msub rd ra rb rc) :=
  ⟨opOf_wordOf _ _, opTable[8], by simp [opTable], rfl⟩

theorem OpcodeByte.mneg (rd ra rc : DIdx) : OpcodeByte.Statement (.mneg rd ra rc) :=
  ⟨opOf_wordOf _ _, opTable[9], by simp [opTable], rfl⟩

theorem OpcodeByte.mhalf (rd ra rc : DIdx) : OpcodeByte.Statement (.mhalf rd ra rc) :=
  ⟨opOf_wordOf _ _, opTable[10], by simp [opTable], rfl⟩

theorem OpcodeByte.mdbl (rd ra rc : DIdx) : OpcodeByte.Statement (.mdbl rd ra rc) :=
  ⟨opOf_wordOf _ _, opTable[11], by simp [opTable], rfl⟩

theorem OpcodeByte.mtpl (rd ra rc : DIdx) : OpcodeByte.Statement (.mtpl rd ra rc) :=
  ⟨opOf_wordOf _ _, opTable[12], by simp [opTable], rfl⟩

theorem OpcodeByte.expbin (rd ra rb rc rs : DIdx) : OpcodeByte.Statement (.expbin rd ra rb rc rs) :=
  ⟨opOf_wordOf _ _, opTable[13], by simp [opTable], rfl⟩

theorem OpcodeByte.expct (rd ra rb rc rs : DIdx) : OpcodeByte.Statement (.expct rd ra rb rc rs) :=
  ⟨opOf_wordOf _ _, opTable[14], by simp [opTable], rfl⟩

theorem OpcodeByte.expwin (rd ra rb rc rs : DIdx) (win : BitVec 3) : OpcodeByte.Statement (.expwin rd ra rb rc rs win) :=
  ⟨opOf_wordOf _ _, opTable[15], by simp [opTable], rfl⟩

theorem OpcodeByte.gcd (rd ra rb : DIdx) : OpcodeByte.Statement (.gcd rd ra rb) :=
  ⟨opOf_wordOf _ _, opTable[16], by simp [opTable], rfl⟩

theorem OpcodeByte.minv (rd ra rb : DIdx) : OpcodeByte.Statement (.minv rd ra rb) :=
  ⟨opOf_wordOf _ _, opTable[17], by simp [opTable], rfl⟩

theorem OpcodeByte.crtrec (rd ra rb rc rx ry : DIdx) : OpcodeByte.Statement (.crtrec rd ra rb rc rx ry) :=
  ⟨opOf_wordOf _ _, opTable[18], by simp [opTable], rfl⟩

end Sys2Proof.Laws
end

