-- ==== Sys2Proof/Laws/Step.lean ====
section
/-! SUPPORT. Everything one step can do, one case for each kind of event. -/

namespace Sys2Proof.Machine

/-- The engine's step on a BUSY machine that does not fault: a command, or the error of a word that is none. -/
theorem engineStep_next {s t : State} (h : engineStep s = .next t) :
    (s.phase = .idle ∧ t = s)
      ∨ (s.phase = .busy ∧ ∃ i, decode s.lcmd = .ok i ∧ exec i s = .next t)
      ∨ (s.phase = .busy ∧ ∃ e, decode s.lcmd = .error e ∧ t = s.completeErr (DecodeError.errCode e)) := by
  unfold engineStep at h
  split at h
  · exact .inl ⟨‹_›, by simpa using h.symm⟩
  · split at h
    · exact .inr (.inl ⟨‹_›, _, ‹_›, h⟩)
    · exact .inr (.inr ⟨‹_›, _, ‹_›, by simpa using h.symm⟩)

/-- The engine never refuses. -/
theorem engineStep_not_refused (s : State) (q : Refusal) : engineStep s ≠ .refused q := by
  unfold engineStep
  split
  · simp
  · split
    · exact exec_not_refused _ _ _
    · simp

/-- An access of the host that does not fault: the block performs it, or the bus, which keeps no order, takes a write. -/
theorem hostAccess_next {s t : State} {a : BusAccess} (h : hostAccess s a = .next t) :
    busAccess s a = .next t ∨ (s.host.busOrdered = false ∧ ∃ p, t = s.post p) := by
  cases a with
  | read w o => exact .inl h
  | write w o v =>
    simp only [hostAccess] at h
    split at h
    · exact .inl h
    · exact .inr ⟨eq_false_of_ne_true ‹_›, _, by simpa using h.symm⟩

/-- On a bus that keeps order the block performs each access of the host at once (20_memory R91, R92). -/
theorem hostAccess_ordered {s : State} (h : s.host.busOrdered = true) (a : BusAccess) :
    hostAccess s a = busAccess s a := by
  cases a <;> simp [hostAccess, h]

/-- An arrival that does not fault: no such write, or the block performs it. -/
theorem arrive_next {s t : State} {n : Nat} (h : arrive s n = .next t) :
    t = s ∨ ∃ p, s.host.posted[n]? = some p ∧ busWrite (s.unpost n) p.width p.offset p.value = .ok t := by
  unfold arrive at h
  split at h
  · exact .inl (by simpa using h.symm)
  · split at h
    · exact .inr ⟨_, ‹_›, by simp_all⟩
    · cases h

/-- A change of the host alone that leaves HOST_BUS_ORDERED as it is, and on a bus that keeps order the writes on it. -/
abbrev SameBus (g h : HostAgent) : Prop := g.busOrdered = h.busOrdered ∧ (h.busOrdered = true → g.posted = h.posted)

/-- One host operation that does not fault: a bus access from the next position, or a change of the host alone. -/
theorem hostOp_next {s t : State} {op : HostOp} (h : hostOp s op = .next t) :
    (∃ a n, op = .access a ∧ busAccess (s.hostAt n) a = .next t)
      ∨ ∃ g, t = { s with host := g } ∧ SameBus g s.host := by
  cases op with
  | access a =>
    rcases hostAccess_next h with h | ⟨ho, p, rfl⟩
    · exact .inl ⟨a, _, rfl, h⟩
    · exact .inr ⟨_, rfl, rfl, fun ht => by simp_all⟩
  | wait | chk | jerr =>
    simp only [hostOp, Host.Outcome.next.injEq] at h
    exact .inr ⟨_, h.symm, rfl, fun _ => rfl⟩

/-- Every step that does not fault, from the state with its turn taken: nothing, a command, the error of a word that is
none, a reset, a bus access, the arrival of a posted write, or a change of the host alone. -/
theorem step_next {s t : State} (h : step s = .next t) :
    t = s.takeTurn
      ∨ (s.phase = .busy ∧ ∃ i, decode s.lcmd = .ok i ∧ exec i s.takeTurn = .next t)
      ∨ (s.phase = .busy ∧ ∃ c, t = s.takeTurn.completeErr c)
      ∨ t = s.takeTurn.powerOnReset ∨ t = s.takeTurn.warmReset
      ∨ (∃ a n, busAccess (s.takeTurn.hostAt n) a = .next t)
      ∨ (∃ n p, s.host.posted[n]? = some p
          ∧ busWrite (s.takeTurn.unpost n) p.width p.offset p.value = .ok t)
      ∨ ∃ g, t = { s.takeTurn with host := g } ∧ SameBus g s.host := by
  unfold step at h
  generalize s.nextTurn = turn at h
  cases turn with
  | host =>
    simp only [runTurn, hostStep] at h
    split at h
    · exact .inl (by simpa using h.symm)
    · rcases hostOp_next h with ⟨a, n, -, h⟩ | h
      · exact .inr (.inr (.inr (.inr (.inr (.inl ⟨a, n, h⟩)))))
      · exact .inr (.inr (.inr (.inr (.inr (.inr (.inr h))))))
  | engine =>
    rcases engineStep_next h with ⟨-, h⟩ | ⟨hp, i, hd, h⟩ | ⟨hp, e, -, h⟩
    · exact .inl h
    · exact .inr (.inl ⟨hp, i, hd, h⟩)
    · exact .inr (.inr (.inl ⟨hp, _, h⟩))
  | arrive n =>
    rcases arrive_next h with rfl | ⟨p, hp, h⟩
    · exact .inl rfl
    · exact .inr (.inr (.inr (.inr (.inr (.inr (.inl ⟨n, p, hp, h⟩))))))
  | powerOn => exact .inr (.inr (.inr (.inl (by simpa [runTurn] using h.symm))))
  | warmReset => exact .inr (.inr (.inr (.inr (.inl (by simpa [runTurn] using h.symm)))))

end Sys2Proof.Machine
end

