-- ==== Sys2Proof/Tests/Slice0.lean ====
section
/-! SUPPORT. Small tests with expected values from spec/95_test_vectors.md (the vector's number stands in each comment)
and from 30_encoding R111 and R127, and for every statement with hypotheses the states and operands that meet them. -/

open Sys2Proof Sys2Proof.Machine Sys2Proof.Claims

namespace Sys2Proof.Tests

/-! ## Ill-formed terms and words -/

/-- R115: WIN = 7 is reserved, for BUFSZ too. -/
theorem test_bufsz_win_seven_ill_formed : (Instr.bufsz 0 4 .win 7).wellFormed = false := by decide

/-- R119: WIN must be 0 unless the selector is WIN. -/
theorem test_bufsz_win_without_selector_ill_formed : (Instr.bufsz 0 4 .bin 1).wellFormed = false := by decide

/-- R115. -/
theorem test_expwin_win_seven_ill_formed : (Instr.expwin 4 1 2 3 5 7).wellFormed = false := by decide

/-- E1, E2, E3: reserved opcodes. -/
theorem test_reserved_opcodes_refused : decode 0x00000000#32 = .error .opcode ∧ decode 0x000000FF#32 = .error .opcode
    ∧ decode 0xFFFFFF15#32 = .error .opcode := ⟨rfl, rfl, rfl⟩

/-- E4, E5, E6, E11: unused fields. -/
theorem test_unused_fields_refused : decode 0x00004101#32 = .error .field ∧ decode 0x00004010#32 = .error .field
    ∧ decode 0x00020030#32 = .error .field ∧ decode 0x00800012#32 = .error .field := ⟨rfl, rfl, rfl, rfl⟩

/-- E7 to E10: reserved WIN and selector values. -/
theorem test_reserved_values_refused : decode 0xE0568C22#32 = .error .field ∧ decode 0x10000002#32 = .error .field
    ∧ decode 0x20000002#32 = .error .field ∧ decode 0xE8000002#32 = .error .field := ⟨rfl, rfl, rfl, rfl⟩

/-! ## One word for every constructor -/

/-- E16. -/
theorem test_decode_msetup : decode 0x00000101#32 = .ok (.msetup 1 0) := rfl
/-- E18. -/
theorem test_decode_bufsz : decode 0xA8010002#32 = .ok (.bufsz 0 4 .win 5) := rfl
/-- Section 2.3. -/
theorem test_decode_menc : decode 0x00021A10#32 = .ok (.menc 2 3 1) := rfl
/-- Section 2.3. -/
theorem test_decode_mdec : decode 0x00021A11#32 = .ok (.mdec 2 3 1) := rfl
/-- E12. -/
theorem test_decode_mmul : decode 0x00068812#32 = .ok (.mmul 0 1 2 3) := rfl
/-- E22. -/
theorem test_decode_msqr : decode 0x00060A13#32 = .ok (.msqr 2 1 3) := rfl
/-- Section 2.3. -/
theorem test_decode_mred : decode 0x00021A14#32 = .ok (.mred 2 3 1) := rfl
/-- Section 2.6. -/
theorem test_decode_madd : decode 0x00031A18#32 = .ok (.madd 2 3 4 1) := rfl
/-- Section 2.6. -/
theorem test_decode_msub : decode 0x00031A19#32 = .ok (.msub 2 3 4 1) := rfl
/-- E23. -/
theorem test_decode_mneg : decode 0x00060A1A#32 = .ok (.mneg 2 1 3) := rfl
/-- Section 2.6. -/
theorem test_decode_mhalf : decode 0x00021A1B#32 = .ok (.mhalf 2 3 1) := rfl
/-- Section 2.6. -/
theorem test_decode_mdbl : decode 0x00021A1C#32 = .ok (.mdbl 2 3 1) := rfl
/-- Section 2.6. -/
theorem test_decode_mtpl : decode 0x00021A1D#32 = .ok (.mtpl 2 3 1) := rfl
/-- P1 line 19. -/
theorem test_decode_expbin : decode 0x00631D20#32 = .ok (.expbin 5 3 4 1 6) := rfl
/-- P1 line 26. -/
theorem test_decode_expct : decode 0x00632B21#32 = .ok (.expct 3 5 4 1 6) := rfl
/-- E13. -/
theorem test_decode_expwin : decode 0x80568C22#32 = .ok (.expwin 4 1 2 3 5 4) := rfl
/-- E20. -/
theorem test_decode_gcd : decode 0x00004230#32 = .ok (.gcd 2 0 1) := rfl
/-- E21. -/
theorem test_decode_minv : decode 0x00004231#32 = .ok (.minv 2 0 1) := rfl
/-- E14: six different operands. -/
theorem test_decode_crtrec : decode 0x16068840#32 = .ok (.crtrec 0 1 2 3 4 5) := rfl

/-- 30_encoding R125: a line of assembler text. -/
theorem test_asm_text : asmText (.expwin 4 1 2 3 5 0) = "EXPWIN D4, D1, D2, D3, D5, auto" := by decide

/-! ## States -/

/-- `ls` in the limbs from `a` on. -/
def put (m : Memory) (w : LimbBits) : Nat → List Nat → Memory
  | _, [] => m
  | a, l :: rest => put (m.setLimb w a l) w (a + 1) rest

/-- D0 = (0, 1), D1 = (8, 7) and the rest as given. -/
def files (d2 d3 d4 d5 : Word) : DFile := ⟨0x00010000, 0x00070008, d2, d3, d4, d5, 0, 0⟩

/-- A machine with these descriptors in D and in LD, IDLE after a completed MSETUP (RESULT 7, DONE). -/
def machine (p : Params) (f : DFile) (m : Memory) : State :=
  { State.resetWith p with d := f, ld := f, mem := m, done := true, result := 7#32 }

/-- The memory of context K (section 2, the S1 row): the modulus in limb 0 and its context in limbs 8 to 14. -/
def memK : Memory := put (put [] .w32 0 [3233]) .w32 8 [0x4D4F4E54, 1, 12, 0x669F289F, 3233, 1155, 2029]

/-- Context K as LoadCtx gives it. -/
def ctxK : Ctx := ⟨1, 12, 0x669F289F, 3233, 1155, 2029⟩

/-- Context K, D2 = (20, 1), D3 = (1, 1) with a in limb 1, D4 = (2, 1) with b in limb 2. -/
def kTwo (a b : Nat) : State :=
  machine Config.defaultParams (files 0x00010014 0x00010001 0x00010002 0) (put memK .w32 1 [a, b])

/-- Context K for an exponentiation: X in limb 1, e in limb 3, scratch D5 = (40, s) with its first limb defined. -/
def kExp (x e s : Nat) : State :=
  machine Config.defaultParams (files 0x00010014 0x00010001 0x00010003 (mkDesc 40 s))
    (put (put (put memK .w32 1 [x]) .w32 3 [e]) .w32 40 [5])

/-- GCD and MINV: D2 = (20, r), D3 = (4, 1) with a, D4 = (5, 1) with b. -/
def gTwo (r a b : Nat) : State :=
  machine Config.defaultParams (files (mkDesc 20 r) 0x00010004 0x00010005 0) (put [] .w32 4 [a, b])

/-- Section 2.10: contexts of 61 at 8 and 53 at 16, D5 = (32, 1), D6 = (33, 1), D3 = (5, 1), D4 = (34, 2). -/
def crt (xp xq qinv : Nat) (m : Memory) : State :=
  machine Config.defaultParams
    ⟨0x00070008, 0x00070010, 0, 0x00010005, 0x00020022, 0x00010020, 0x00010021, 0⟩
    (put (put m .w32 5 [qinv]) .w32 32 [xp, xq])

/-- Both contexts of section 2.10 (vectors S3 and S4). -/
def memPQ : Memory :=
  put (put [] .w32 8 [0x4D4F4E54, 1, 6, 0x3EF368EB, 61, 57, 16]) .w32 16 [0x4D4F4E54, 1, 6, 0x73ECADE3, 53, 42, 15]

/-- The contexts of 61 and 53. -/
def ctxP : Ctx := ⟨1, 6, 0x3EF368EB, 61, 57, 16⟩
def ctxQ : Ctx := ⟨1, 6, 0x73ECADE3, 53, 42, 15⟩

/-- A machine ready for MSETUP D1, D0: the modulus limb 0, D0 = (0, 1), D1 = (8, `room`). -/
def setup (modulus room : Nat) : State :=
  machine Config.defaultParams ⟨0x00010000, mkDesc 8 room, 0, 0, 0, 0, 0, 0⟩ (put [] .w32 0 [modulus])

/-- A machine for BUFSZ: D0 = (0, m), D4 = (0, n). -/
def sizes (m n : Nat) : State := machine Config.defaultParams ⟨mkDesc 0 m, 0, 0, 0, mkDesc 0 n, 0, 0, 0⟩ []

/-- STATUS, RESULT and the value of `n` limbs from `a` on, after an outcome that is a next state. -/
def after (o : Host.Outcome State Fault Refusal) (a n : Nat) : Option (Word × Word × Option Nat) :=
  match o with
  | .next t => some (t.statusWord, t.result, t.mem.memRead t.params.limbBits a n)
  | _ => none

/-- The fault of an outcome, if it is one. -/
def faultOf (o : Host.Outcome State Fault Refusal) : Option Fault :=
  match o with
  | .fault f => some f
  | _ => none

/-- One step that runs a command word. -/
def run (s : State) (w : Nat) : Host.Outcome State Fault Refusal := step (s.withFetchWord 32 w)

/-! ## One step of each command -/

/-- S1: the whole context, in one number of seven limbs. -/
theorem test_msetup_context : after (run (setup 3233 7) 0x00000101) 8 7
    = some (0x2#32, 7#32, some (ofLimbs .w32 [0x4D4F4E54, 1, 12, 0x669F289F, 3233, 1155, 2029])) := by decide

/-- S12: the parity check comes before the room check. -/
theorem test_msetup_even_before_room : after (run (setup 3234 6) 0x00000101) 8 1 = some (0x90A#32, 7#32, none) := by
  decide

/-- B8: EBITS = 64 gives w = 2. -/
theorem test_bufsz_win_auto : after (run (sizes 1 2) 0x08010002) 0 0 = some (0x2#32, 19#32, some 0) := by decide

/-- B17: m = 65 > MAX_MOD_LIMBS. -/
theorem test_bufsz_range : after (run (sizes 65 1) 0x04010002) 0 0 = some (0xA0A#32, 7#32, some 0) := by decide

/-- M3. -/
theorem test_menc : after (run (kTwo 3232 0) 0x00021A10) 20 1 = some (0x2#32, 1#32, some 2078) := by decide

/-- M4. -/
theorem test_menc_range : after (run (kTwo 3233 0) 0x00021A10) 20 1 = some (0xA0A#32, 7#32, none) := by decide

/-- M2. -/
theorem test_mdec : after (run (kTwo 716 0) 0x00021A11) 20 1 = some (0x2#32, 1#32, some 65) := by decide

/-- M5. -/
theorem test_mmul : after (run (kTwo 716 716) 0x00031A12) 20 1 = some (0x2#32, 1#32, some 1278) := by decide

/-- M11: the range check of the second source. -/
theorem test_mmul_range : after (run (kTwo 716 3233) 0x00031A12) 20 1 = some (0xA0A#32, 7#32, none) := by decide

/-- M7. -/
theorem test_msqr : after (run (kTwo 716 0) 0x00021A13) 20 1 = some (0x2#32, 1#32, some 1278) := by decide

/-- The state of the MRED rows: T in limbs 1 and 2, D3 = (1, 2). -/
def kRed (t0 t1 : Nat) : State :=
  { kTwo t0 t1 with d := files 0x00010014 0x00020001 0 0, ld := files 0x00010014 0x00020001 0 0 }

/-- M14: the largest legal T. -/
theorem test_mred : after (run (kRed 0xFFFFFFFF 3232) 0x00021A14) 20 1 = some (0x2#32, 1#32, some 1937) := by decide

/-- M15: T = M R. -/
theorem test_mred_range : after (run (kRed 0 3233) 0x00021A14) 20 1 = some (0xA0A#32, 7#32, none) := by decide

/-- A1. -/
theorem test_madd : after (run (kTwo 3000 1000) 0x00031A18) 20 1 = some (0x2#32, 1#32, some 767) := by decide

/-- A3: a borrow. -/
theorem test_msub : after (run (kTwo 5 7) 0x00031A19) 20 1 = some (0x2#32, 1#32, some 3231) := by decide

/-- A7: 0, not M. -/
theorem test_mneg_zero : after (run (kTwo 0 0) 0x00021A1A) 20 1 = some (0x2#32, 1#32, some 0) := by decide

/-- A8. -/
theorem test_mneg : after (run (kTwo 1 0) 0x00021A1A) 20 1 = some (0x2#32, 1#32, some 3232) := by decide

/-- A9. -/
theorem test_mhalf : after (run (kTwo 1 0) 0x00021A1B) 20 1 = some (0x2#32, 1#32, some 1617) := by decide

/-- A12. -/
theorem test_mdbl : after (run (kTwo 3000 0) 0x00021A1C) 20 1 = some (0x2#32, 1#32, some 2767) := by decide

/-- A15. -/
theorem test_mtpl : after (run (kTwo 3232 0) 0x00021A1D) 20 1 = some (0x2#32, 1#32, some 3230) := by decide

/-- X1. -/
theorem test_expbin : after (run (kExp 716 17 3) 0x00531A20) 20 1 = some (0x2#32, 1#32, some 2382) := by decide

/-- X1: the scratch limb 40 is undefined afterwards (R233). -/
theorem test_expbin_scratch : after (run (kExp 716 17 3) 0x00531A20) 40 1 = some (0x2#32, 1#32, none) := by decide

/-- X5: e = 0 comes before X = 0. -/
theorem test_expct_zero : after (run (kExp 0 0 4) 0x00531A21) 20 1 = some (0x2#32, 1#32, some 1155) := by decide

/-- X17: one limb less than 4m. -/
theorem test_expct_scratch : after (run (kExp 716 17 3) 0x00531A21) 20 1 = some (0x70A#32, 7#32, none) := by decide

/-- X12: w = 5 needs 35 limbs. -/
theorem test_expwin : after (run (kExp 716 17 35) 0xA0531A22) 20 1 = some (0x2#32, 1#32, some 2382) := by decide

/-- X18. -/
theorem test_expwin_scratch : after (run (kExp 716 17 18) 0x80531A22) 20 1 = some (0x70A#32, 7#32, none) := by decide

/-- G5: the room above nlen is zero. -/
theorem test_gcd : after (run (gTwo 3 61 3233) 0x00011A30) 20 3 = some (0x2#32, 1#32, some 61) := by decide

/-- G9: the zero check comes before the room check. -/
theorem test_gcd_zero : after (run (gTwo 0 0 0) 0x0000DA30) 20 1 = some (0xB0A#32, 7#32, none) := by decide

/-- V1. -/
theorem test_minv : after (run (gTwo 1 53 61) 0x00011A31) 20 1 = some (0x2#32, 1#32, some 38) := by decide

/-- V11: the range check comes before the coprimality check. -/
theorem test_minv_range : after (run (gTwo 1 9 6) 0x00011A31) 20 1 = some (0xA0A#32, 7#32, none) := by decide

/-- C2: qInv is not checked. -/
theorem test_crtrec : after (run (crt 4 12 1 memPQ) 0x0C81AC40) 34 2 = some (0x2#32, 1#32, some 2821) := by decide

/-- C8: the tag of the Q context. -/
theorem test_crtrec_tag : after (run (crt 4 12 38 (put memPQ .w32 16 [0])) 0x0C81AC40) 34 1 = some (0x50A#32, 7#32, none)
    := by decide

/-- E3 and E4: the codes of words that are no command. -/
theorem test_no_command : after (run (setup 3233 7) 0xFFFFFF15) 8 1 = some (0x10A#32, 7#32, none)
    ∧ after (run (setup 3233 7) 0x00004101) 8 1 = some (0x20A#32, 7#32, none) := by decide

/-! ## The handshake, faults and reset -/

/-- H6: an issued MENC in the state after H5 (ERR_ROOM with DONE cleared). -/
def issued : State := { kTwo 716 0 with done := false, errcode := 0x08#8 }.issue 0x00021A10#32

/-- H6. -/
theorem test_issue_keeps_errcode : issued.statusWord = 0x00000809#32 := by decide

/-- H7: a CMD write while BUSY sets OVR and is discarded. -/
theorem test_cmd_write_while_busy : after (hostWrite issued 0x010 0x00000101#32) 20 1 = some (0x80D#32, 7#32, none) := by
  decide

/-- H15: a warm reset leaves the abandoned destination undefined and the other limbs as they were. -/
theorem test_warm_reset : after (step { issued with mem := put issued.mem .w32 20 [9], turns := [.warmReset] }) 20 1
    = some (0#32, 0#32, none)
  ∧ after (step { issued with turns := [.warmReset] }) 1 1 = some (0#32, 0#32, some 716) := by decide

/-! ### The host bus (20_memory R91, R92) -/

/-- A host about to write 9 to OPMEM word 100 and then issue MENC, on a bus that keeps order or not. -/
def hostWrites (ordered : Bool) (turns : List Turn) : State :=
  { kTwo 65 0 with
    host := { HostAgent.empty with prog := [busWrite32 0x100190 9#32] ++ issueOps 0x00021A10#32, busOrdered := ordered }
    turns := turns }

/-- With HOST_BUS_ORDERED the first write is at the block after its host turn, and the second issues. -/
theorem test_ordered_bus : after (core.run 2 (hostWrites true [.host, .host])) 100 1 = some (0x1#32, 7#32, some 9) := by decide

/-- Without it a write is only posted, and a posted OPMEM write that the CMD write passes meets a BUSY engine: the order
R92 asks the host for is not kept. -/
theorem test_unordered_bus :
    after (core.run 2 (hostWrites false [.host, .host])) 100 1 = some (0x2#32, 7#32, none)
    ∧ after (core.run 4 (hostWrites false [.host, .host, .arrive 0, .arrive 0])) 100 1 = some (0x1#32, 7#32, some 9)
    ∧ faultOf (core.run 4 (hostWrites false [.host, .host, .arrive 1, .arrive 0])) = some .hostHazard := by decide

/-- F3: RM changed to 1154. -/
theorem test_ctx_inconsistent :
    faultOf (run { kTwo 65 0 with mem := put (kTwo 65 0).mem .w32 13 [1154] } 0x00021A10) = some .ctxInconsistent := by
  decide

/-- F1: the source limb was never written. -/
theorem test_uninit_read : faultOf (run { kTwo 65 0 with mem := memK } 0x00021A10) = some .uninitRead := by decide

/-- F4, F5. -/
theorem test_bus_faults : faultOf (busAccess issued (.read .b16 0x00C)) = some .busError
    ∧ faultOf (hostRead issued 0x002) = some .busError ∧ faultOf (hostRead issued 0x100000) = some .hostHazard := by decide

/-- H2: the constant registers for W = 64, MAX_MOD_LIMBS = 32, MEM_LIMBS = 4096. -/
theorem test_cfg : Params.cfgWord ⟨.w64, 4096, 32⟩ = 0x00200040#32 ∧ Params.memSizeWord ⟨.w64, 4096, 32⟩ = 0x00001000#32 := by
  decide

/-- W10: with the low half of a 64-bit limb alone the limb stays undefined. -/
theorem test_half_limb : (Memory.setWord [] 60 5#32).limb? .w64 30 = none := by decide

/-! ## Witnesses: states and operands that meet the hypotheses of each statement

A statement whose clauses need several states has one theorem with all of them. -/

/-- DecodeOfEncodeIsTheCommand. -/
theorem witness_decode_of_encode : (Instr.expwin 7 7 7 7 7 6).wellFormed = true ∧ (Instr.bufsz 0 4 .win 6).wellFormed = true := by
  decide

/-- EncodeOfDecodeIsTheWord and WordDecodesIffItSelectsARow. -/
theorem witness_encode_of_decode : decode 0x0FFFFF40#32 = .error .field ∧ decode 0x1F8FFF40#32 = .ok (.crtrec 7 7 7 7 7 7) := ⟨rfl, rfl⟩

/-- A BUSY machine with command word `w`. -/
def busyOn (w : Word) : State := (kTwo 716 716).issue w

/-- ReservedEncodingsCompleteWithTheirErrors: the ends of every reserved opcode range; an unused field; each reserved
value. -/
theorem witness_reserved_encodings :
    (∀ op ∈ [0x00, 0x03, 0x0F, 0x15, 0x17, 0x1E, 0x1F, 0x23, 0x2F, 0x32, 0x3F, 0x41, 0xFF],
      (busyOn (BitVec.ofNat 32 op)).phase = .busy ∧ ReservedOpcode (opField (busyOn (BitVec.ofNat 32 op)).lcmd))
    ∧ (⟨0x10, 0x00000010, 0xFFF1C0FF⟩ ∈ opcodeMap ∧ opField (busyOn 0x00004010).lcmd = 0x10
        ∧ (busyOn 0x00004010).lcmd &&& 0xFFF1C0FF ≠ 0x00000010)
    ∧ ReservedFieldValue (busyOn 0xE0568C22).lcmd ∧ ReservedFieldValue (busyOn 0x10000002).lcmd
    ∧ ReservedFieldValue (busyOn 0x20000002).lcmd ∧ ReservedFieldValue (busyOn 0xE8000002).lcmd :=
  ⟨by decide, by decide, by decide, by decide, by decide, by decide⟩

/-- StepRunsTheLatchedCommand and EngineTurnEndsTheCommand. -/
theorem witness_engine_turn : (busyOn 0x00031A12).phase = .busy ∧ (busyOn 0x00031A12).nextTurn = .engine
    ∧ decode (busyOn 0x00031A12).lcmd = .ok (.mmul 2 3 4 1) := ⟨rfl, rfl, rfl⟩

/-- A write of 9 to OPMEM word 100 under way on a bus that does not keep order. -/
def posted : State :=
  { kTwo 65 0 with host := { HostAgent.empty with busOrdered := false, posted := [⟨.b32, 0x100190#21, 9#32⟩] } }

/-- StepRunsTheLatchedCommand: the engine's turn on a word that is no command, for either reason. -/
theorem witness_engine_turn_no_command :
    (busyOn 0xFFFFFF15).phase = .busy ∧ (busyOn 0xFFFFFF15).nextTurn = .engine
    ∧ decode (busyOn 0xFFFFFF15).lcmd = .error .opcode
    ∧ (busyOn 0x00004101).nextTurn = .engine ∧ decode (busyOn 0x00004101).lcmd = .error .field := ⟨rfl, rfl, rfl, rfl, rfl⟩

/-- A host about to read STATUS on a bus that does not keep order. -/
def hostReads : State :=
  { kTwo 65 0 with host := { HostAgent.empty with prog := [busRead32 0x00C], busOrdered := false } }

/-- StepRunsTheLatchedCommand: a read on a bus that does not keep order. -/
theorem witness_bus_read : hostReads.nextTurn = .host ∧ hostReads.host.busOrdered = false
    ∧ hostReads.host.prog[hostReads.host.pos]? = some (.access (.read .b32 0x00C#21)) := by decide

/-- StepRunsTheLatchedCommand: the host's turn on either kind of bus; an arrival that completes and one that faults. -/
theorem witness_bus_turns :
    (hostWrites true []).nextTurn = .host ∧ (hostWrites true []).host.busOrdered = true
    ∧ (hostWrites true []).host.prog[(hostWrites true []).host.pos]? = some (.access (.write .b32 0x100190#21 9#32))
    ∧ (hostWrites false []).nextTurn = .host ∧ (hostWrites false []).host.busOrdered = false
    ∧ (hostWrites false []).host.prog[(hostWrites false []).host.pos]? = some (.access (.write .b32 0x100190#21 9#32))
    ∧ posted.nextTurn = .arrive 0 ∧ posted.host.posted[0]? = some ⟨.b32, 0x100190#21, 9#32⟩
    ∧ after (step posted) 100 1 = some (0x2#32, 7#32, some 9)
    ∧ { posted with phase := .busy, turns := [.arrive 0] }.nextTurn = .arrive 0
    ∧ faultOf (step { posted with phase := .busy, turns := [.arrive 0] }) = some .hostHazard := by decide

/-- CmdWriteIssuesOrSetsOvr, both clauses. -/
theorem witness_cmd_write : (kTwo 716 716).phase = .idle ∧ (busyOn 0x00031A12).phase = .busy := by decide

/-- ExecuteDependsOnlyOnLatchesAndMemory: the two states differ in D, IE and STATUS; a command that completes and one
that faults. -/
theorem witness_execute_depends :
    (kTwo 716 716).params = (kTwo 716 716).powerOnReset.params
    ∧ (kTwo 716 716).ld = { kTwo 716 716 with d := DFile.zero, ie := true, done := false }.ld
    ∧ (kTwo 716 716).mem = { kTwo 716 716 with d := DFile.zero, ie := true, done := false }.mem
    ∧ (after (exec (.mmul 2 3 4 1) (kTwo 716 716)) 20 1).isSome = true
    ∧ faultOf (exec (.menc 2 3 1) { kTwo 65 0 with mem := memK }) = some .uninitRead := by decide

/-- ErrorCompletionChangesOnlyStatus. -/
theorem witness_error_completion : ∃ t, exec (.menc 2 3 1) (kTwo 3233 0) = .next t ∧ t.errcode ≠ 0#8 :=
  ⟨(kTwo 3233 0).completeErr .range, by rfl, by decide⟩

/-- The state MMUL leaves in context K. -/
def mmulDone : State := (kTwo 716 716).completeOk ((kTwo 716 716).view.finish 2 1278)

/-- FrameOfEveryCommand: a completed command, and a byte outside its destination. -/
theorem witness_frame : exec (.mmul 2 3 4 1) (kTwo 716 716) = .next mmulDone
    ∧ ∀ f ∈ writtenFields (.mmul 2 3 4 1), ¬ InByteRange .w32 ((kTwo 716 716).ld.get f) 84 := ⟨by rfl, by decide⟩

/-- MemReadAndMemWriteAreLimbArrays: a value below B^2, and two defined limbs. -/
theorem witness_mem_read_write : 2 ^ 33 < (2 ^ LimbBits.w32.bits) ^ 2
    ∧ ∀ i, i < 2 → (put [] .w32 4 [7, 7]).limb? .w32 (4 + i) = some 7 := by decide

/-- EveryStepKeepsTheInvariant: reset, a machine with memory, and a step of it. -/
theorem witness_invariant : (kTwo 716 716).Inv ∧ (busyOn 0x00031A12).Inv ∧ State.reset.params.Legal := by decide

/-- EveryStepKeepsTheInvariant: the step exists. -/
theorem witness_invariant_step : ∃ t, step (busyOn 0x00031A12) = .next t := ⟨_, rfl⟩

/-- EveryStepKeepsTheInvariant: a machine with a write under way, and its arrival. -/
theorem witness_invariant_posted : posted.Inv ∧ (after (step posted) 100 1).isSome = true := by decide

/-- PowerOnResetGivesTheResetValues. -/
theorem witness_power_on : { busyOn 0x00031A12 with turns := [.powerOn, .host] }.turns = [Turn.powerOn, Turn.host] := rfl

/-- WarmResetKeepsMemoryButAbandonedRanges: IDLE; BUSY on a word that is no command; BUSY on a command with a destination
and scratch, a limb of each. -/
theorem witness_warm_reset :
    { kTwo 1 1 with turns := [.warmReset] }.turns = [Turn.warmReset] ∧ (kTwo 1 1).phase = .idle
    ∧ ((kTwo 1 1).issue 0xFFFFFF15).phase = .busy ∧ decode ((kTwo 1 1).issue 0xFFFFFF15).lcmd = .error .opcode
    ∧ ((kExp 716 17 3).issue 0x00531A20).phase = .busy
    ∧ decode ((kExp 716 17 3).issue 0x00531A20).lcmd = .ok (.expbin 2 3 4 1 5)
    ∧ writtenFields (.expbin 2 3 4 1 5) = [2, 5]
    ∧ inRange ((kExp 716 17 3).ld.get 2) 20 ∧ inRange ((kExp 716 17 3).ld.get 5) 42
    ∧ ∀ f ∈ writtenFields (.expbin 2 3 4 1 5), ¬ InByteRange .w32 ((kExp 716 17 3).ld.get f) 84 :=
  ⟨rfl, rfl, rfl, rfl, rfl, rfl, rfl, by decide, by decide, by decide⟩

/-- The parameters of vector H2. -/
def wide : Params := ⟨.w64, 4096, 32⟩

/-- ReadOnlyRegistersRead, for both limb widths. -/
theorem witness_legal : State.reset.params.Legal ∧ wide.Legal := by decide

/-- ReservedOffsetsReadZeroAndIgnoreWrites: the ends of each range. -/
theorem witness_reserved_offsets :
    ∀ o ∈ [0x01C, 0x040, 0x0FFFFC, 0x100400, 0x1FFFFC], o < 2 ^ 21 ∧ ReservedOffset Config.defaultParams o := by decide

/-- A W = 64 machine with limb 1 defined. -/
def wideOne : State := { State.resetWith wide with mem := put [] .w64 1 [0x0123456789ABCDEF] }

/-- WindowWordsAreLimbHalves: the last word for W = 32, both halves of a limb for W = 64. -/
theorem witness_window : (kTwo 1 1).phase = .idle ∧ (kTwo 1 1).params.Legal ∧ 255 < 256 * (LimbBits.w32.bits / 32)
    ∧ (kTwo 1 1).LimbIs (2 / (LimbBits.w32.bits / 32)) 1
    ∧ wideOne.phase = .idle ∧ wideOne.params.Legal ∧ 3 < 4096 * (LimbBits.w64.bits / 32)
    ∧ wideOne.LimbIs (2 / (LimbBits.w64.bits / 32)) 0x0123456789ABCDEF
    ∧ wideOne.LimbIs (3 / (LimbBits.w64.bits / 32)) 0x0123456789ABCDEF := by decide

/-- WindowWordsAreLimbHalves: a word of an undefined limb, for W = 64. -/
theorem witness_window_undefined : wideOne.mem.limb? .w64 (8191 / 2) = none ∧ 8191 < 4096 * (LimbBits.w64.bits / 32) := by decide

/-- HalfWrittenLimbIsUndefined. -/
theorem witness_half_limb : ∀ b, b < 8 → Memory.byte? (put [] .w64 1 [7]) (8 * 0 + b) = none := by decide

/-- ReadsHaveNoSideEffect: a read that completes. -/
theorem witness_read : ∃ t, busAccess (busyOn 0x00031A12) (.read .b32 0x00C) = .next t := ⟨_, rfl⟩

/-- OpmemAccessWhileBusyIsAHazard: the last window word, and the ends of the register space. -/
theorem witness_hazard : (busyOn 0x00031A12).phase = .busy ∧ (busyOn 0x00031A12).params.Legal
    ∧ 255 < 256 * (LimbBits.w32.bits / 32) ∧ 0x0FFFFC < 0x100000 ∧ 0x0FFFFC % 4 = 0 := by decide

/-- `m` without its limbs from `a` on, `n` of them. -/
def without (m : Memory) (a n : Nat) : Memory := m.undefineRange .w32 (mkDesc a n)

/-- ReadOfUndefinedLimbFaults: an undefined window limb; the contexts' undefined limbs, the TAG limb, the m limb, the
first limb behind a header and the last. -/
theorem witness_undefined_read :
    (kTwo 1 1).mem.limb? .w32 (100 / (LimbBits.w32.bits / 32)) = none
    ∧ templateOf (.menc 2 3 1) = some ⟨2, [3], 1, none⟩
    ∧ RolesOk (gTwo 1 1 1).params ((gTwo 1 1 1).templateRoles ⟨2, [3], 1, none⟩)
    ∧ (gTwo 1 1 1).CtxUndefined ((gTwo 1 1 1).ld.get 1)
    ∧ State.CtxUndefined { kTwo 1 1 with mem := without (kTwo 1 1).mem 9 1 } 0x00070008
    ∧ State.CtxUndefined { kTwo 1 1 with mem := without (kTwo 1 1).mem 10 1 } 0x00070008
    ∧ State.CtxUndefined { kTwo 1 1 with mem := without (kTwo 1 1).mem 14 1 } 0x00070008 :=
  ⟨by decide, rfl, by decide, ⟨by decide, .inl (by decide)⟩, ⟨by decide, .inr (.inl (by decide))⟩,
    ⟨by decide, .inr (.inr ⟨1, 2, by decide⟩)⟩, ⟨by decide, .inr (.inr ⟨1, 6, by decide⟩)⟩⟩

/-- ReadOfUndefinedLimbFaults: an undefined first source and an undefined second source of ready templates, with and
without scratch; for the exponent, the base below M. -/
theorem witness_undefined_source :
    IsScratchNeed { kTwo 1 1 with mem := memK } 1 0 (.mmul 2 3 4 1)
    ∧ State.TemplateReady { kTwo 1 1 with mem := memK } ⟨2, [3, 4], 1, none⟩ ctxK 0
    ∧ State.ValUndefined { kTwo 1 1 with mem := memK } 3
    ∧ State.TemplateReady { kTwo 1 1 with mem := without (kTwo 1 1).mem 2 1 } ⟨2, [3, 4], 1, none⟩ ctxK 0
    ∧ State.ValIs { kTwo 1 1 with mem := without (kTwo 1 1).mem 2 1 } 3 1
    ∧ State.ValUndefined { kTwo 1 1 with mem := without (kTwo 1 1).mem 2 1 } 4
    ∧ IsScratchNeed (kExp 1 1 4) 1 3 (.expbin 2 3 4 1 5) ∧ IsScratchNeed (kExp 1 1 4) 1 4 (.expct 2 3 4 1 5)
    ∧ IsScratchNeed (kExp 1 1 35) 1 35 (.expwin 2 3 4 1 5 5)
    ∧ State.TemplateReady { kExp 1 1 35 with mem := without (kExp 1 1 35).mem 3 1 } ⟨2, [3, 4], 1, some 5⟩ ctxK 35
    ∧ State.ValIs { kExp 1 1 35 with mem := without (kExp 1 1 35).mem 3 1 } 3 1 ∧ 1 < ctxK.modulus
    ∧ State.ValUndefined { kExp 1 1 35 with mem := without (kExp 1 1 35).mem 3 1 } 4 :=
  ⟨rfl, by decide, ⟨1, by decide⟩, by decide, by decide, ⟨2, by decide⟩, rfl, rfl,
    ⟨5, 32, .inr ⟨by decide, rfl⟩, ⟨by decide, by decide, fun q _ h => h⟩, rfl⟩,
    by decide, by decide, by decide, ⟨3, by decide⟩⟩

/-- ReadOfUndefinedLimbFaults: MSETUP, GCD, MINV and each read of CRTREC. -/
theorem witness_undefined_other :
    (RolesOk (setup 1 7).params [(setup 1 7).writtenRole 1, (setup 1 7).readRole 0]
      ∧ State.ValUndefined { setup 1 7 with mem := [] } 0)
    ∧ (RolesOk (gTwo 1 6 9).params [(gTwo 1 6 9).writtenRole 2, (gTwo 1 6 9).readRole 3, (gTwo 1 6 9).readRole 4]
      ∧ State.ValUndefined { gTwo 1 6 9 with mem := without (gTwo 1 6 9).mem 5 1 } 4)
    ∧ (RolesOk (crt 4 12 38 memPQ).params ((crt 4 12 38 memPQ).crtRoles 4 5 6 0 1 3)
      ∧ (crt 4 12 38 (without memPQ 13 1)).CtxUndefined 0x00070008
      ∧ (crt 4 12 38 (without memPQ 22 1)).CtxAt 0x00070008 ctxP
      ∧ (crt 4 12 38 (without memPQ 22 1)).CtxUndefined 0x00070010
      ∧ (crt 4 12 38 memPQ).CtxAt 0x00070010 ctxQ ∧ ctxP.m + ctxQ.m ≤ descLen ((crt 4 12 38 memPQ).ld.get 4)
      ∧ State.ValUndefined { crt 4 12 38 memPQ with mem := memPQ } 6) :=
  ⟨⟨by decide, 0, by decide⟩, ⟨by decide, 5, by decide⟩, by decide, ⟨by decide, .inr (.inr ⟨1, 5, by decide⟩)⟩,
    by decide, ⟨by decide, .inr (.inr ⟨1, 6, by decide⟩)⟩, by decide, by decide, 33, by decide⟩

/-- A context whose RM is not R mod M. -/
def ctxBad : Ctx := { ctxK with rm := 1154 }

/-- InconsistentContextFaults, for a template command and for either context of CRTREC. -/
theorem witness_inconsistent :
    (RolesOk (kTwo 1 1).params ((kTwo 1 1).templateRoles ⟨2, [3], 1, none⟩)
      ∧ State.CtxHeaderIs { kTwo 1 1 with mem := put (kTwo 1 1).mem .w32 13 [1154] } 0x00070008 1
      ∧ State.CtxBodyIs { kTwo 1 1 with mem := put (kTwo 1 1).mem .w32 13 [1154] } 0x00070008 ctxBad
      ∧ ¬ ctxBad.Consistent .w32)
    ∧ (RolesOk (crt 4 12 38 memPQ).params ((crt 4 12 38 memPQ).crtRoles 4 5 6 0 1 3)
      ∧ (crt 4 12 38 (put memPQ .w32 13 [56])).CtxHeaderIs 0x00070008 1
      ∧ (crt 4 12 38 (put memPQ .w32 13 [56])).CtxBodyIs 0x00070008 { ctxP with rm := 56 }
      ∧ ¬ Ctx.Consistent .w32 { ctxP with rm := 56 })
    ∧ ((crt 4 12 38 (put memPQ .w32 21 [43])).CtxAt 0x00070008 ctxP
      ∧ (crt 4 12 38 (put memPQ .w32 21 [43])).CtxHeaderIs 0x00070010 1
      ∧ (crt 4 12 38 (put memPQ .w32 21 [43])).CtxBodyIs 0x00070010 { ctxQ with rm := 43 }
      ∧ ¬ Ctx.Consistent .w32 { ctxQ with rm := 43 }) :=
  ⟨⟨by decide, by decide, by decide, by decide⟩, ⟨by decide, by decide, by decide, by decide⟩, by decide, by decide,
    by decide, by decide⟩

/-- IrqFollowsDoneAndEnable: a completing command, and the values written. -/
theorem witness_irq : (∃ t, exec (.mmul 2 3 4 1) (kTwo 716 716) = .next t) ∧ (0x2#32 : Word).getLsbD 1 = true
    ∧ (0x2#32 : Word).getLsbD 0 = false := ⟨⟨_, by rfl⟩, by decide, by decide⟩

/-! ### Commands -/

/-- The errors of the one-source template, in order: MENC, MDEC, MSQR, MRED, MNEG, MHALF, MDBL, MTPL. -/
theorem witness_one_source_errors :
    (¬ AllInBounds Config.defaultParams [⟨mkDesc 250 7, true⟩, ⟨mkDesc 1 1, false⟩, ⟨mkDesc 8 7, false⟩])
    ∧ (AllInBounds Config.defaultParams [⟨mkDesc 8 1, true⟩, ⟨mkDesc 1 1, false⟩, ⟨mkDesc 8 7, false⟩]
      ∧ ¬ NoOverlap [⟨mkDesc 8 1, true⟩, ⟨mkDesc 1 1, false⟩, ⟨mkDesc 8 7, false⟩])
    ∧ (RolesOk (kTwo 1 1).params ((kTwo 1 1).templateRoles ⟨2, [3], 1, none⟩)
      ∧ State.CtxTagBad { kTwo 1 1 with mem := put (kTwo 1 1).mem .w32 8 [0] } 0x00070008
      ∧ State.CtxSizeBad { kTwo 1 1 with mem := put (kTwo 1 1).mem .w32 9 [0] } 0x00070008)
    ∧ (RolesOk (gTwo 0 1 1).params ((gTwo 0 1 1).templateRoles ⟨2, [3], 1, none⟩)
      ∧ State.CtxAt { gTwo 0 1 1 with mem := memK } 0x00070008 ctxK ∧ descLen ((gTwo 0 1 1).ld.get 2) < ctxK.m) := by
  refine ⟨by decide, by decide, ⟨by decide, .inr ⟨0, by decide⟩, by decide, by decide, 0, by decide⟩, by decide⟩

/-- The one-source template ready, with a source below M and one at M; for MRED, T div R = M - 1 and M. -/
theorem witness_one_source :
    (kTwo 716 0).TemplateReady ⟨2, [3], 1, none⟩ ctxK 0 ∧ (kTwo 716 0).ValIs 3 716
    ∧ (kTwo 3233 0).TemplateReady ⟨2, [3], 1, none⟩ ctxK 0 ∧ (kTwo 3233 0).ValIs 3 3233
    ∧ (kRed 0xFFFFFFFF 3232).TemplateReady ⟨2, [3], 1, none⟩ ctxK 0
    ∧ (kRed 0xFFFFFFFF 3232).ValIs 3 (3233 * 2 ^ 32 - 1) ∧ (3233 * 2 ^ 32 - 1) / (2 ^ 32) ^ 1 < 3233
    ∧ (kRed 0 3233).ValIs 3 (3233 * 2 ^ 32) ∧ 3233 * 2 ^ 32 / (2 ^ 32) ^ 1 ≥ 3233 :=
  ⟨by decide, by decide, by decide, by decide, by decide, by decide, by decide, by decide, by decide⟩

/-- The two-source template ready, with sources below M and with one at M: MMUL, MADD, MSUB. -/
theorem witness_two_source :
    (kTwo 5 7).TemplateReady ⟨2, [3, 4], 1, none⟩ ctxK 0 ∧ (kTwo 5 7).ValIs 3 5 ∧ (kTwo 5 7).ValIs 4 7
    ∧ (kTwo 5 3233).TemplateReady ⟨2, [3, 4], 1, none⟩ ctxK 0 ∧ (kTwo 5 3233).ValIs 4 3233
    ∧ ¬ AllInBounds Config.defaultParams [⟨mkDesc 250 7, true⟩, ⟨mkDesc 1 1, false⟩, ⟨mkDesc 2 1, false⟩, ⟨mkDesc 8 7, false⟩]
    ∧ AllInBounds Config.defaultParams [⟨mkDesc 1 1, true⟩, ⟨mkDesc 1 1, false⟩, ⟨mkDesc 2 1, false⟩, ⟨mkDesc 8 7, false⟩]
    ∧ ¬ NoOverlap [⟨mkDesc 1 1, true⟩, ⟨mkDesc 1 1, false⟩, ⟨mkDesc 2 1, false⟩, ⟨mkDesc 8 7, false⟩]
    ∧ RolesOk (kTwo 5 7).params ((kTwo 5 7).templateRoles ⟨2, [3, 4], 1, none⟩)
    ∧ RolesOk (gTwo 0 1 1).params ((gTwo 0 1 1).templateRoles ⟨2, [3, 4], 1, none⟩)
    ∧ descLen ((gTwo 0 1 1).ld.get 2) < ctxK.m :=
  ⟨by decide, by decide, by decide, by decide, by decide, by decide, by decide, by decide, by decide, by decide, by decide⟩

/-- The exponentiations: the template ready with scratch 3, 4 and 35 (EXPWIN with w = 5), and one limb less; X below M
and at M; e = 17 and e = 0. -/
theorem witness_exponentiation :
    (kExp 716 17 3).TemplateReady ⟨2, [3, 4], 1, some 5⟩ ctxK (3 * 1)
    ∧ (kExp 716 0 4).TemplateReady ⟨2, [3, 4], 1, some 5⟩ ctxK (4 * 1)
    ∧ (kExp 716 17 35).TemplateReady ⟨2, [3, 4], 1, some 5⟩ ctxK 35
    ∧ (kExp 716 17 3).ValIs 3 716 ∧ (kExp 716 17 3).ValIs 4 17 ∧ (kExp 716 0 4).ValIs 4 0
    ∧ (kExp 3233 17 3).ValIs 3 3233
    ∧ RolesOk (kExp 716 17 2).params ((kExp 716 17 2).templateRoles ⟨2, [3, 4], 1, some 5⟩)
    ∧ (kExp 716 17 2).CtxAt 0x00070008 ctxK ∧ descLen ((kExp 716 17 2).ld.get 5) < 3 * 1
    ∧ ¬ AllInBounds (kExp 1 1 250).params ((kExp 1 1 250).templateRoles ⟨2, [3, 4], 1, some 5⟩)
    ∧ ¬ NoOverlap [⟨mkDesc 20 1, true⟩, ⟨mkDesc 1 1, false⟩, ⟨mkDesc 3 1, false⟩, ⟨mkDesc 8 7, false⟩, ⟨mkDesc 3 3, true⟩] :=
  ⟨by decide, by decide, by decide, by decide, by decide, by decide,
    by decide, by decide, by decide, by decide, by decide, by decide⟩

/-- The context errors and the room error of the two-source commands and the exponentiations. -/
theorem witness_template_errors :
    State.CtxTagBad { kTwo 5 7 with mem := put (kTwo 5 7).mem .w32 8 [0] } 0x00070008
    ∧ State.CtxSizeBad { kTwo 5 7 with mem := put (kTwo 5 7).mem .w32 9 [2] } 0x00070008
    ∧ State.CtxTagBad { kExp 716 17 3 with mem := put (kExp 716 17 3).mem .w32 8 [0] } 0x00070008
    ∧ State.CtxSizeBad { kExp 716 17 3 with mem := put (kExp 716 17 3).mem .w32 9 [65] } 0x00070008
    ∧ 3 * 1 ≤ descLen ((kExp 716 17 3).ld.get 5) ∧ descLen (mkDesc 20 0) < ctxK.m :=
  ⟨.inr ⟨0, by decide⟩, ⟨by decide, by decide, 2, by decide⟩, .inr ⟨0, by decide⟩, ⟨by decide, by decide, 65, by decide⟩,
    by decide, by decide⟩

/-- DescriptorRegistersHoldWhatIsWritten: another register. -/
theorem witness_other_register : (7 : DIdx) ≠ 0 := by decide

/-- The window need of EXPWIN with w = 5 and of the policy, for one exponent limb (vectors B6, B4). -/
theorem witness_window_need : IsWindowNeed .w32 5#3 1 1 35 ∧ IsWindowNeed .w32 0#3 1 1 19 :=
  ⟨⟨5, 32, .inr ⟨by decide, rfl⟩, ⟨by decide, by decide, fun q _ h => h⟩, rfl⟩,
    ⟨1, 16, .inl ⟨rfl, by decide⟩,
      ⟨by decide, by decide, fun q hq h => Nat.le_of_dvd (by omega) hq⟩, rfl⟩⟩

/-- MAX_MOD_LIMBS = 1 and the two-limb modulus of vector S7. -/
def narrow : State :=
  machine ⟨.w32, 256, 1⟩ ⟨0x00020000, 0x000A0008, 0, 0, 0, 0, 0, 0⟩ (put [] .w32 0 [0xFFFFFFC5, 0xFFFFFFFF])

/-- MSETUP: bounds, overlap, even, range, room, and the completing case. -/
theorem witness_msetup :
    ¬ AllInBounds Config.defaultParams [⟨mkDesc 250 7, true⟩, ⟨mkDesc 0 1, false⟩]
    ∧ (AllInBounds Config.defaultParams [⟨mkDesc 0 7, true⟩, ⟨mkDesc 0 1, false⟩]
      ∧ ¬ NoOverlap [⟨mkDesc 0 7, true⟩, ⟨mkDesc 0 1, false⟩])
    ∧ (RolesOk (setup 3233 7).params [(setup 3233 7).writtenRole 1, (setup 3233 7).readRole 0]
      ∧ (setup 3233 7).ValIs 0 3233 ∧ nlen .w32 3233 = 1 ∧ 3233 % 2 = 1 ∧ 1 ≤ (setup 3233 7).params.maxModLimbs
      ∧ 4 + 3 * 1 ≤ descLen ((setup 3233 7).ld.get 1))
    ∧ descLen ((setup 3233 6).ld.get 1) < 4 + 3 * 1
    ∧ (setup 3234 7).ValIs 0 3234
    ∧ (narrow.ValIs 0 (2 ^ 64 - 59) ∧ (2 ^ 64 - 59) % 2 = 1 ∧ nlen .w32 (2 ^ 64 - 59) > narrow.params.maxModLimbs) :=
  ⟨by decide, by decide, by decide, by decide, by decide, by decide, by decide, by decide⟩

/-- MsetupWritesAConsistentContext: a completing MSETUP with code OK. -/
theorem witness_msetup_ok : after (exec (.msetup 1 0) (setup 3233 9)) 15 2 = some (0x2#32, 7#32, some 0) := by decide

/-- BUFSZ: both range errors, the completing case at its ends, and sizes that IsBufferSize gives. -/
theorem witness_bufsz : (Instr.bufsz 0 4 .win 5).wellFormed = true
    ∧ descLen ((sizes 0 1).ld.get 0) = 0 ∧ descLen ((sizes 65 1).ld.get 0) > (sizes 65 1).params.maxModLimbs
    ∧ descLen ((sizes 64 1).ld.get 0) = (sizes 64 1).params.maxModLimbs ∧ descLen ((sizes 1 0).ld.get 0) = 1
    ∧ IsBufferSize .w32 .bin 0 1 1 3 ∧ IsBufferSize .w32 .bin 0 2 1 6 := ⟨by decide, by decide, by decide, by decide, by decide, rfl, rfl⟩

/-- GCD: bounds, overlap, both zero, room and the completing case. -/
theorem witness_gcd :
    ¬ AllInBounds Config.defaultParams [⟨mkDesc 256 1, true⟩, ⟨mkDesc 4 1, false⟩, ⟨mkDesc 5 1, false⟩]
    ∧ ¬ NoOverlap [⟨mkDesc 4 1, true⟩, ⟨mkDesc 4 1, false⟩, ⟨mkDesc 5 1, false⟩]
    ∧ RolesOk (gTwo 1 12 18).params [(gTwo 1 12 18).writtenRole 2, (gTwo 1 12 18).readRole 3, (gTwo 1 12 18).readRole 4]
    ∧ (gTwo 1 12 18).ValIs 3 12 ∧ (gTwo 1 12 18).ValIs 4 18 ∧ (gTwo 0 0 0).ValIs 3 0 ∧ (gTwo 0 0 0).ValIs 4 0
    ∧ descLen ((gTwo 0 12 18).ld.get 2) < nlen .w32 6 ∧ nlen .w32 6 ≤ descLen ((gTwo 1 12 18).ld.get 2) := by decide

/-- MINV: room, range at both ends, not invertible, and the completing case. -/
theorem witness_minv :
    RolesOk (gTwo 1 6 9).params [(gTwo 1 6 9).writtenRole 2, (gTwo 1 6 9).readRole 3, (gTwo 1 6 9).readRole 4]
    ∧ descLen ((gTwo 0 6 9).ld.get 2) < nlen .w32 9 ∧ nlen .w32 9 ≤ descLen ((gTwo 1 6 9).ld.get 2)
    ∧ (gTwo 1 6 9).ValIs 3 6 ∧ (gTwo 1 6 9).ValIs 4 9 ∧ Nat.gcd 6 9 ≠ 1
    ∧ (gTwo 1 61 61).ValIs 3 61 ∧ (gTwo 1 0 61).ValIs 3 0 ∧ (gTwo 1 53 61).ValIs 3 53 ∧ Nat.gcd 53 61 = 1 := by decide

/-- CRTREC: bounds, overlap, the tag and size of either context, room, range and the completing case. -/
theorem witness_crtrec :
    (RolesOk (crt 4 12 38 memPQ).params ((crt 4 12 38 memPQ).crtRoles 4 5 6 0 1 3) ∧ (crt 4 12 38 memPQ).CtxAt 0x00070008 ctxP
      ∧ (crt 4 12 38 memPQ).CtxAt 0x00070010 ctxQ ∧ ctxP.m + ctxQ.m ≤ descLen ((crt 4 12 38 memPQ).ld.get 4)
      ∧ (crt 4 12 38 memPQ).ValIs 5 4 ∧ (crt 4 12 38 memPQ).ValIs 6 12 ∧ (crt 4 12 38 memPQ).ValIs 3 38)
    ∧ (crt 61 12 38 memPQ).ValIs 5 61
    ∧ (crt 4 12 38 (put memPQ .w32 8 [0])).CtxTagBad 0x00070008
    ∧ (crt 4 12 38 (put memPQ .w32 9 [65])).CtxSizeBad 0x00070008
    ∧ (crt 4 12 38 (put memPQ .w32 16 [0])).CtxTagBad 0x00070010
    ∧ (crt 4 12 38 (put memPQ .w32 17 [2])).CtxSizeBad 0x00070010
    ∧ ¬ AllInBounds Config.defaultParams [⟨mkDesc 255 2, true⟩]
    ∧ ¬ NoOverlap [⟨mkDesc 12 2, true⟩, ⟨0x00070008, false⟩] ∧ descLen (mkDesc 34 1) < ctxP.m + ctxQ.m := by
  refine ⟨by decide, by decide, .inr ⟨0, by decide⟩, ⟨by decide, by decide, 65, by decide⟩, .inr ⟨0, by decide⟩,
    ⟨by decide, by decide, 2, by decide⟩, by decide, by decide, by decide⟩

/-- The state MENC of 65 leaves in context K, with D5 = (21, 1). -/
def mencDone : State :=
  (machine Config.defaultParams (files 0x00010014 0x00010001 0x00010002 0x00010015) (put memK .w32 1 [65])).completeOk
    ⟨some 0x00010014, 716, 1, none⟩

/-- DecodeAfterEncodeIsTheIdentity: MENC D2, D3, D1 and then MDEC D5, D2, D1. -/
theorem witness_decode_after_encode :
    exec (.menc 2 3 1) (machine Config.defaultParams (files 0x00010014 0x00010001 0x00010002 0x00010015)
      (put memK .w32 1 [65])) = .next mencDone
    ∧ after (exec (.mdec 5 2 1) mencDone) 21 1 = some (0x2#32, 1#32, some 65) := ⟨by rfl, by decide⟩

/-- ExponentiationEnginesAgree: all three complete with OK on 35 limbs of scratch. -/
theorem witness_engines_agree :
    ∀ i ∈ [Instr.expbin 2 3 4 1 5, .expct 2 3 4 1 5, .expwin 2 3 4 1 5 5],
      after (exec i (kExp 716 17 35)) 20 1 = some (0x2#32, 1#32, some 2382) := by decide

/-- ExpMontIsMontOfThePower and the refinement statements on a context: context K, x and b below M, Rinv = 1296, T below
M R; the exponentiation result 2382 of vector X1. -/
theorem witness_context : ctxK.Consistent .w32 ∧ 716 < ctxK.modulus ∧ IsRinv .w32 ctxK 1296
    ∧ 3233 * 2 ^ 32 - 1 < ctxK.modulus * (2 ^ LimbBits.w32.bits) ^ ctxK.m ∧ 17 < 2 ^ 32 ∧ 1 ≤ 6
    ∧ 716 ^ 17 * 1296 ^ 16 % 3233 = 2382 := by decide

/-- The same for a modulus of 1 (vector S5), whose only residue is 0. -/
theorem witness_context_one : Ctx.Consistent .w32 ⟨1, 1, 0xFFFFFFFF, 1, 0, 0⟩ ∧ IsRinv .w32 ⟨1, 1, 0xFFFFFFFF, 1, 0, 0⟩ 0 := by
  decide

/-- BinaryExponentiationLoopsAreExpMont and WindowedExponentiationIsExpMont, e = 0 and e = 17. -/
theorem witness_exp_mont : IsExpMont .w32 ctxK 716 0 1155 ∧ IsExpMont .w32 ctxK 716 17 2382 :=
  ⟨.inl ⟨rfl, rfl⟩, .inr ⟨by decide, 1296, by decide, by decide⟩⟩

/-- CrtValueSolvesBothCongruences: P = 61, Q = 53. -/
theorem witness_crt_value : 4 < 61 ∧ 12 < 53 ∧ 38 * 53 % 61 = 1 % 61 ∧ ctxP.Consistent .w32 ∧ 38 < ctxP.modulus := by decide

/-- EuclideanLoopsComputeGcdAndInverse: an invertible and a non-invertible pair. -/
theorem witness_euclid : (0 < 53 ∧ 53 < 61 ∧ modInverse 53 61 = some 38) ∧ (0 < 6 ∧ 6 < 9 ∧ modInverse 6 9 = none) := by decide

end Sys2Proof.Tests
end

section
/-! SUPPORT. What a limb holds after MemWrite, and what MemRead makes of limbs (00_scope R15). -/

namespace Sys2Proof.Machine

/-- MemWrite leaves every limb outside its room as it was. -/
theorem Memory.limb?_memWrite_outside (w : LimbBits) (n : Nat) : ∀ (m : Memory) (a v b : Nat), b < a ∨ a + n ≤ b →
    (m.memWrite w a n v).limb? w b = m.limb? w b := by
  induction n with
  | zero => intro m a v b _; rfl
  | succ n ih =>
    intro m a v b h
    rw [Memory.memWrite, ih _ _ _ _ (by omega), Memory.limb?_setLimb_ne _ _ _ (by omega)]

/-- MemWrite puts the value's digit i to the base B in limb i of its room. -/
theorem Memory.limb?_memWrite_inside (w : LimbBits) (n : Nat) : ∀ (m : Memory) (a v i : Nat), i < n →
    (m.memWrite w a n v).limb? w (a + i) = some (v / w.base ^ i % w.base) := by
  induction n with
  | zero => intro m a v i h; omega
  | succ n ih =>
    intro m a v i h
    rw [Memory.memWrite]
    cases i with
    | zero =>
      rw [Memory.limb?_memWrite_outside _ _ _ _ _ _ (by omega), Nat.add_zero,
        Memory.limb?_setLimb_same _ _ _ _ (Nat.mod_lt _ (Nat.two_pow_pos _)), Nat.pow_zero, Nat.div_one]
    | succ i =>
      rw [show a + (i + 1) = a + 1 + i by omega, ih _ _ _ _ (by omega), Nat.div_div_eq_div_mul, ← Nat.pow_succ']

/-- What MemWrite stored in n limbs, MemRead gives back, modulo B^n. -/
theorem Memory.memRead_memWrite (w : LimbBits) (n : Nat) : ∀ (m : Memory) (a v : Nat),
    (m.memWrite w a n v).memRead w a n = some (v % w.base ^ n) := by
  induction n with
  | zero => intro m a v; simp [Memory.memRead, Nat.mod_one]
  | succ n ih =>
    intro m a v
    have low : (m.memWrite w a (n + 1) v).limb? w a = some (v % w.base) := by
      simpa using Memory.limb?_memWrite_inside w (n + 1) m a v 0 (Nat.succ_pos n)
    have high : (m.memWrite w a (n + 1) v).memRead w (a + 1) n = some (v / w.base % w.base ^ n) := ih _ _ _
    simp only [Memory.memRead, low, high]
    rw [Nat.pow_succ', Nat.mod_mul]

/-- MemRead of n defined limbs is their sum by powers of B. -/
theorem Memory.memRead_eq_sum {m : Memory} {w : LimbBits} (n : Nat) : ∀ (a : Nat) (x : Nat → Nat),
    (∀ i, i < n → m.limb? w (a + i) = some (x i)) →
      m.memRead w a n = some (∑ i ∈ Finset.range n, x i * w.base ^ i) := by
  induction n with
  | zero => intro a x _; rfl
  | succ n ih =>
    intro a x h
    have low : m.limb? w a = some (x 0) := h 0 (Nat.succ_pos n)
    have high := ih (a + 1) (fun i => x (i + 1)) fun i hi => by
      rw [show a + 1 + i = a + (i + 1) by omega, h (i + 1) (by omega)]
    simp only [Memory.memRead, low, high, Finset.sum_range_succ', Finset.mul_sum, Option.some.injEq]
    rw [Nat.pow_zero, Nat.mul_one, Nat.add_comm]
    congr 1
    exact Finset.sum_congr rfl fun i _ => by rw [Nat.pow_succ', Nat.mul_left_comm]

end Sys2Proof.Machine

namespace Sys2Proof.Proofs

open Sys2Proof.Machine

/-- Settles O11: digit by digit, from the rules about one limb. -/
theorem memReadAndMemWriteAreLimbArrays : Obligations.MemReadAndMemWriteAreLimbArrays := by
  intro m w a n
  refine ⟨fun v hv => ⟨?_, Memory.limb?_memWrite_inside w n m a v, Memory.limb?_memWrite_outside w n m a v⟩,
    Memory.memRead_eq_sum n a⟩
  calc (m.memWrite w a n v).memRead w a n = some (v % w.base ^ n) := Memory.memRead_memWrite w n m a v
    _ = some v := congrArg some (Nat.mod_eq_of_lt hv)

end Sys2Proof.Proofs
end

section
/-! SUPPORT. The bounds of OPMEM under the writes of a command and of the host, and the invariant under each kind of
event (`step_next`). -/

namespace Sys2Proof.Machine

/-! ### The bounds of OPMEM -/

/-- The number of bytes of OPMEM. -/
abbrev Params.memBytes (p : Params) : Nat := p.memLimbs * p.limbBits.bytes

/-- A result written into a room in bounds stays inside OPMEM. -/
theorem Memory.writeDst_below {m : Memory} {p : Params} (h : m.Below (Params.memBytes p)) {dst : Option Word}
    (hd : ∀ d, dst = some d → descAddr d + descLen d ≤ p.memLimbs) (v : Nat) :
    (m.writeDst p.limbBits dst v).Below (Params.memBytes p) := by
  cases dst with
  | none => exact h
  | some d => exact Memory.memWrite_below _ _ _ _ _ h (Nat.mul_le_mul_right _ (hd d rfl))

/-- Dropping a scratch range lists no new cell. -/
theorem Memory.dropScratch_below {m : Memory} {k : Nat} (h : m.Below k) (w : LimbBits) (scr : Option Word) :
    (m.dropScratch w scr).Below k := by
  cases scr with
  | none => exact h
  | some d => exact Memory.undefine_below h _ _

/-- An implemented window word lies inside OPMEM (20_memory R82). -/
theorem Memory.setWord_below {m : Memory} {p : Params} (h : m.Below (Params.memBytes p)) {k : Nat}
    (hk : k < Params.windowWords p) (v : Word) : (m.setWord k v).Below (Params.memBytes p) := by
  refine Memory.writeBytes_below _ _ _ _ h ?_
  have e : Params.memBytes p = 4 * Params.windowWords p := by
    rw [Params.memBytes, LimbBits.bytes_eq, Params.windowWords, Nat.mul_left_comm]
  omega

/-- Every completion code is one of the spec's (60_exceptions R300). -/
theorem ErrCode.code_le (c : ErrCode) : c.code.toNat ≤ 0x0C := by cases c <;> decide

/-! ### The invariant under each kind of event -/

/-- An event from `s` to `t` keeps the invariant, and leaves the parameters and HOST_BUS_ORDERED as they are. -/
structure KeepsInv (s t : State) : Prop where
  inv : s.Inv → t.Inv
  params : t.params = s.params
  busOrdered : t.host.busOrdered = s.host.busOrdered

theorem KeepsInv.refl (s : State) : KeepsInv s s := ⟨id, rfl, rfl⟩

theorem KeepsInv.trans {s t u : State} (h : KeepsInv s t) (h' : KeepsInv t u) : KeepsInv s u :=
  ⟨fun hs => h'.inv (h.inv hs), h'.params.trans h.params, h'.busOrdered.trans h.busOrdered⟩

theorem takeTurn_keepsInv (s : State) : KeepsInv s s.takeTurn := ⟨id, rfl, rfl⟩

theorem recordData_keepsInv (s : State) (v : Option Word) : KeepsInv s (s.recordData v) := ⟨id, rfl, rfl⟩

theorem hostAt_keepsInv (s : State) (n : Nat) : KeepsInv s (s.hostAt n) := ⟨id, rfl, rfl⟩

/-- A write taken off the bus: an ordered bus had none. -/
theorem unpost_keepsInv (s : State) (n : Nat) : KeepsInv s (s.unpost n) where
  inv := fun ⟨hp, hw, hb, he, hd, hbus⟩ => ⟨hp, hw, hb, he, hd, fun ho => by
    simp [show s.host.posted = [] from hbus ho]⟩
  params := rfl
  busOrdered := rfl

theorem setHost_keepsInv {s : State} {g : HostAgent} (h : SameBus g s.host) : KeepsInv s { s with host := g } where
  inv := fun ⟨hp, hw, hb, he, hd, hbus⟩ => ⟨hp, hw, hb, he, hd, fun ho => by
    have ho' : s.host.busOrdered = true := h.1 ▸ ho
    exact (h.2 ho').trans (hbus ho')⟩
  params := rfl
  busOrdered := h.1

theorem completeErr_keepsInv (s : State) (c : ErrCode) : KeepsInv s (s.completeErr c) where
  inv := fun ⟨hp, hw, hb, _, _, hbus⟩ => ⟨hp, hw, hb, c.code_le, by simp, hbus⟩
  params := rfl
  busOrdered := rfl

/-- A result goes to a destination in bounds. -/
theorem completeOk_keepsInv {i : Instr} {s : State} {d : Done} (h : WritesOk i s d) :
    KeepsInv s (s.completeOk d) where
  inv := fun ⟨hp, hw, hb, _, _, hbus⟩ =>
    ⟨hp, Memory.dropScratch_wf (Memory.writeDst_wf hw _ _ _) _ _,
      Memory.dropScratch_below (Memory.writeDst_below hb (fun w e => (h.dst w e).2) _) _ _,
      ErrCode.code_le .ok, by simp, hbus⟩
  params := rfl
  busOrdered := rfl

theorem exec_keepsInv {i : Instr} {s t : State} (h : exec i s = .next t) : KeepsInv s t := by
  rcases exec_next h with ⟨d, hd, rfl⟩ | ⟨c, rfl⟩
  · exact completeOk_keepsInv hd
  · exact completeErr_keepsInv s c

theorem powerOnReset_keepsInv (s : State) : KeepsInv s s.powerOnReset where
  inv := fun ⟨hp, _, _, _, _, hbus⟩ => ⟨hp, List.Pairwise.nil, by simp, by simp, by simp, hbus⟩
  params := rfl
  busOrdered := rfl

theorem warmReset_keepsInv (s : State) : KeepsInv s s.warmReset where
  inv := fun ⟨hp, hw, hb, _, _, hbus⟩ => ⟨hp, State.warmMem_wf hw, State.warmMem_below hb, by simp, by simp, hbus⟩
  params := rfl
  busOrdered := rfl

/-- A STATUS write can only clear DONE. -/
theorem writeStatus_keepsInv (s : State) (v : Word) : KeepsInv s (s.writeStatus v) where
  inv := fun ⟨hp, hw, hb, he, hd, hbus⟩ => ⟨hp, hw, hb, he, fun hy => by simp [hd hy], hbus⟩
  params := rfl
  busOrdered := rfl

/-- A CMD write issues, which clears DONE, or sets OVR. -/
theorem writeCmd_keepsInv (s : State) (w : Word) : KeepsInv s (s.writeCmd w) := by
  cases hph : s.phase with
  | idle =>
    rw [State.writeCmd_idle s w hph]
    exact ⟨fun ⟨hp, hw, hb, he, _, hbus⟩ => ⟨hp, hw, hb, he, fun _ => rfl, hbus⟩, rfl, rfl⟩
  | busy =>
    rw [State.writeCmd_busy s w hph]
    exact ⟨id, rfl, rfl⟩

theorem setWord_keepsInv {s : State} {k : Nat} (hk : k < Params.windowWords s.params) (v : Word) :
    KeepsInv s { s with mem := s.mem.setWord k v } where
  inv := fun ⟨hp, hw, hb, he, hd, hbus⟩ =>
    ⟨hp, Memory.setWord_wf hw k v, Memory.setWord_below hb hk v, he, hd, hbus⟩
  params := rfl
  busOrdered := rfl

/-- A write of what the aperture's map names. -/
theorem writeTarget_keepsInv {s t : State} {o : BitVec 21} {v : Word}
    (h : writeTarget s v (target s.params o) = .ok t) : KeepsInv s t := by
  rcases writeTarget_ok h with rfl | rfl | rfl | rfl | ⟨_, _, rfl⟩ | ⟨k, hk, _, rfl⟩
  · exact .refl t
  · exact ⟨id, rfl, rfl⟩
  · exact writeStatus_keepsInv s v
  · exact writeCmd_keepsInv s v
  · exact ⟨id, rfl, rfl⟩
  · exact setWord_keepsInv (target_opmem_lt hk) v

theorem busAccess_keepsInv {s t : State} {a : BusAccess} (h : busAccess s a = .next t) : KeepsInv s t := by
  cases a with
  | read width o =>
    obtain ⟨v, rfl⟩ := busAccess_read_next h
    exact recordData_keepsInv s _
  | write width o v =>
    obtain ⟨u, hu, rfl⟩ := busAccess_write_next h
    exact (writeTarget_keepsInv hu).trans (recordData_keepsInv u none)

/-- Every step, whatever its event. -/
theorem step_keepsInv {s t : State} (h : step s = .next t) : KeepsInv s t := by
  refine (takeTurn_keepsInv s).trans ?_
  rcases step_next h with rfl | ⟨_, i, _, hx⟩ | ⟨_, c, rfl⟩ | rfl | rfl | ⟨a, n, ha⟩ | ⟨n, p, _, hw⟩ | ⟨g, rfl, hg⟩
  · exact .refl _
  · exact exec_keepsInv hx
  · exact completeErr_keepsInv _ c
  · exact powerOnReset_keepsInv _
  · exact warmReset_keepsInv _
  · exact (hostAt_keepsInv _ n).trans (busAccess_keepsInv ha)
  · exact (unpost_keepsInv _ n).trans (writeTarget_keepsInv (busWrite_ok hw))
  · exact setHost_keepsInv hg

end Sys2Proof.Machine

namespace Sys2Proof.Proofs

open Sys2Proof.Machine

/-- Settles O13: each kind of event `step_next` lists keeps the invariant. -/
theorem everyStepKeepsTheInvariant : Obligations.EveryStepKeepsTheInvariant := fun _ _ hs h =>
  have kept := step_keepsInv h
  ⟨kept.inv hs, kept.params, kept.busOrdered⟩

end Sys2Proof.Proofs
end

section
/-! SUPPORT. The block's state seen from the host and across a command: what a read and a write of each register do,
the frame of a command in OPMEM, the halves of a 64-bit limb, IRQ, and the state after reset. -/

namespace Sys2Proof.Machine

open Sys2Proof.Claims

/-! ### Descriptor files -/

/-- A 3-bit index is one of the eight (30_encoding R112). -/
theorem DIdx.eq_literal (i : DIdx) :
    i = 0#3 ∨ i = 1#3 ∨ i = 2#3 ∨ i = 3#3 ∨ i = 4#3 ∨ i = 5#3 ∨ i = 6#3 ∨ i = 7#3 := by
  revert i; decide

/-- After `x[k] <- v`, register k is v and the others are as before (00_scope R16). -/
theorem DFile.get_set (f : DFile) (k j : DIdx) (v : Word) : (f.set k v).get j = if j = k then v else f.get j := by
  rcases DIdx.eq_literal k with rfl | rfl | rfl | rfl | rfl | rfl | rfl | rfl <;>
    rcases DIdx.eq_literal j with rfl | rfl | rfl | rfl | rfl | rfl | rfl | rfl <;> rfl

@[simp] theorem DFile.get_set_same (f : DFile) (k : DIdx) (v : Word) : (f.set k v).get k = v := by
  rw [DFile.get_set, if_pos rfl]

theorem DFile.get_set_ne (f : DFile) {k j : DIdx} (v : Word) (h : j ≠ k) : (f.set k v).get j = f.get j := by
  rw [DFile.get_set, if_neg h]

@[simp] theorem DFile.get_zero (i : DIdx) : DFile.zero.get i = 0#32 := by
  rcases DIdx.eq_literal i with rfl | rfl | rfl | rfl | rfl | rfl | rfl | rfl <;> rfl

/-! ### A host access at an offset, from what stands there -/

/-- A multiple of 4 is one as an aperture offset. -/
theorem offset_aligned {o : Nat} (h : o % 4 = 0) : (BitVec.ofNat 21 o).toNat % 4 = 0 := by
  rw [BitVec.toNat_ofNat]; omega

theorem hostRead_eq_readNext {s : State} {o : Nat} {v : Word} (h4 : o % 4 = 0)
    (h : readTarget s (target s.params (BitVec.ofNat 21 o)) = .ok v) : hostRead s o = readNext s v := by
  rw [hostRead, busAccess_read (offset_aligned h4), h]
  rfl

theorem hostWrite_eq_wroteNext {s t : State} {o : Nat} {v : Word} (h4 : o % 4 = 0)
    (h : writeTarget s v (target s.params (BitVec.ofNat 21 o)) = .ok t) : hostWrite s o v = wroteNext t := by
  rw [hostWrite, busAccess_write (offset_aligned h4), h]
  rfl

/-! ### The registers (10_state R31 to R41) -/

theorem hostRead_id (s : State) : hostRead s 0x000 = readNext s Config.idValue := hostRead_eq_readNext rfl rfl
theorem hostRead_cfg (s : State) : hostRead s 0x004 = readNext s (Params.cfgWord s.params) :=
  hostRead_eq_readNext rfl rfl
theorem hostRead_ctrl (s : State) : hostRead s 0x008 = readNext s s.ctrlWord := hostRead_eq_readNext rfl rfl
theorem hostRead_status (s : State) : hostRead s 0x00C = readNext s s.statusWord := hostRead_eq_readNext rfl rfl
theorem hostRead_cmd (s : State) : hostRead s 0x010 = readNext s s.lcmd := hostRead_eq_readNext rfl rfl
theorem hostRead_result (s : State) : hostRead s 0x014 = readNext s s.result := hostRead_eq_readNext rfl rfl
theorem hostRead_memSize (s : State) : hostRead s 0x018 = readNext s (Params.memSizeWord s.params) :=
  hostRead_eq_readNext rfl rfl

theorem hostRead_desc (s : State) (k : DIdx) : hostRead s (0x020 + 4 * k.toNat) = readNext s (s.d.get k) :=
  hostRead_eq_readNext (by omega) (by rw [target_desc]; rfl)

theorem hostWrite_ctrl (s : State) (v : Word) : hostWrite s 0x008 v = wroteNext (s.writeCtrl v) :=
  hostWrite_eq_wroteNext rfl rfl
theorem hostWrite_status (s : State) (v : Word) : hostWrite s 0x00C v = wroteNext (s.writeStatus v) :=
  hostWrite_eq_wroteNext rfl rfl
theorem hostWrite_cmd (s : State) (w : Word) : hostWrite s 0x010 w = wroteNext (s.writeCmd w) :=
  hostWrite_eq_wroteNext rfl rfl

theorem hostWrite_desc (s : State) (k : DIdx) (v : Word) :
    hostWrite s (0x020 + 4 * k.toNat) v = wroteNext { s with d := s.d.set k v } :=
  hostWrite_eq_wroteNext (by omega) (by rw [target_desc]; rfl)

/-- ID, CFG, RESULT and MEMSIZE ignore writes. -/
theorem hostWrite_readOnly (s : State) (v : Word) {o : Nat} (h : o = 0x000 ∨ o = 0x004 ∨ o = 0x014 ∨ o = 0x018) :
    hostWrite s o v = wroteNext s := by
  rcases h with rfl | rfl | rfl | rfl <;> exact hostWrite_eq_wroteNext rfl rfl

/-- The offsets 10_state R32 and 20_memory R82 reserve are those the aperture's map does not use. -/
theorem target_reservedOffset {p : Params} {o : Nat} (h : o < 2 ^ 21) (hr : ReservedOffset p o) :
    target p (BitVec.ofNat 21 o) = .reserved := by
  obtain ⟨h4, hr⟩ := hr
  rw [← LimbBits.words_eq, Nat.mul_assoc] at hr
  exact target_reserved h h4 (hr.imp_right fun hr => hr.imp_right And.left)

theorem hostRead_reserved {s : State} {o : Nat} (h : o < 2 ^ 21) (hr : ReservedOffset s.params o) :
    hostRead s o = readNext s 0#32 :=
  hostRead_eq_readNext hr.1 (by rw [target_reservedOffset h hr]; rfl)

theorem hostWrite_reserved {s : State} {o : Nat} (v : Word) (h : o < 2 ^ 21) (hr : ReservedOffset s.params o) :
    hostWrite s o v = wroteNext s :=
  hostWrite_eq_wroteNext hr.1 (by rw [target_reservedOffset h hr]; rfl)

/-- A write to CTRL is one with its reserved bits 0 (10_state R32). -/
theorem State.writeCtrl_and_one (s : State) (v : Word) : s.writeCtrl (v &&& 1#32) = s.writeCtrl v := by
  simp [State.writeCtrl]

/-- A write to STATUS is one with every bit but DONE's and OVR's 0 (10_state R32, R37). -/
theorem State.writeStatus_and_six (s : State) (v : Word) : s.writeStatus (v &&& 6#32) = s.writeStatus v := by
  simp [State.writeStatus]

/-! ### The frame of a command in OPMEM -/

theorem Memory.byte?_writeDst_outside {m : Memory} {w : LimbBits} {dst : Option Word} {a : Nat}
    (h : ∀ d, dst = some d → ¬ InByteRange w d a) (v : Nat) : (m.writeDst w dst v).byte? a = m.byte? a := by
  cases dst with
  | none => rfl
  | some d =>
    have hd := h d rfl
    exact Memory.byte?_memWrite_outside w _ m _ v a (by omega)

theorem Memory.byte?_dropScratch_outside {m : Memory} {w : LimbBits} {scr : Option Word} {a : Nat}
    (h : ∀ d, scr = some d → ¬ InByteRange w d a) : (m.dropScratch w scr).byte? a = m.byte? a := by
  cases scr with
  | none => rfl
  | some d =>
    have hd := h d rfl
    rw [InByteRange, Nat.add_mul] at hd
    exact Memory.byte?_undefine_outside m (by omega)

/-- A completion with a result changes no byte outside the ranges the command writes. -/
theorem WritesOk.byte?_completeOk {i : Instr} {s : State} {r : Done} (hr : WritesOk i s r) {a : Nat}
    (ha : ∀ f ∈ writtenFields i, ¬ InByteRange s.params.limbBits (s.ld.get f) a) :
    (s.completeOk r).mem.byte? a = s.mem.byte? a := by
  have outside : ∀ d ∈ (writtenFields i).map s.ld.get, ¬ InByteRange s.params.limbBits d a := by
    simpa only [List.forall_mem_map] using ha
  rw [State.completeOk_mem, Memory.byte?_dropScratch_outside fun d hd => outside d (hr.scratch d hd),
    Memory.byte?_writeDst_outside fun d hd => outside d (hr.dst d hd).1]

/-! ### The halves of a 64-bit limb (20_memory R82) -/

/-- A value of j + k bytes is put together from its low j and its high k. -/
theorem Memory.readBytes_add {m : Memory} {k y : Nat} (j : Nat) : ∀ {a x : Nat}, m.readBytes a j = some x →
    m.readBytes (a + j) k = some y → m.readBytes a (j + k) = some (x + 256 ^ j * y) := by
  induction j with
  | zero =>
    intro a x hx hy
    simp only [Memory.readBytes, Option.some.injEq] at hx
    simpa [← hx] using hy
  | succ j ih =>
    intro a x hx hy
    rw [show j + 1 + k = j + k + 1 by omega]
    simp only [Memory.readBytes] at hx ⊢
    split at hx
    · rename_i b r hb hr
      rw [hb, ih hr (by rwa [show a + 1 + j = a + (j + 1) by omega])]
      simp only [Option.some.injEq] at hx ⊢
      rw [← hx, Nat.pow_succ']
      ring
    · cases hx

/-- A range with an undefined byte has no value. -/
theorem Memory.readBytes_none {m : Memory} {b : Nat} (hb : m.byte? b = none) (n : Nat) : ∀ {a : Nat}, a ≤ b →
    b < a + n → m.readBytes a n = none := by
  induction n with
  | zero => intro a h1 h2; omega
  | succ n ih =>
    intro a h1 h2
    rcases Nat.eq_or_lt_of_le h1 with rfl | h1
    · simp [Memory.readBytes, hb]
    · simp [Memory.readBytes, ih h1 (by omega)]

/-- A window word holds what was stored in it. -/
theorem Memory.readBytes_setWord_same (m : Memory) (k : Nat) (v : Word) :
    (m.setWord k v).readBytes (4 * k) 4 = some v.toNat := by
  rw [Memory.setWord, Memory.readBytes_writeBytes, Nat.mod_eq_of_lt (show v.toNat < 256 ^ 4 from v.isLt)]

theorem Memory.byte?_setWord_outside (m : Memory) {k a : Nat} (v : Word) (h : a < 4 * k ∨ 4 * k + 4 ≤ a) :
    (m.setWord k v).byte? a = m.byte? a :=
  Memory.byte?_writeBytes_outside _ _ _ _ _ h

/-- Another window word is as before. -/
theorem Memory.readBytes_setWord_ne (m : Memory) {k k' : Nat} (v : Word) (h : k' ≠ k) :
    (m.setWord k v).readBytes (4 * k') 4 = m.readBytes (4 * k') 4 :=
  Memory.readBytes_congr _ _ _ _ fun _ _ _ => Memory.byte?_setWord_outside m v (by omega)

/-- A 64-bit limb from its two window words. -/
theorem Memory.limb?_w64_of_halves {m : Memory} {a lo hi : Nat} (hlo : m.readBytes (4 * (2 * a)) 4 = some lo)
    (hhi : m.readBytes (4 * (2 * a + 1)) 4 = some hi) : m.limb? .w64 a = some (hi * 2 ^ 32 + lo) := by
  rw [show 4 * (2 * a) = a * 8 by omega] at hlo
  rw [show 4 * (2 * a + 1) = a * 8 + 4 by omega] at hhi
  calc m.limb? .w64 a = some (lo + 256 ^ 4 * hi) := Memory.readBytes_add 4 hlo hhi
    _ = some (hi * 2 ^ 32 + lo) := by congr 1; omega

/-- A 64-bit limb with an undefined byte is undefined (10_state R51). -/
theorem Memory.limb?_w64_none {m : Memory} {a b : Nat} (hb : b < 8) (h : m.byte? (8 * a + b) = none) :
    m.limb? .w64 a = none :=
  show m.readBytes (a * 8) 8 = none from Memory.readBytes_none h 8 (by omega) (by omega)

/-! ### The values read -/

/-- CFG's fields (10_state R34). -/
theorem Params.cfgWord_fields (p : Params) : (Params.cfgWord p).extractLsb' 0 8 = BitVec.ofNat 8 p.limbBits.bits
    ∧ (Params.cfgWord p).extractLsb' 8 8 = 0#8 ∧ (Params.cfgWord p).extractLsb' 16 16 = BitVec.ofNat 16 p.maxModLimbs :=
  ⟨BitVec.extractLsb'_append_eq_right,
    (BitVec.extractLsb'_append_eq_of_le (by decide)).trans BitVec.extractLsb'_append_eq_right,
    (BitVec.extractLsb'_append_eq_of_le (by decide)).trans BitVec.extractLsb'_append_eq_left⟩

theorem State.ctrlWord_fields (s : State) : s.ctrlWord.getLsbD 0 = s.ie ∧ s.ctrlWord.extractLsb' 1 31 = 0#31 :=
  ⟨BitVec.getLsbD_append.trans (by simp), BitVec.extractLsb'_append_eq_left⟩

/-- Four flags below other fields, each at its bit. -/
theorem getLsbD_append_flags {n : Nat} (hi : BitVec n) (b3 b2 b1 b0 : Bool) (i : Nat) (h : i < 4) :
    (hi ++ BitVec.ofBool b3 ++ BitVec.ofBool b2 ++ BitVec.ofBool b1 ++ BitVec.ofBool b0).getLsbD i
      = [b0, b1, b2, b3][i] := by
  match i, h with
  | 0, _ | 1, _ | 2, _ | 3, _ => simp [BitVec.getElem_append]

/-- A field above four flags. -/
theorem extractLsb'_append_flags {n : Nat} (hi : BitVec n) (b3 b2 b1 b0 : Bool) (start len : Nat) :
    (hi ++ BitVec.ofBool b3 ++ BitVec.ofBool b2 ++ BitVec.ofBool b1 ++ BitVec.ofBool b0).extractLsb' (start + 4) len
      = hi.extractLsb' start len := by
  simp [BitVec.extractLsb'_append_eq_of_le]

/-- STATUS's flags (10_state R36). -/
theorem State.statusWord_flags (s : State) : s.statusWord.getLsbD 0 = s.isBusy ∧ s.statusWord.getLsbD 1 = s.done
    ∧ s.statusWord.getLsbD 2 = s.ovr ∧ s.statusWord.getLsbD 3 = s.err :=
  have flag := getLsbD_append_flags (0#16 ++ s.errcode ++ 0#4) s.err s.ovr s.done s.isBusy
  ⟨flag 0 (by decide), flag 1 (by decide), flag 2 (by decide), flag 3 (by decide)⟩

/-- STATUS's fields above the flags (10_state R36). -/
theorem State.statusWord_fields (s : State) : s.statusWord.extractLsb' 4 4 = 0#4
    ∧ s.statusWord.extractLsb' 8 8 = s.errcode ∧ s.statusWord.extractLsb' 16 16 = 0#16 := by
  have field := extractLsb'_append_flags (0#16 ++ s.errcode ++ 0#4) s.err s.ovr s.done s.isBusy
  refine ⟨(field 0 4).trans ?_, (field 4 8).trans ?_, (field 12 16).trans ?_⟩
  · exact BitVec.extractLsb'_append_eq_right
  · exact (BitVec.extractLsb'_append_eq_of_le (by decide)).trans BitVec.extractLsb'_append_eq_right
  · exact (BitVec.extractLsb'_append_eq_of_le (by decide)).trans BitVec.extractLsb'_append_eq_left
/-- CTRL reads 0 with the interrupt disabled. -/
theorem State.ctrlWord_eq_zero {s : State} (h : s.ie = false) : s.ctrlWord = 0#32 := by
  rw [State.ctrlWord, h]
  decide

/-- An IDLE block with no flag and no code reads STATUS as 0. -/
theorem State.statusWord_eq_zero {s : State} (hp : s.phase = .idle) (hd : s.done = false) (ho : s.ovr = false)
    (he : s.errcode = 0#8) : s.statusWord = 0#32 := by
  rw [State.statusWord, State.err, State.isBusy, hp, hd, ho, he]
  decide

/-- W fits CFG's field. -/
theorem LimbBits.bits_lt (w : LimbBits) : w.bits < 2 ^ 8 := by cases w <;> decide

theorem State.isBusy_iff (s : State) : s.isBusy = true ↔ s.phase = .busy := by simp [State.isBusy]

theorem State.err_iff (s : State) : s.err = true ↔ s.errcode ≠ 0#8 := by simp [State.err]

/-! ### IRQ (10_state R42) -/

theorem State.irq_iff (s : State) : s.irq = true ↔ s.ie = true ∧ s.done = true := by simp [State.irq]

theorem State.irq_completeOk (s : State) (r : Done) : (s.completeOk r).irq = s.ie := Bool.and_true _

theorem State.irq_completeErr (s : State) (c : ErrCode) : (s.completeErr c).irq = s.ie := Bool.and_true _

theorem State.irq_issue (s : State) (w : Word) : (s.issue w).irq = false := Bool.and_false _

theorem State.irq_writeStatus_clear (s : State) {v : Word} (h : v.getLsbD 1 = true) :
    (s.writeStatus v).irq = false := by
  rw [State.irq, State.writeStatus_done, h, Bool.not_true, Bool.and_false, Bool.and_false]

theorem State.irq_writeCtrl_disable (s : State) {v : Word} (h : v.getLsbD 0 = false) :
    (s.writeCtrl v).irq = false := by
  rw [State.irq, State.writeCtrl_ie, h, Bool.false_and]

/-- What a completed write left, from the state `hostWrite`'s rule names. -/
theorem eq_of_wroteNext {t u : State} (h : wroteNext t = .next u) : u = t.recordData none := by
  cases h
  rfl

/-! ### Reset -/

/-- The reset state meets the invariant for every legal choice of the parameters. -/
theorem State.resetWith_inv {p : Params} (hp : p.Legal) : (State.resetWith p).Inv :=
  ⟨hp, List.Pairwise.nil, by simp [State.resetWith], by simp [State.resetWith], by simp [State.resetWith],
    fun _ => rfl⟩

theorem Config.defaultParams_legal : Config.defaultParams.Legal := by decide

/-- Power-on reset is a turn of its own (70_reset_and_hazards R350). -/
theorem step_powerOn {s : State} {rest : List Turn} (h : s.turns = .powerOn :: rest) :
    step s = .next s.takeTurn.powerOnReset := by
  simp [step, State.nextTurn, h, runTurn]

/-- With no cell listed every limb is undefined. -/
theorem Memory.limb?_nil (w : LimbBits) (a : Nat) : Memory.limb? [] w a = none := by cases w <;> rfl

end Sys2Proof.Machine

namespace Sys2Proof.Proofs

open Sys2Proof.Machine Sys2Proof.Claims

/-- Settles O10: a completion with a result writes only the written fields' ranges, one with an error none. -/
theorem frameOfEveryCommand : Obligations.FrameOfEveryCommand := by
  intro i s t h
  rcases exec_next h with ⟨r, hr, rfl⟩ | ⟨c, rfl⟩
  · exact ⟨rfl, rfl, rfl, rfl, rfl, rfl, rfl, rfl, rfl, rfl, ErrCode.code_le .ok, fun a => hr.byte?_completeOk⟩
  · exact ⟨rfl, rfl, rfl, rfl, rfl, rfl, rfl, rfl, rfl, rfl, c.code_le, fun _ _ => rfl⟩

/-- Settles O21, by the rules of the descriptor file. -/
theorem descriptorRegistersHoldWhatIsWritten : Obligations.DescriptorRegistersHoldWhatIsWritten := fun s k v =>
  ⟨s.d.set k v, hostWrite_desc s k v, s.d.get_set_same k v, fun _ hj => s.d.get_set_ne v hj, hostRead_desc s k⟩

/-- Settles O22: a reserved offset has no register behind it, and a reserved bit is not looked at. -/
theorem reservedOffsetsReadZeroAndIgnoreWrites : Obligations.ReservedOffsetsReadZeroAndIgnoreWrites := by
  intro s v
  refine ⟨fun o ho hr => ⟨hostRead_reserved ho hr, hostWrite_reserved v ho hr⟩, ?_, ?_⟩
  · rw [hostWrite_ctrl, hostWrite_ctrl, s.writeCtrl_and_one]
  · rw [hostWrite_status, hostWrite_status, s.writeStatus_and_six]

/-- Settles O24: after one half is written the first byte of the other is undefined, and the second write leaves the
first half as it is. -/
theorem halfWrittenLimbIsUndefined : Obligations.HalfWrittenLimbIsUndefined := by
  intro m a lo hi h
  refine ⟨?_, ?_, ?_, ?_⟩
  · exact Memory.limb?_w64_none (b := 4) (by omega)
      ((Memory.byte?_setWord_outside m lo (by omega)).trans (h 4 (by omega)))
  · exact Memory.limb?_w64_none (b := 0) (by omega)
      ((Memory.byte?_setWord_outside m hi (by omega)).trans (h 0 (by omega)))
  · exact Memory.limb?_w64_of_halves
      ((Memory.readBytes_setWord_ne _ hi (by omega)).trans (Memory.readBytes_setWord_same m _ lo))
      (Memory.readBytes_setWord_same _ _ hi)
  · exact Memory.limb?_w64_of_halves (Memory.readBytes_setWord_same _ _ lo)
      ((Memory.readBytes_setWord_ne _ lo (by omega)).trans (Memory.readBytes_setWord_same m _ hi))

/-- Settles O30: IRQ after each event, from IE and DONE after it. -/
theorem irqFollowsDoneAndEnable : Obligations.IrqFollowsDoneAndEnable := by
  intro s
  refine ⟨s.irq_iff, fun i t h => ?completion, fun w hp t h => ?issue, fun w hp t h => ?discarded,
    fun v t hv h => ?clearDone, fun v t hv h => ?clearEnable⟩
  case completion =>
    rcases exec_next h with ⟨r, -, rfl⟩ | ⟨c, rfl⟩
    · exact s.irq_completeOk r
    · exact s.irq_completeErr c
  case issue =>
    rw [hostWrite_cmd, State.writeCmd_idle s w hp] at h
    obtain rfl := eq_of_wroteNext h
    exact s.irq_issue w
  case discarded =>
    rw [hostWrite_cmd, State.writeCmd_busy s w hp] at h
    obtain rfl := eq_of_wroteNext h
    rfl
  case clearDone =>
    rw [hostWrite_status] at h
    obtain rfl := eq_of_wroteNext h
    exact s.irq_writeStatus_clear hv
  case clearEnable =>
    rw [hostWrite_ctrl] at h
    obtain rfl := eq_of_wroteNext h
    exact ⟨s.irq_writeCtrl_disable hv, rfl⟩

/-- Settles O14. -/
theorem resetMeetsTheInvariant : Obligations.ResetMeetsTheInvariant :=
  ⟨State.resetWith_inv Config.defaultParams_legal, fun _ => State.resetWith_inv⟩

/-- Settles O15: the turn is `State.powerOnReset` of the state with the turn taken. -/
theorem powerOnResetGivesTheResetValues : Obligations.PowerOnResetGivesTheResetValues := by
  intro s rest h
  refine ⟨s.takeTurn.powerOnReset, step_powerOn h, rfl, rfl, fun i => ⟨DFile.get_zero i, DFile.get_zero i⟩,
    State.ctrlWord_eq_zero rfl, State.statusWord_eq_zero rfl rfl rfl rfl, rfl, rfl, rfl,
    fun a => Memory.limb?_nil _ a, rfl, ?_⟩
  rw [State.powerOnReset_turns, State.takeTurn_turns, h, List.tail_cons]

/-- Settles O17: the values of legal parameters fit their fields. -/
theorem readOnlyRegistersRead : Obligations.ReadOnlyRegistersRead := by
  intro s ⟨_, hmem, _, hmod⟩
  obtain ⟨hbits, hzero, hmax⟩ := Params.cfgWord_fields s.params
  refine ⟨Params.cfgWord s.params, Params.memSizeWord s.params, hostRead_id s, hostRead_cfg s, ?_, hzero, ?_,
    hostRead_memSize s, ?_, hostRead_result s, hostRead_cmd s, fun v o => hostWrite_readOnly s v⟩
  · rw [hbits, BitVec.toNat_ofNat, Nat.mod_eq_of_lt (LimbBits.bits_lt _)]
  · rw [hmax, BitVec.toNat_ofNat, Nat.mod_eq_of_lt (by omega)]
  · rw [Params.memSizeWord, BitVec.toNat_ofNat, Nat.mod_eq_of_lt (by omega)]

/-- Settles O18. -/
theorem ctrlHoldsTheInterruptEnable : Obligations.CtrlHoldsTheInterruptEnable := fun s v =>
  ⟨hostWrite_ctrl s v, s.ctrlWord, hostRead_ctrl s, s.ctrlWord_fields⟩

/-- Settles O19. -/
theorem statusReadsItsFields : Obligations.StatusReadsItsFields := by
  intro s
  obtain ⟨hbusy, hdone, hovr, herr⟩ := s.statusWord_flags
  exact ⟨s.statusWord, hostRead_status s, hbusy ▸ s.isBusy_iff, hdone, hovr, herr ▸ s.err_iff, s.statusWord_fields⟩

/-- Settles O20. -/
theorem statusWriteClearsDoneAndOvr : Obligations.StatusWriteClearsDoneAndOvr := by
  intro s v
  rw [hostWrite_status, State.writeStatus]
  cases v.getLsbD 1 <;> cases v.getLsbD 2 <;> simp

end Sys2Proof.Proofs
end

section
/-! SUPPORT. The OPMEM window of the bus: the bytes of a window word and the halves of a defined 64-bit limb, and which
host accesses are BusError. -/

namespace Sys2Proof.Machine

open Sys2Proof.Claims

/-! ### The words of the window (20_memory R82) -/

/-- Byte b of a word as a digit and as a field. -/
theorem ofNat_div_eq_extractLsb' (v : Word) (b : Nat) : BitVec.ofNat 8 (v.toNat / 256 ^ b) = v.extractLsb' (8 * b) 8 := by
  rw [BitVec.extractLsb', Nat.shiftRight_eq_div_pow, Nat.pow_mul]

theorem Memory.byte?_setWord_inside (m : Memory) (k : Nat) (v : Word) {b : Nat} (hb : b < 4) :
    (m.setWord k v).byte? (4 * k + b) = some (v.extractLsb' (8 * b) 8) := by
  rw [Memory.setWord, Memory.byte?_writeBytes_inside _ _ _ _ _ hb, ofNat_div_eq_extractLsb']

/-- For W = 32 the window word is the limb. -/
theorem Memory.limb?_w32_setWord (m : Memory) (k : Nat) (v : Word) : (m.setWord k v).limb? .w32 k = some v.toNat := by
  have e : k * LimbBits.w32.bytes = 4 * k := Nat.mul_comm k 4
  rw [Memory.limb?, e]
  exact Memory.readBytes_setWord_same m k v

/-- A value of j + k bytes comes apart into its low j and its high k. -/
theorem Memory.readBytes_split {m : Memory} {k : Nat} (j : Nat) : ∀ {a x : Nat}, m.readBytes a (j + k) = some x →
    m.readBytes a j = some (x % 256 ^ j) ∧ m.readBytes (a + j) k = some (x / 256 ^ j) := by
  induction j with
  | zero =>
    intro a x h
    rw [Nat.zero_add] at h
    simp [Memory.readBytes, Nat.mod_one, h]
  | succ j ih =>
    intro a x h
    rw [Nat.add_right_comm] at h
    simp only [Memory.readBytes] at h ⊢
    split at h
    · rename_i b r hb hr
      obtain ⟨hlo, hhi⟩ := ih hr
      obtain rfl := Option.some.inj h
      have hlt : b.toNat < 256 := b.isLt
      have hmod : (b.toNat + 256 * r) % 256 = b.toNat := by omega
      have hdiv : (b.toNat + 256 * r) / 256 = r := by omega
      rw [hb, hlo, Nat.pow_succ', Nat.mod_mul, ← Nat.div_div_eq_div_mul, hmod, hdiv, ← hhi, Nat.add_right_comm]
      exact ⟨rfl, rfl⟩
    · cases h

/-- The two window words of a defined 64-bit limb. -/
theorem Memory.halves_of_limb?_w64 {m : Memory} {a l : Nat} (h : m.limb? .w64 a = some l) :
    m.readBytes (4 * (2 * a)) 4 = some (l % 2 ^ 32) ∧ m.readBytes (4 * (2 * a + 1)) 4 = some (l / 2 ^ 32) := by
  rw [show 4 * (2 * a) = a * 8 by omega, show 4 * (2 * a + 1) = a * 8 + 4 by omega]
  exact Memory.readBytes_split 4 h

/-- A write of the low half of a defined 64-bit limb keeps its high half. -/
theorem Memory.limb?_w64_setWord_low {m : Memory} {a l : Nat} (h : m.limb? .w64 a = some l) (v : Word) :
    (m.setWord (2 * a) v).limb? .w64 a = some (l / 2 ^ 32 * 2 ^ 32 + v.toNat) :=
  Memory.limb?_w64_of_halves (Memory.readBytes_setWord_same m _ v)
    ((Memory.readBytes_setWord_ne m v (by omega)).trans (Memory.halves_of_limb?_w64 h).2)

/-- A write of the high half of a defined 64-bit limb keeps its low half. -/
theorem Memory.limb?_w64_setWord_high {m : Memory} {a l : Nat} (h : m.limb? .w64 a = some l) (v : Word) :
    (m.setWord (2 * a + 1) v).limb? .w64 a = some (v.toNat * 2 ^ 32 + l % 2 ^ 32) :=
  Memory.limb?_w64_of_halves ((Memory.readBytes_setWord_ne m v (by omega)).trans (Memory.halves_of_limb?_w64 h).1)
    (Memory.readBytes_setWord_same m _ v)

/-- A write of either half of a defined 64-bit limb keeps the other. -/
theorem Memory.limb?_w64_setWord {m : Memory} {k l : Nat} (h : m.limb? .w64 (k / 2) = some l) (v : Word) :
    (m.setWord k v).limb? .w64 (k / 2) = some (if k % 2 = 0 then l / 2 ^ 32 * 2 ^ 32 + v.toNat
      else v.toNat * 2 ^ 32 + l % 2 ^ 32) := by
  split
  case isTrue hk =>
    have low := Memory.limb?_w64_setWord_low h v
    rwa [show 2 * (k / 2) = k by omega] at low
  case isFalse hk =>
    have high := Memory.limb?_w64_setWord_high h v
    rwa [show 2 * (k / 2) + 1 = k by omega] at high

/-- A window word of a defined limb is its 32 bits of the limb, low half first. -/
theorem Memory.word?_of_limb? {m : Memory} {w : LimbBits} {k l : Nat} (h : m.limb? w (k / w.words) = some l) :
    m.word? w k = some (BitVec.ofNat 32 (l / 2 ^ (32 * (k % w.words)) % 2 ^ 32)) := by
  rw [Memory.word?, h, ← BitVec.toNat_ofNat, BitVec.ofNat_toNat, BitVec.setWidth_eq]

/-- The host reads a word of a defined limb while IDLE. -/
theorem hostRead_window {s : State} {k : Nat} {v : Word} (hi : s.phase = .idle) (hp : s.params.Legal)
    (hk : k < Params.windowWords s.params) (h : s.mem.word? s.params.limbBits k = some v) :
    hostRead s (0x100000 + 4 * k) = readNext s v :=
  hostRead_eq_readNext (by omega) (by rw [target_opmem hp hk, readTarget, hi, h])

/-- The host writes an implemented window word while IDLE. -/
theorem hostWrite_window {s : State} {k : Nat} (hi : s.phase = .idle) (hp : s.params.Legal)
    (hk : k < Params.windowWords s.params) (v : Word) :
    hostWrite s (0x100000 + 4 * k) v = wroteNext { s with mem := s.mem.setWord k v } :=
  hostWrite_eq_wroteNext (by omega) (by rw [target_opmem hp hk, writeTarget, hi])

/-! ### The accesses that are BusError (20_memory R83) -/

theorem accessOk_not_iff {width : BusWidth} {o : BitVec 21} :
    ¬ accessOk width o = true ↔ width ≠ .b32 ∨ o.toNat % 4 ≠ 0 := by
  rw [accessOk_iff, not_and_or]

/-- No target of the aperture answers a read with BusError. -/
theorem readTarget_ne_busError (s : State) (g : Target) : readTarget s g ≠ .error .busError := by
  cases g with
  | opmem k =>
    rw [readTarget]
    split <;> simp
  | id | cfg | ctrl | status | cmd | result | memSize | desc | reserved => simp [readTarget]

/-- No target of the aperture answers a write with BusError. -/
theorem writeTarget_ne_busError (s : State) (v : Word) (g : Target) : writeTarget s v g ≠ .error .busError := by
  cases g with
  | opmem k =>
    rw [writeTarget]
    split <;> simp
  | id | cfg | ctrl | status | cmd | result | memSize | desc | reserved => simp [writeTarget]

theorem busWrite_busError_iff {s : State} {width : BusWidth} {o : BitVec 21} {v : Word} :
    busWrite s width o v = .error .busError ↔ ¬ accessOk width o = true := by
  rw [busWrite]
  split
  case isTrue ok => simp [ok, writeTarget_ne_busError]
  case isFalse ok => simp [ok]

theorem busAccess_read_busError_iff {s : State} {width : BusWidth} {o : BitVec 21} :
    busAccess s (.read width o) = .fault .busError ↔ ¬ accessOk width o = true := by
  rw [busAccess]
  split
  case isTrue ok =>
    split
    · simp [ok]
    · rename_i f hf
      have hne : f ≠ .busError := fun e => readTarget_ne_busError s _ (e ▸ hf)
      simp [ok, hne]
  case isFalse ok => simp [ok]

theorem busAccess_write_busError_iff {s : State} {width : BusWidth} {o : BitVec 21} {v : Word} :
    busAccess s (.write width o v) = .fault .busError ↔ ¬ accessOk width o = true := by
  rw [busAccess, ← busWrite_busError_iff (s := s) (v := v)]
  split <;> simp [*]

end Sys2Proof.Machine

namespace Sys2Proof.Proofs

open Sys2Proof.Machine

/-- Settles O23: a word of the window is four bytes of OPMEM, the limb itself for W = 32 and a half of it for W = 64. -/
theorem windowWordsAreLimbHalves : Obligations.WindowWordsAreLimbHalves := by
  intro s k hi hp hk
  rw [← LimbBits.words_eq] at hk ⊢
  refine ⟨fun l hl => hostRead_window hi hp hk (Memory.word?_of_limb? hl), ?_⟩
  rintro v _ rfl
  exact ⟨hostWrite_window hi hp hk v, fun b => s.mem.byte?_setWord_inside k v, fun _ => s.mem.limb?_w32_setWord k v,
    fun _ l hl => Memory.limb?_w64_setWord hl v, fun a => s.mem.byte?_setWord_outside v⟩

/-- Settles O25. -/
theorem readsHaveNoSideEffect : Obligations.ReadsHaveNoSideEffect := fun _ _ _ _ => busAccess_read_next

/-- Settles O26: an access that is not allowed is BusError before its target is looked at, and no target answers
BusError. -/
theorem onlyAlignedWordAccessesAreAllowed : Obligations.OnlyAlignedWordAccessesAreAllowed := fun _ _ _ _ =>
  ⟨busAccess_read_busError_iff.trans accessOk_not_iff, busAccess_write_busError_iff.trans accessOk_not_iff⟩

end Sys2Proof.Proofs
end

section
/-! SUPPORT. The command word as its opcode and fields, what one row of the opcode map reads from it, and the decoder
by rows (30_encoding R111 to R124). -/

namespace Sys2Proof

open Sys2Proof.Machine Sys2Proof.Laws Sys2Proof.Claims

/-! ### A word is its opcode and its fields (R111) -/

/-- A digit above a value that fits below it. -/
theorem toNat_append_eq {m n : Nat} (x : BitVec m) (y : BitVec n) :
    (x ++ y).toNat = x.toNat * 2 ^ n + y.toNat := by
  rw [BitVec.toNat_append, ← Nat.shiftLeft_add_eq_or_of_lt y.isLt, Nat.shiftLeft_eq]

theorem toNat_wordOf (op : Byte) (f : Fields) : (wordOf op f).toNat = op.toNat + f.rd.toNat * 2 ^ 8 + f.ra.toNat * 2 ^ 11
    + f.rb.toNat * 2 ^ 14 + f.rc.toNat * 2 ^ 17 + f.rs.toNat * 2 ^ 20 + f.rx.toNat * 2 ^ 23 + f.ry.toNat * 2 ^ 26
    + f.win.toNat * 2 ^ 29 := by
  simp only [wordOf, toNat_append_eq]
  omega

theorem toNat_opOf (w : Word) : (opOf w).toNat = w.toNat % 2 ^ 8 := BitVec.extractLsb'_toNat 0 8 w

/-- A 3-bit field as a digit of the word. -/
theorem toNat_field (w : Word) (start : Nat) : (w.extractLsb' start 3).toNat = w.toNat / 2 ^ start % 8 := by
  rw [BitVec.extractLsb'_toNat, Nat.shiftRight_eq_div_pow]

theorem fieldsOf_wordOf (op : Byte) (f : Fields) : fieldsOf (wordOf op f) = f := by
  obtain ⟨rd, ra, rb, rc, rs, rx, ry, win⟩ := f
  simp only [fieldsOf, Fields.mk.injEq, ← BitVec.toNat_inj, toNat_field, toNat_wordOf]
  omega

theorem wordOf_opOf_fieldsOf (w : Word) : wordOf (opOf w) (fieldsOf w) = w := by
  apply BitVec.eq_of_toNat_eq
  simp only [toNat_wordOf, fieldsOf, toNat_field, toNat_opOf]
  omega

theorem word_ext {w w' : Word} (hop : opOf w = opOf w') (hf : fieldsOf w = fieldsOf w') : w = w' := by
  rw [← wordOf_opOf_fieldsOf w, hop, hf, wordOf_opOf_fieldsOf]

/-- The fields of a word under a mask. -/
def Fields.and (f u : Fields) : Fields :=
  ⟨f.rd &&& u.rd, f.ra &&& u.ra, f.rb &&& u.rb, f.rc &&& u.rc, f.rs &&& u.rs, f.rx &&& u.rx, f.ry &&& u.ry,
    f.win &&& u.win⟩

/-- The fields of a word outside a mask, the others set to 0. -/
def Fields.clear (f u : Fields) : Fields :=
  ⟨f.rd &&& ~~~u.rd, f.ra &&& ~~~u.ra, f.rb &&& ~~~u.rb, f.rc &&& ~~~u.rc, f.rs &&& ~~~u.rs, f.rx &&& ~~~u.rx,
    f.ry &&& ~~~u.ry, f.win &&& ~~~u.win⟩

/-- Every field 0. -/
def Fields.zero : Fields := ⟨0#3, 0#3, 0#3, 0#3, 0#3, 0#3, 0#3, 0#3⟩

/-- Clearing fields that are 0 already changes nothing. -/
theorem Fields.clear_eq_self {f u : Fields} (h : f.and u = .zero) : f.clear u = f := by
  have key : ∀ x y : BitVec 3, x &&& y = 0#3 → x &&& ~~~y = x := by decide
  simp only [Fields.and, Fields.zero, Fields.mk.injEq] at h
  obtain ⟨hrd, hra, hrb, hrc, hrs, hrx, hry, hwin⟩ := h
  simp only [Fields.clear, key _ _ hrd, key _ _ hra, key _ _ hrb, key _ _ hrc, key _ _ hrs, key _ _ hrx, key _ _ hry,
    key _ _ hwin]

theorem opOf_and (w v : Word) : opOf (w &&& v) = opOf w &&& opOf v := BitVec.extractLsb'_and

theorem fieldsOf_and (w v : Word) : fieldsOf (w &&& v) = (fieldsOf w).and (fieldsOf v) := by
  simp [fieldsOf, Fields.and, BitVec.extractLsb'_and]

theorem opOf_setWidth (op : Byte) : opOf (op.setWidth 32) = op := by
  simp [opOf, BitVec.extractLsb'_setWidth_of_le]

theorem fieldsOf_setWidth (op : Byte) : fieldsOf (op.setWidth 32) = .zero := by
  have h : op.toNat < 2 ^ 8 := op.isLt
  simp only [fieldsOf, Fields.zero, Fields.mk.injEq, ← BitVec.toNat_inj, toNat_field, BitVec.toNat_setWidth,
    BitVec.toNat_ofNat]
  omega

/-! ### The rows of the opcode map (R120) -/

/-- The values of `ReservedFieldValue`, said of the opcode and the fields. -/
abbrev ReservedFields (op : Byte) (f : Fields) : Prop :=
  (op = 0x22#8 ∧ f.win = 7#3)
    ∨ (op = 0x02#8 ∧ (4 ≤ f.ry.toNat ∨ (f.ry ≠ 2#3 ∧ f.win ≠ 0#3) ∨ f.win = 7#3))

/-- What a row's `build` makes of the fields: ERR_FIELD for reserved values, else a well-formed command with the row's
opcode and the fields outside the row's mask. -/
structure OpRow.Correct (row : OpRow) : Prop where
  mask : opOf row.mask = 0xFF#8
  reserved : ∀ f, ReservedFields row.op f → row.build f = .error .field
  built : ∀ f, ¬ ReservedFields row.op f → ∃ i, row.build f = .ok i ∧ i.opcode = row.op ∧ i.wellFormed = true
    ∧ i.fields = f.clear (fieldsOf row.mask)

theorem and_seven (x : BitVec 3) : x &&& 7#3 = x := BitVec.and_allOnes

/-- A row that builds its command from any field values. -/
theorem OpRow.Correct.ofTotal {op : Byte} {mask : Word} {g : Fields → Instr} (hm : opOf mask = 0xFF#8)
    (hr : ∀ f, ¬ ReservedFields op f) (ho : ∀ f, (g f).opcode = op) (hw : ∀ f, (g f).wellFormed = true)
    (hf : ∀ f, (g f).fields = f.clear (fieldsOf mask)) : OpRow.Correct ⟨op, mask, fun f => .ok (g f)⟩ where
  mask := hm
  reserved f h := absurd h (hr f)
  built f _ := ⟨g f, rfl, ho f, hw f, hf f⟩

/-- The selectors are the values 0 to 3 of RY (R119). -/
theorem BufSel.exists_code {ry : BitVec 3} (h : ry.toNat < 4) : ∃ sel : BufSel, ry = sel.code := by
  have key : ∀ x : BitVec 3, x.toNat < 4 → x = BufSel.bin.code ∨ x = BufSel.ct.code ∨ x = BufSel.win.code
      ∨ x = BufSel.ctx.code := by decide
  rcases key ry h with h | h | h | h <;> exact ⟨_, h⟩

theorem buildBufsz_code {f : Fields} {sel : BufSel} (h : f.ry = sel.code) :
    buildBufsz f = if (Instr.bufsz f.ra f.rb sel f.win).wellFormed then .ok (.bufsz f.ra f.rb sel f.win)
      else .error .field := by
  have hwin : ¬ f.win = 7#3 ∧ f.win = 0#3 ↔ f.win = 0#3 := and_iff_right_of_imp fun hz => by simp [hz]
  cases sel <;> simp [buildBufsz, h, hwin, BufSel.code, Instr.wellFormed]

theorem buildBufsz_reserved {f : Fields} (h : 4 ≤ f.ry.toNat) : buildBufsz f = .error .field := by
  rw [buildBufsz]
  split
  case h_5 => rfl
  all_goals omega

theorem bufsz_wellFormed_iff {f : Fields} {sel : BufSel} (h : f.ry = sel.code) :
    (Instr.bufsz f.ra f.rb sel f.win).wellFormed = true ↔ ¬ ReservedFields 0x02#8 f := by
  cases sel <;> simp [h, BufSel.code, Instr.wellFormed, and_comm]

theorem bufszRow_correct : OpRow.Correct ⟨0x02#8, 0x03FE07FF#32, buildBufsz⟩ where
  mask := rfl
  reserved f h := by
    rcases Nat.lt_or_ge f.ry.toNat 4 with hlt | hge
    · obtain ⟨sel, hsel⟩ := BufSel.exists_code hlt
      exact (buildBufsz_code hsel).trans (if_neg fun hw => (bufsz_wellFormed_iff hsel).mp hw h)
    · exact buildBufsz_reserved hge
  built f h := by
    have hlt : f.ry.toNat < 4 := Nat.lt_of_not_le fun hge => h (.inr ⟨rfl, .inl hge⟩)
    obtain ⟨sel, hsel⟩ := BufSel.exists_code hlt
    have hw := (bufsz_wellFormed_iff hsel).mpr h
    refine ⟨_, (buildBufsz_code hsel).trans (if_pos hw), rfl, hw, ?_⟩
    simp [Instr.fields, Fields.clear, fieldsOf, and_seven, hsel]

theorem expwinRow_correct : OpRow.Correct ⟨0x22#8, 0x1F8000FF#32, buildExpwin⟩ where
  mask := rfl
  reserved f h := by
    have hw : f.win = 7#3 := by simpa [ReservedFields] using h
    exact if_pos hw
  built f h := by
    have hw : f.win ≠ 7#3 := by simpa [ReservedFields] using h
    refine ⟨.expwin f.rd f.ra f.rb f.rc f.rs f.win, if_neg hw, rfl, bne_iff_ne.mpr hw, ?_⟩
    simp [Instr.fields, Fields.clear, fieldsOf, and_seven]

/-- All rows but BUFSZ's and EXPWIN's build their command from any field values. -/
theorem opTable_forall_correct : opTable.Forall OpRow.Correct := by
  refine ⟨?_, bufszRow_correct, ?_, ?_, ?_, ?_, ?_, ?_, ?_, ?_, ?_, ?_, ?_, ?_, ?_, expwinRow_correct, ?_, ?_, ?_⟩
  all_goals
    refine .ofTotal rfl (fun f => by simp) (fun _ => rfl) (fun _ => rfl) fun f => ?_
    simp [Instr.fields, Fields.clear, fieldsOf, and_seven]

theorem opTable_correct {row : OpRow} (h : row ∈ opTable) : row.Correct :=
  List.forall_iff_forall_mem.mp opTable_forall_correct row h

/-- A word selects a row exactly when it has the row's opcode and zeros in the row's unused fields. -/
theorem selects_iff {row : OpRow} (h : row ∈ opTable) (w : Word) :
    w &&& row.mask = row.op.setWidth 32 ↔ opOf w = row.op ∧ (fieldsOf w).and (fieldsOf row.mask) = .zero := by
  have hop : opOf (w &&& row.mask) = opOf w := by
    rw [opOf_and, (opTable_correct h).mask]
    exact BitVec.and_allOnes
  rw [← hop, ← fieldsOf_and]
  constructor
  · intro e
    rw [e]
    exact ⟨opOf_setWidth _, fieldsOf_setWidth _⟩
  · rintro ⟨e, hz⟩
    exact word_ext (e.trans (opOf_setWidth _).symm) (hz.trans (fieldsOf_setWidth _).symm)

theorem opTable_op_injective {row row' : OpRow} (h : row ∈ opTable) (h' : row' ∈ opTable) (e : row.op = row'.op) :
    row = row' :=
  List.inj_on_of_nodup_map (f := OpRow.op) (by decide) h h' e

/-! ### The decoder by rows (R124) -/

theorem opTable_find {row : OpRow} {b : Byte} (h : opTable.find? (fun r => r.op = b) = some row) :
    row ∈ opTable ∧ row.op = b :=
  ⟨List.mem_of_find?_eq_some h, by simpa using List.find?_some h⟩

/-- Decoding of a word whose opcode has a row. -/
theorem decode_row {row : OpRow} {w : Word} (h : row ∈ opTable) (hop : row.op = opOf w) :
    decode w = if w &&& row.mask = row.op.setWidth 32 then row.build (fieldsOf w) else .error .field := by
  have hsome : (opTable.find? (fun r => r.op = opOf w)).isSome = true :=
    List.find?_isSome.mpr ⟨row, h, decide_eq_true hop⟩
  obtain ⟨row', hfind⟩ := Option.isSome_iff_exists.mp hsome
  obtain ⟨h', hop'⟩ := opTable_find hfind
  obtain rfl := opTable_op_injective h h' (hop.trans hop'.symm)
  rw [decode, hfind]

/-- Decoding of a word whose opcode has no row. -/
theorem decode_no_row {w : Word} (h : ∀ row ∈ opTable, row.op ≠ opOf w) : decode w = .error .opcode := by
  have hnone : opTable.find? (fun row => row.op = opOf w) = none :=
    List.find?_eq_none.mpr fun row hrow => by simpa using h row hrow
  rw [decode, hnone]

/-- A word that decodes selects a row, holds no reserved value, and is built by that row. -/
theorem decode_ok {w : Word} {i : Instr} (h : decode w = .ok i) :
    ∃ row ∈ opTable, row.op = opOf w ∧ w &&& row.mask = row.op.setWidth 32 ∧ ¬ ReservedFields row.op (fieldsOf w)
      ∧ row.build (fieldsOf w) = .ok i := by
  by_cases hrow : ∃ row ∈ opTable, row.op = opOf w
  case neg =>
    rw [decode_no_row fun row hm hop => hrow ⟨row, hm, hop⟩] at h
    cases h
  case pos =>
    obtain ⟨row, hm, hop⟩ := hrow
    rw [decode_row hm hop] at h
    split at h
    case isTrue hs =>
      refine ⟨row, hm, hop, hs, fun hr => ?_, h⟩
      rw [(opTable_correct hm).reserved _ hr] at h
      cases h
    case isFalse => cases h

/-- Decoding of a word whose opcode has a row, where an unused field is nonzero or a value is reserved. -/
theorem decode_row_field {row : OpRow} {w : Word} (h : row ∈ opTable) (hop : row.op = opOf w)
    (hbad : w &&& row.mask ≠ row.op.setWidth 32 ∨ ReservedFields row.op (fieldsOf w)) : decode w = .error .field := by
  rw [decode_row h hop]
  split
  case isTrue hs => exact (opTable_correct h).reserved _ (hbad.resolve_left (not_not_intro hs))
  case isFalse => rfl

/-- The row of a well-formed command builds it from its fields, and its unused fields are 0. -/
theorem Instr.exists_row {i : Instr} (hw : i.wellFormed = true) : ∃ row ∈ opTable, row.op = i.opcode
    ∧ i.fields.and (fieldsOf row.mask) = .zero ∧ row.build i.fields = .ok i := by
  suffices h : ∃ row, opTable.find? (fun row => row.op = i.opcode) = some row
      ∧ i.fields.and (fieldsOf row.mask) = .zero ∧ row.build i.fields = .ok i by
    obtain ⟨row, hfind, h⟩ := h
    exact ⟨row, (opTable_find hfind).1, (opTable_find hfind).2, h⟩
  cases i with
  | bufsz ra rb sel win =>
    exact ⟨_, rfl, by simp [Instr.fields, Fields.and, fieldsOf, Fields.zero], (buildBufsz_code rfl).trans (if_pos hw)⟩
  | expwin rd ra rb rc rs win =>
    exact ⟨_, rfl, by simp [Instr.fields, Fields.and, fieldsOf, Fields.zero], if_neg (bne_iff_ne.mp hw)⟩
  | msetup | menc | mdec | mmul | msqr | mred | madd | msub | mneg | mhalf | mdbl | mtpl | expbin | expct | gcd | minv
  | crtrec =>
    exact ⟨_, rfl, by simp [Instr.fields, Fields.and, fieldsOf, Fields.zero], rfl⟩

/-! ### The opcode map as the statements write it out (R120, R123) -/

/-- The statement's form of a decoder row. -/
def OpRow.toMapRow (row : OpRow) : MapRow := ⟨row.op.toNat, row.op.setWidth 32, row.mask⟩

theorem opcodeMap_eq : opcodeMap = opTable.map OpRow.toMapRow := rfl

theorem exists_mem_opcodeMap {p : MapRow → Prop} : (∃ r ∈ opcodeMap, p r) ↔ ∃ row ∈ opTable, p row.toMapRow := by
  simp [opcodeMap_eq]

theorem opField_eq (w : Word) : opField w = (opOf w).toNat := (toNat_opOf w).symm

theorem reservedFieldValue_iff (w : Word) : ReservedFieldValue w ↔ ReservedFields (opOf w) (fieldsOf w) := by
  simp only [ReservedFieldValue, ReservedFields, ryField, winField, opField_eq, fieldsOf, ← toNat_field,
    ← BitVec.toNat_inj, BitVec.toNat_ofNat, ne_eq, ge_iff_le]

/-- No row of the opcode map has a reserved opcode. -/
theorem opTable_not_reserved : ∀ row ∈ opTable, ¬ ReservedOpcode row.op.toNat := by decide

/-- A BUSY engine completes a word that does not decode with the code of the failed decoding. -/
theorem engineStep_decode_error {s : State} {e : DecodeError} (hbusy : s.phase = .busy) (h : decode s.lcmd = .error e) :
    engineStep s = errorNext s (DecodeError.errCode e).code := by
  rw [engineStep, hbusy, h]
  rfl

end Sys2Proof

namespace Sys2Proof.Proofs

open Sys2Proof.Machine Sys2Proof.Claims Sys2Proof.Laws

/-- Settles O1: the command's row is the one its word selects, and builds it from its fields. -/
theorem decodeOfEncodeIsTheCommand : Obligations.DecodeOfEncodeIsTheCommand := by
  intro i hw
  obtain ⟨row, hm, hop, hu, hb⟩ := Instr.exists_row hw
  have ho : row.op = opOf (encode i) := hop.trans (opOf_wordOf _ _).symm
  have hf : fieldsOf (encode i) = i.fields := fieldsOf_wordOf _ _
  rw [decode_row hm ho, if_pos ((selects_iff hm _).mpr ⟨ho.symm, by rw [hf, hu]⟩), hf, hb]

/-- Settles O2: a row that a word selects builds a command with the word's opcode and fields. -/
theorem encodeOfDecodeIsTheWord : Obligations.EncodeOfDecodeIsTheWord := by
  intro w i h
  obtain ⟨row, hm, hop, hs, hr, hb⟩ := decode_ok h
  obtain ⟨j, hj, hopc, hwf, hf⟩ := (opTable_correct hm).built _ hr
  obtain rfl : i = j := Except.ok.inj (hb.symm.trans hj)
  refine ⟨?_, hwf⟩
  rw [encode, hopc, hop, hf, Fields.clear_eq_self ((selects_iff hm w).mp hs).2, wordOf_opOf_fieldsOf]

/-- Settles O3: the rows of the statement's map are the decoder's. -/
theorem wordDecodesIffItSelectsARow : Obligations.WordDecodesIffItSelectsARow := by
  intro w
  rw [exists_mem_opcodeMap, reservedFieldValue_iff]
  refine ⟨⟨?_, ?_⟩, fun i h => exists_mem_opcodeMap.mpr ?_⟩
  · rintro ⟨i, h⟩
    obtain ⟨row, hm, hop, hs, hr, -⟩ := decode_ok h
    exact ⟨⟨row, hm, hs⟩, hop ▸ hr⟩
  · rintro ⟨⟨row, hm, hs⟩, hr⟩
    have hop : opOf w = row.op := ((selects_iff hm w).mp hs).1
    obtain ⟨i, hb, -⟩ := (opTable_correct hm).built (fieldsOf w) (hop ▸ hr)
    exact ⟨i, (decode_row hm hop.symm).trans ((if_pos hs).trans hb)⟩
  · obtain ⟨row, hm, hop, hs, -⟩ := decode_ok h
    have hi : opOf w = i.opcode := by
      rw [← (encodeOfDecodeIsTheWord w i h).1]
      exact opOf_wordOf _ _
    exact ⟨row, hm, hs, congrArg BitVec.toNat (hi.symm.trans hop.symm)⟩

/-- Settles O4: a word that does not decode completes with the code of its failed decoding. -/
theorem reservedEncodingsCompleteWithTheirErrors : Obligations.ReservedEncodingsCompleteWithTheirErrors := by
  intro s hbusy
  constructor
  · intro hres
    have hd : decode s.lcmd = .error .opcode := decode_no_row fun row hm hop =>
      opTable_not_reserved row hm (by rwa [hop, ← opField_eq])
    exact engineStep_decode_error hbusy hd
  · intro r hr hop hbad
    rw [opcodeMap_eq] at hr
    obtain ⟨row, hm, rfl⟩ := List.mem_map.mp hr
    have ho : row.op = opOf s.lcmd := BitVec.eq_of_toNat_eq (hop.symm.trans (opField_eq _))
    rw [reservedFieldValue_iff, ← ho] at hbad
    exact engineStep_decode_error hbusy (decode_row_field hm ho hbad)

/-- Settles O5. -/
theorem encodingExamplesDecode : Obligations.EncodingExamplesDecode := ⟨rfl, rfl, rfl, rfl⟩

end Sys2Proof.Proofs
end

section
/-! SUPPORT. MSETUP's context as digits of one integer, and what its destination holds when it completes with OK
(41_montgomery R180, 30_encoding R121). -/

namespace Sys2Proof.Machine

/-! ### Digits -/

theorem add_mul_mod_of_lt {b x : Nat} (h : x < b) (y : Nat) : (x + b * y) % b = x := by
  rw [Nat.add_mul_mod_self_left, Nat.mod_eq_of_lt h]

theorem add_mul_div_of_lt {b x : Nat} (h : x < b) (y : Nat) : (x + b * y) / b = y := by
  rw [Nat.add_mul_div_left _ _ (by omega), Nat.div_eq_of_lt h, Nat.zero_add]

theorem add_mul_div_pow_succ {b x : Nat} (h : x < b) (y i : Nat) : (x + b * y) / b ^ (i + 1) = y / b ^ i := by
  rw [Nat.pow_succ', ← Nat.div_div_eq_div_mul, add_mul_div_of_lt h]

/-- MemRead of part of the room of a MemWrite. -/
theorem Memory.memRead_memWrite_part (w : LimbBits) {N : Nat} (m : Memory) (a v n : Nat) : ∀ {i : Nat}, i + n ≤ N →
    (m.memWrite w a N v).memRead w (a + i) n = some (v / w.base ^ i % w.base ^ n) := by
  induction n with
  | zero => intro i _; simp [Memory.memRead, Nat.mod_one]
  | succ n ih =>
    intro i h
    have low := Memory.limb?_memWrite_inside w N m a v i (by omega)
    have high := ih (i := i + 1) (by omega)
    rw [← Nat.add_assoc] at high
    simp only [Memory.memRead, low, high]
    rw [Nat.pow_succ' (n := n), Nat.mod_mul, Nat.div_div_eq_div_mul, ← Nat.pow_succ]

/-! ### Lengths -/

theorem bitlen_le_nlen_mul (w : LimbBits) (v : Nat) : bitlen v ≤ nlen w v * w.bits := by
  have hb : 0 < w.bits := by cases w <;> decide
  have h : (bitlen v + w.bits - 1) / w.bits < nlen w v + 1 := Nat.lt_succ_of_le (Nat.le_max_right _ _)
  rw [Nat.div_lt_iff_lt_mul hb, Nat.add_mul, Nat.one_mul] at h
  omega

theorem one_le_nlen (w : LimbBits) (v : Nat) : 1 ≤ nlen w v := Nat.le_max_left _ _

theorem lt_base_pow_nlen (w : LimbBits) (v : Nat) : v < w.base ^ nlen w v :=
  calc v < 2 ^ bitlen v := lt_two_pow_bitlen v
    _ ≤ 2 ^ (w.bits * nlen w v) := Nat.pow_le_pow_right (by decide) (Nat.mul_comm .. ▸ bitlen_le_nlen_mul w v)
    _ = w.base ^ nlen w v := Nat.pow_mul 2 w.bits _

theorem LimbBits.two_pow_le_base (w : LimbBits) : 2 ^ 32 ≤ w.base := by cases w <;> decide

/-- The bit length of a legal modulus fits a limb. -/
theorem bitlen_lt_base {w : LimbBits} {v : Nat} (h : nlen w v ≤ 65535) : bitlen v < w.base := by
  have hbits : w.bits ≤ 64 := by cases w <;> decide
  calc bitlen v ≤ nlen w v * w.bits := bitlen_le_nlen_mul w v
    _ ≤ 65535 * 64 := Nat.mul_le_mul h hbits
    _ < 2 ^ 32 := by decide
    _ ≤ w.base := LimbBits.two_pow_le_base w

/-! ### The context -/

/-- The context MSETUP builds for modulus `M`, field by field (41_montgomery R180). -/
def setupCtx (w : LimbBits) (M : Nat) : Ctx :=
  { m := nlen w M, mbits := bitlen M, mp := negInv w M, modulus := M
    rm := montR w (nlen w M) % M, r2 := montR w (nlen w M) ^ 2 % M }

theorem setupCtx_consistent (w : LimbBits) {M : Nat} (h : M % 2 = 1) : (setupCtx w M).Consistent w :=
  ⟨h, rfl, rfl, (negInv_spec w h).1, (negInv_spec w h).2, rfl, rfl⟩

/-- The context's integer with each field above the one before it. -/
theorem ctxValue_eq (w : LimbBits) (M : Nat) : ctxValue w (nlen w M) M = Config.tag + w.base * (nlen w M + w.base *
    (bitlen M + w.base * (negInv w M + w.base * (M + w.base ^ nlen w M * ((setupCtx w M).rm + w.base ^ nlen w M *
      (setupCtx w M).r2))))) := by
  simp only [ctxValue, setupCtx]
  ring

/-- The digits of a context's integer are its fields, and zeros above them (30_encoding R121). -/
structure CtxDigits (w : LimbBits) (c : Ctx) (v : Nat) : Prop where
  tag : v / w.base ^ 0 % w.base = Config.tag
  m : v / w.base ^ 1 % w.base = c.m
  mbits : v / w.base ^ 2 % w.base = c.mbits
  mp : v / w.base ^ 3 % w.base = c.mp
  modulus : v / w.base ^ 4 % w.base ^ c.m = c.modulus
  rm : v / w.base ^ (4 + c.m) % w.base ^ c.m = c.rm
  r2 : v / w.base ^ (4 + 2 * c.m) % w.base ^ c.m = c.r2
  zero : ∀ j, 4 + 3 * c.m ≤ j → v / w.base ^ j % w.base = 0

theorem ctxValue_digits {w : LimbBits} {M : Nat} (hodd : M % 2 = 1) (hm : nlen w M ≤ 65535) :
    CtxDigits w (setupCtx w M) (ctxValue w (nlen w M) M) := by
  have hbase := LimbBits.two_pow_le_base w
  have htag : Config.tag < w.base := Nat.lt_of_lt_of_le (by decide) hbase
  have hlen : nlen w M < w.base := by omega
  have hbits : bitlen M < w.base := bitlen_lt_base hm
  have hmp : negInv w M < w.base := (negInv_spec w hodd).1
  have hM : M < w.base ^ nlen w M := lt_base_pow_nlen w M
  have hrm : (setupCtx w M).rm < w.base ^ nlen w M := (Nat.mod_lt _ (by omega)).trans hM
  have hr2 : (setupCtx w M).r2 < w.base ^ nlen w M := (Nat.mod_lt _ (by omega)).trans hM
  have h4 : ctxValue w (nlen w M) M / w.base ^ 4 = M + w.base ^ nlen w M * ((setupCtx w M).rm + w.base ^ nlen w M *
      (setupCtx w M).r2) := by
    rw [ctxValue_eq, add_mul_div_pow_succ htag, add_mul_div_pow_succ hlen, add_mul_div_pow_succ hbits,
      add_mul_div_pow_succ hmp, Nat.pow_zero, Nat.div_one]
  have h5 : ctxValue w (nlen w M) M / w.base ^ (4 + nlen w M) = (setupCtx w M).rm + w.base ^ nlen w M *
      (setupCtx w M).r2 := by
    rw [Nat.pow_add, ← Nat.div_div_eq_div_mul, h4, add_mul_div_of_lt hM]
  have h6 : ctxValue w (nlen w M) M / w.base ^ (4 + 2 * nlen w M) = (setupCtx w M).r2 := by
    rw [Nat.two_mul, ← Nat.add_assoc, Nat.pow_add, ← Nat.div_div_eq_div_mul, h5, add_mul_div_of_lt hrm]
  refine ⟨?_, ?_, ?_, ?_, ?_, ?_, ?_, fun j hj => ?_⟩
  · rw [ctxValue_eq, Nat.pow_zero, Nat.div_one, add_mul_mod_of_lt htag]
  · rw [ctxValue_eq, add_mul_div_pow_succ htag, Nat.pow_zero, Nat.div_one, add_mul_mod_of_lt hlen]; rfl
  · rw [ctxValue_eq, add_mul_div_pow_succ htag, add_mul_div_pow_succ hlen, Nat.pow_zero, Nat.div_one,
      add_mul_mod_of_lt hbits]; rfl
  · rw [ctxValue_eq, add_mul_div_pow_succ htag, add_mul_div_pow_succ hlen, add_mul_div_pow_succ hbits, Nat.pow_zero,
      Nat.div_one, add_mul_mod_of_lt hmp]; rfl
  · exact (congrArg (· % w.base ^ nlen w M) h4).trans (add_mul_mod_of_lt hM _)
  · exact (congrArg (· % w.base ^ nlen w M) h5).trans (add_mul_mod_of_lt hrm _)
  · exact (congrArg (· % w.base ^ nlen w M) h6).trans (Nat.mod_eq_of_lt hr2)
  · obtain ⟨k, rfl⟩ := Nat.exists_eq_add_of_le hj
    rw [show 4 + 3 * (setupCtx w M).m + k = 4 + 2 * nlen w M + nlen w M + k by simp only [setupCtx]; omega, Nat.pow_add,
      Nat.pow_add, ← Nat.div_div_eq_div_mul, ← Nat.div_div_eq_div_mul, h6, Nat.div_eq_of_lt hr2, Nat.zero_div,
      Nat.zero_mod]

/-- A state whose room at `d` holds the digits of a context's integer has the context there. -/
theorem ctxAt_of_digits {s t : State} {d : Word} {c : Ctx} {v : Nat} (hp : t.params = s.params)
    (hmem : t.mem = s.mem.memWrite s.params.limbBits (descAddr d) (descLen d) v) (hd : CtxDigits s.params.limbBits c v)
    (hc : c.Consistent s.params.limbBits) (h1 : 1 ≤ c.m) (hmax : c.m ≤ s.params.maxModLimbs)
    (hroom : 4 + 3 * c.m ≤ descLen d) :
    t.CtxAt d c ∧ ∀ j, 4 + 3 * c.m ≤ j → j < descLen d → t.LimbIs (descAddr d + j) 0 := by
  have limb : ∀ j, j < descLen d → t.LimbIs (descAddr d + j) (v / s.params.limbBits.base ^ j % s.params.limbBits.base) :=
    fun j hj => by
      rw [State.LimbIs, hp, hmem]
      exact Memory.limb?_memWrite_inside _ _ _ _ _ _ hj
  have read : ∀ {a} i, a = descAddr d + i → i + c.m ≤ descLen d →
      t.ReadIs a c.m (v / s.params.limbBits.base ^ i % s.params.limbBits.base ^ c.m) := fun i ha hi => by
    rw [State.ReadIs, hp, hmem, ha]
    exact Memory.memRead_memWrite_part _ _ _ _ _ hi
  refine ⟨⟨⟨by omega, ?_, ?_, h1, hp ▸ hmax, hroom⟩, ⟨?_, ?_, ?_, ?_, ?_⟩, hp ▸ hc⟩, fun j hj hlt => ?_⟩
  · exact (limb 0 (by omega)).trans (congrArg some hd.tag)
  · exact (limb 1 (by omega)).trans (congrArg some hd.m)
  · exact (limb 2 (by omega)).trans (congrArg some hd.mbits)
  · exact (limb 3 (by omega)).trans (congrArg some hd.mp)
  · exact (read 4 rfl (by omega)).trans (congrArg some hd.modulus)
  · exact (read (4 + c.m) (by omega) (by omega)).trans (congrArg some hd.rm)
  · exact (read (4 + 2 * c.m) (by omega) (by omega)).trans (congrArg some hd.r2)
  · exact (limb j hlt).trans (congrArg some (hd.zero j hj))

/-! ### MSETUP's computation -/

/-- MSETUP's computation when it succeeds. -/
theorem msetupCmd_ok {s : State} {rd ra : DIdx} {d : Done} (h : msetupCmd s.view rd ra = .ok d) :
    ∃ M, s.ValIs ra M ∧ M % 2 = 1 ∧ nlen s.params.limbBits M ≤ s.params.maxModLimbs
      ∧ 4 + 3 * nlen s.params.limbBits M ≤ descLen (s.ld.get rd)
      ∧ d = { dst := some (s.ld.get rd), value := ctxValue s.params.limbBits (nlen s.params.limbBits M) M
              scalar := needCtx (nlen s.params.limbBits M), scratch := none } := by
  simp only [msetupCmd, bind_ok_iff, require_ok_iff, View.val, View.read, defined_ok_iff, bne_iff_ne, ne_eq,
    decide_eq_true_eq, Except.ok.injEq] at h
  obtain ⟨_, _, M, hM, _, hodd, _, hmax, _, hroom, rfl⟩ := h
  exact ⟨M, hM, Nat.mod_two_ne_zero.mp hodd, hmax, hroom, rfl⟩

/-- The error codes a computation can raise are not OK's. -/
abbrev NoOkError {α : Type} (x : Except Stop α) : Prop := x ≠ .error (.err .ok)

theorem NoOkError.bind {α β : Type} {x : Except Stop α} {f : α → Except Stop β} (hx : NoOkError x)
    (hf : ∀ a, NoOkError (f a)) : NoOkError (x >>= f) := by
  cases x with
  | ok a => exact hf a
  | error e => exact fun h => hx (congrArg Except.error (Except.error.inj h))

theorem NoOkError.require {c : ErrCode} (h : c ≠ .ok) (b : Bool) : NoOkError (require b c) := by
  cases b <;> simp [NoOkError, h]

theorem NoOkError.defined (o : Option Nat) : NoOkError (defined o) := by
  cases o <;> simp [NoOkError]

theorem NoOkError.checkRoles (p : Params) (roles : List Role) : NoOkError (checkRoles p roles) :=
  .bind (.require (by decide) _) fun _ => .require (by decide) _

theorem msetupCmd_noOkError (v : View) (rd ra : DIdx) : NoOkError (msetupCmd v rd ra) :=
  .bind (.checkRoles _ _) fun _ => .bind (.defined _) fun _ => .bind (.require (by decide) _) fun _ =>
    .bind (.require (by decide) _) fun _ => .bind (.require (by decide) _) fun _ => nofun

theorem ErrCode.code_eq_zero {c : ErrCode} (h : c.code = 0#8) : c = .ok := by
  cases c with
  | ok => rfl
  | opcode | field | bounds | overlap | tag | ctx | scratch | room | evenModulus | range | zeroGcd | notInvertible =>
    exact absurd h (by decide)

/-- An MSETUP that completes with OK succeeded. -/
theorem exec_msetup_ok {s t : State} {rd ra : DIdx} (h : exec (.msetup rd ra) s = .next t) (he : t.errcode = 0#8) :
    ∃ d, msetupCmd s.view rd ra = .ok d ∧ t = s.completeOk d := by
  rcases complete_next h with hok | ⟨c, hc, rfl⟩
  · exact hok
  · obtain rfl := ErrCode.code_eq_zero he
    exact absurd hc (msetupCmd_noOkError _ _ _)

end Sys2Proof.Machine

namespace Sys2Proof.Proofs

open Sys2Proof.Machine

/-- Settles O32: MSETUP stores the digits of its context's integer, and the context is consistent for an odd modulus. -/
theorem msetupWritesAConsistentContext : Obligations.MsetupWritesAConsistentContext := by
  intro s t rd ra ⟨_, _, _, hlegal⟩ h he
  obtain ⟨d, hd, rfl⟩ := exec_msetup_ok h he
  obtain ⟨M, hM, hodd, hmax, hroom, hdone⟩ := msetupCmd_ok hd
  have hdigits := ctxValue_digits hodd (hmax.trans (by omega))
  obtain ⟨hctx, hzero⟩ := ctxAt_of_digits (State.completeOk_params s d) (by rw [hdone]; rfl) hdigits
    (setupCtx_consistent _ hodd) (one_le_nlen _ _) hmax hroom
  exact ⟨_, hctx, hM, hzero⟩

end Sys2Proof.Proofs
end

section
/-! SUPPORT. A command's computation as a function of what it sees, the codes it can end with and how a template command
begins; the engine's turn, a host access and an arrival as steps; and from these the statements about the life of a
command (40_common). -/

namespace Sys2Proof.Machine

/-! ### Every command as a function of its view (40_common R161) -/

/-- The computation that `exec` completes: all of a command but its completion. -/
def computation : Instr → View → Except Stop Done
  | .msetup rd ra, v => msetupCmd v rd ra
  | .bufsz ra rb sel win, v => bufszCmd v ra rb sel win
  | .menc rd ra rc, v => modUnary v rd ra rc Ctx.modulus fun c a => a * montR v.w c.m % c.modulus
  | .mdec rd ra rc, v => modUnary v rd ra rc Ctx.modulus fun c a => a * montRinv v.w c.m c.modulus % c.modulus
  | .mmul rd ra rb rc, v => modBinary v rd ra rb rc fun c a b => a * b * montRinv v.w c.m c.modulus % c.modulus
  | .msqr rd ra rc, v => modUnary v rd ra rc Ctx.modulus fun c a => a * a * montRinv v.w c.m c.modulus % c.modulus
  | .mred rd ra rc, v =>
    modUnary v rd ra rc (fun c => c.modulus * montR v.w c.m) fun c t => t * montRinv v.w c.m c.modulus % c.modulus
  | .madd rd ra rb rc, v => modBinary v rd ra rb rc fun c a b => (a + b) % c.modulus
  | .msub rd ra rb rc, v => modBinary v rd ra rb rc fun c a b => subMod a b c.modulus
  | .mneg rd ra rc, v => modUnary v rd ra rc Ctx.modulus fun c a => subMod 0 a c.modulus
  | .mhalf rd ra rc, v => modUnary v rd ra rc Ctx.modulus fun c a => a * ((c.modulus + 1) / 2) % c.modulus
  | .mdbl rd ra rc, v => modUnary v rd ra rc Ctx.modulus fun c a => 2 * a % c.modulus
  | .mtpl rd ra rc, v => modUnary v rd ra rc Ctx.modulus fun c a => 3 * a % c.modulus
  | .expbin rd ra rb rc rs, v => expCmd v rd ra rb rc rs needBin
  | .expct rd ra rb rc rs, v => expCmd v rd ra rb rc rs needCt
  | .expwin rd ra rb rc rs win, v => expwinCmd v rd ra rb rc rs win
  | .gcd rd ra rb, v => gcdCmd v rd ra rb
  | .minv rd ra rb, v => minvCmd v rd ra rb
  | .crtrec rd ra rb rc rx ry, v => crtrecCmd v rd ra rb rc rx ry

/-- `exec` reads the state only through its view, and then completes. -/
theorem exec_eq (i : Instr) (s : State) : exec i s = complete s (computation i s.view) := by cases i <;> rfl

/-! ### No computation raises OK's code -/

theorem NoOkError.ok {α : Type} (a : α) : NoOkError (.ok a : Except Stop α) := nofun

theorem NoOkError.checked (w : LimbBits) (c : Ctx) : NoOkError (c.checked w) := by
  cases h : c.consistent w <;> simp [NoOkError, Ctx.checked, h]

theorem NoOkError.loadCtx (v : View) (d : Word) : NoOkError (loadCtx v d) :=
  .bind (.require (by decide) _) fun _ => .bind (.defined _) fun _ => .bind (.require (by decide) _) fun _ =>
    .bind (.defined _) fun _ => .bind (.require (by decide) _) fun _ => .bind (.defined _) fun _ =>
    .bind (.defined _) fun _ => .bind (.defined _) fun _ => .bind (.defined _) fun _ => .bind (.defined _) fun _ =>
    .checked _ _

theorem NoOkError.modTemplate (v : View) (rd : DIdx) (srcs : List DIdx) (rc : DIdx) (scr : Option DIdx)
    (need : Nat → Nat) : NoOkError (modTemplate v rd srcs rc scr need) :=
  .bind (.checkRoles _ _) fun _ => .bind (.loadCtx _ _) fun _ => .bind (.require (by decide) _) fun _ =>
    .bind (.require (by decide) _) fun _ => .ok _

theorem NoOkError.srcBelow (v : View) (i : DIdx) (bound : Nat) : NoOkError (v.srcBelow i bound) :=
  .bind (.defined _) fun _ => .bind (.require (by decide) _) fun _ => .ok _

theorem NoOkError.modUnary (v : View) (rd ra rc : DIdx) (bound : Ctx → Nat) (f : Ctx → Nat → Nat) :
    NoOkError (modUnary v rd ra rc bound f) :=
  .bind (.modTemplate _ _ _ _ _ _) fun _ => .bind (.srcBelow _ _ _) fun _ => .ok _

theorem NoOkError.modBinary (v : View) (rd ra rb rc : DIdx) (f : Ctx → Nat → Nat → Nat) :
    NoOkError (modBinary v rd ra rb rc f) :=
  .bind (.modTemplate _ _ _ _ _ _) fun _ => .bind (.defined _) fun _ => .bind (.defined _) fun _ =>
    .bind (.require (by decide) _) fun _ => .ok _

theorem NoOkError.expCmd (v : View) (rd ra rb rc rs : DIdx) (need : Nat → Nat) :
    NoOkError (expCmd v rd ra rb rc rs need) :=
  .bind (.modTemplate _ _ _ _ _ _) fun _ => .bind (.srcBelow _ _ _) fun _ => .bind (.defined _) fun _ => .ok _

theorem NoOkError.expwinCmd (v : View) (rd ra rb rc rs : DIdx) (win : BitVec 3) :
    NoOkError (expwinCmd v rd ra rb rc rs win) :=
  .bind (.require (by decide) _) fun _ => .expCmd _ _ _ _ _ _ _

theorem NoOkError.bufszCmd (v : View) (ra rb : DIdx) (sel : BufSel) (win : BitVec 3) :
    NoOkError (bufszCmd v ra rb sel win) :=
  .bind (.require (by decide) _) fun _ => .bind (.require (by decide) _) fun _ => .ok _

theorem NoOkError.gcdCmd (v : View) (rd ra rb : DIdx) : NoOkError (gcdCmd v rd ra rb) :=
  .bind (.checkRoles _ _) fun _ => .bind (.defined _) fun _ => .bind (.defined _) fun _ =>
    .bind (.require (by decide) _) fun _ => .bind (.require (by decide) _) fun _ => .ok _

theorem NoOkError.minvCmd (v : View) (rd ra rb : DIdx) : NoOkError (minvCmd v rd ra rb) :=
  .bind (.checkRoles _ _) fun _ => .bind (.defined _) fun _ => .bind (.defined _) fun _ =>
    .bind (.require (by decide) _) fun _ => .bind (.require (by decide) _) fun _ =>
    .bind (.require (by decide) _) fun _ => .ok _

theorem NoOkError.crtrecCmd (v : View) (rd ra rb rc rx ry : DIdx) : NoOkError (crtrecCmd v rd ra rb rc rx ry) :=
  .bind (.checkRoles _ _) fun _ => .bind (.loadCtx _ _) fun _ => .bind (.loadCtx _ _) fun _ =>
    .bind (.require (by decide) _) fun _ => .bind (.defined _) fun _ => .bind (.defined _) fun _ =>
    .bind (.defined _) fun _ => .bind (.require (by decide) _) fun _ => .ok _

theorem NoOkError.computation (i : Instr) (v : View) : NoOkError (computation i v) := by
  cases i with
  | msetup => exact msetupCmd_noOkError _ _ _
  | bufsz => exact .bufszCmd _ _ _ _ _
  | menc | mdec | msqr | mred | mneg | mhalf | mdbl | mtpl => exact .modUnary _ _ _ _ _ _
  | mmul | madd | msub => exact .modBinary _ _ _ _ _ _
  | expbin | expct => exact .expCmd _ _ _ _ _ _ _
  | expwin => exact .expwinCmd _ _ _ _ _ _ _
  | gcd => exact .gcdCmd _ _ _ _
  | minv => exact .minvCmd _ _ _ _
  | crtrec => exact .crtrecCmd _ _ _ _ _ _ _

/-- A command that completes either succeeded, or raised a code other than OK's. -/
theorem exec_next_code {i : Instr} {s t : State} (h : exec i s = .next t) :
    (∃ d, computation i s.view = .ok d ∧ t = s.completeOk d)
      ∨ ∃ c, computation i s.view = .error (.err c) ∧ c.code ≠ 0#8 ∧ t = s.completeErr c := by
  rw [exec_eq] at h
  refine (complete_next h).imp_right fun ⟨c, hc, ht⟩ => ⟨c, hc, fun h0 => ?_, ht⟩
  obtain rfl := ErrCode.code_eq_zero h0
  exact NoOkError.computation i s.view hc

/-- Only the computation decides whether a command faults, and with which fault. -/
theorem complete_fault_iff {s : State} {r : Except Stop Done} {f : Fault} :
    complete s r = .fault f ↔ r = .error (.fault f) := by
  match r with
  | .ok _ => simp
  | .error (.err _) => simp
  | .error (.fault _) => simp

/-- Equal parameters, latched descriptors and OPMEM are an equal view. -/
theorem State.view_eq {s s' : State} (hp : s.params = s'.params) (hl : s.ld = s'.ld) (hm : s.mem = s'.mem) :
    s.view = s'.view := by
  rw [State.view, State.view, hp, hl, hm]

theorem State.completeOk_mem_congr {s s' : State} (h : s.view = s'.view) (d : Done) :
    (s.completeOk d).mem = (s'.completeOk d).mem := by
  obtain ⟨hp, -, hm⟩ := View.mk.inj h
  rw [State.completeOk_mem, State.completeOk_mem, hp, hm]

/-! ### A context that does not load (40_common R156) -/

/-- A template command begins with the template; EXPWIN's check of WIN stands before it. -/
theorem computation_template_begin {i : Instr} {t : Template} (hw : i.wellFormed = true) (ht : templateOf i = some t)
    (v : View) : ∃ need k, computation i v = modTemplate v t.rd t.srcs t.rc t.scr need >>= k := by
  cases i with
  | msetup | bufsz | gcd | minv | crtrec => cases ht
  | expwin =>
    obtain rfl := Option.some.inj ht
    rw [computation, expwinCmd, hw, require_true, ok_bind]
    exact ⟨_, _, rfl⟩
  | menc | mdec | msqr | mred | mneg | mhalf | mdbl | mtpl | mmul | madd | msub | expbin | expct =>
    obtain rfl := Option.some.inj ht
    exact ⟨_, _, rfl⟩

/-- With the roles in order, a template command that does not load its context ends as LoadCtx does. -/
theorem exec_template_loadCtx {i : Instr} {t : Template} {s : State} {e : Stop} (hw : i.wellFormed = true)
    (ht : templateOf i = some t) (hr : RolesOk s.params (s.templateRoles t))
    (h : loadCtx s.view (s.ld.get t.rc) = .error e) : exec i s = complete s (.error e) := by
  obtain ⟨need, k, hk⟩ := computation_template_begin hw ht s.view
  rw [exec_eq, hk, modTemplate_loadCtx hr h, error_bind]

/-- CRTREC checks its roles and loads its two contexts before anything else (45_crt R280). -/
theorem crtrecCmd_begin (s : State) (rd ra rb rc rx ry : DIdx) : ∃ k : Ctx → Ctx → Except Stop Done,
    crtrecCmd s.view rd ra rb rc rx ry =
      (checkRoles s.params (s.crtRoles rd ra rb rc rx ry) >>= fun _ =>
        loadCtx s.view (s.ld.get rc) >>= fun cp => loadCtx s.view (s.ld.get rx) >>= k cp) := ⟨_, rfl⟩

/-- With the roles in order, CRTREC ends as LoadCtx of its first context if that does not load. -/
theorem exec_crtrec_first {s : State} {rd ra rb rc rx ry : DIdx} {e : Stop}
    (hr : RolesOk s.params (s.crtRoles rd ra rb rc rx ry)) (h : loadCtx s.view (s.ld.get rc) = .error e) :
    exec (.crtrec rd ra rb rc rx ry) s = complete s (.error e) := by
  obtain ⟨k, hk⟩ := crtrecCmd_begin s rd ra rb rc rx ry
  rw [exec_eq, computation, hk, checkRoles_ok_iff (u := ()).mpr hr, ok_bind, h, error_bind]

/-- Behind a first context that loads, CRTREC ends as LoadCtx of its second if that does not. -/
theorem exec_crtrec_second {s : State} {rd ra rb rc rx ry : DIdx} {cp : Ctx} {e : Stop}
    (hr : RolesOk s.params (s.crtRoles rd ra rb rc rx ry)) (hp : s.CtxAt (s.ld.get rc) cp)
    (h : loadCtx s.view (s.ld.get rx) = .error e) : exec (.crtrec rd ra rb rc rx ry) s = complete s (.error e) := by
  obtain ⟨k, hk⟩ := crtrecCmd_begin s rd ra rb rc rx ry
  rw [exec_eq, computation, hk, checkRoles_ok_iff (u := ()).mpr hr, ok_bind, loadCtx_ok_iff.mpr hp, ok_bind, h,
    error_bind]

/-! ### The step on each kind of turn -/

theorem step_engine {s : State} (h : s.nextTurn = .engine) : step s = engineStep s.takeTurn := by
  rw [step, h, runTurn]

theorem step_arrive {s : State} {n : Nat} (h : s.nextTurn = .arrive n) : step s = arrive s.takeTurn n := by
  rw [step, h, runTurn]

/-- On the host's turn an access is made from the next position. -/
theorem step_host_access {s : State} {a : BusAccess} (h : s.nextTurn = .host)
    (hop : s.host.prog[s.host.pos]? = some (.access a)) :
    step s = hostAccess (s.takeTurn.hostAt (s.host.pos + 1)) a := by
  rw [step, h, runTurn, hostStep, State.takeTurn_host, hop]
  rfl

/-- On a bus that keeps no order a write is posted (20_memory R92). -/
theorem hostAccess_write_unordered {s : State} (h : s.host.busOrdered = false) (width : BusWidth) (o : BitVec 21)
    (v : Word) : hostAccess s (.write width o v) = .next (s.post ⟨width, o, v⟩) := by
  rw [hostAccess, h]
  rfl

theorem engineStep_decode_ok {s : State} {i : Instr} (hbusy : s.phase = .busy) (h : decode s.lcmd = .ok i) :
    engineStep s = exec i s := by
  rw [engineStep, hbusy, h]

/-- A BUSY engine's step faults, or leaves the machine IDLE with DONE set (40_common R157, R158). -/
theorem engineStep_busy {s : State} (hbusy : s.phase = .busy) :
    (∃ f, engineStep s = .fault f) ∨ ∃ t, engineStep s = .next t ∧ t.phase = .idle ∧ t.done = true := by
  cases h : engineStep s with
  | refused q => exact absurd h (engineStep_not_refused s q)
  | fault f => exact .inl ⟨f, rfl⟩
  | next t =>
    refine .inr ⟨t, rfl, ?_⟩
    rcases engineStep_next h with ⟨hidle, -⟩ | ⟨-, i, -, hx⟩ | ⟨-, e, -, rfl⟩
    · rw [hbusy] at hidle
      cases hidle
    · rcases exec_next hx with ⟨d, -, rfl⟩ | ⟨c, rfl⟩
      · exact ⟨rfl, rfl⟩
      · exact ⟨rfl, rfl⟩
    · exact ⟨rfl, rfl⟩

/-! ### An arrival is the posted write's access (20_memory R91) -/

theorem busAccess_write_fault_iff {s : State} {width : BusWidth} {o : BitVec 21} {v : Word} {f : Fault} :
    busAccess s (.write width o v) = .fault f ↔ busWrite s width o v = .error f := by
  rw [busAccess]
  split <;> simp [*]

theorem busAccess_write_next_iff {s t : State} {width : BusWidth} {o : BitVec 21} {v : Word} :
    busAccess s (.write width o v) = .next t ↔ ∃ u, busWrite s width o v = .ok u ∧ u.recordData none = t := by
  rw [busAccess]
  split <;> simp [*]

theorem arrive_fault {s : State} {n : Nat} {p : PostedWrite} {f : Fault} (hp : s.host.posted[n]? = some p)
    (h : busAccess (s.unpost n) (.write p.width p.offset p.value) = .fault f) : arrive s n = .fault f := by
  rw [arrive, hp]
  dsimp only
  rw [busAccess_write_fault_iff.mp h]

/-- An arrival leaves the host as it was but for the write taken off the bus. -/
theorem arrive_access_next {s t : State} {n : Nat} {p : PostedWrite} (hp : s.host.posted[n]? = some p)
    (h : busAccess (s.unpost n) (.write p.width p.offset p.value) = .next t) :
    arrive s n = .next { t with host := (s.unpost n).host } := by
  obtain ⟨u, hu, rfl⟩ := busAccess_write_next_iff.mp h
  have hhost : u.host = (s.unpost n).host := (writeTarget_host (busWrite_ok hu)).1
  rw [arrive, hp]
  dsimp only
  rw [hu, ← hhost]
  rfl

end Sys2Proof.Machine

namespace Sys2Proof.Proofs

open Sys2Proof.Machine Sys2Proof.Claims

/-- Settles O8: the computation sees equal views, and a code other than OK's leaves OPMEM as it was. -/
theorem executeDependsOnlyOnLatchesAndMemory : Obligations.ExecuteDependsOnlyOnLatchesAndMemory := by
  intro i s s' hp hl hm
  have hview : s.view = s'.view := State.view_eq hp hl hm
  refine ⟨fun f => ?_, fun t h => ?_⟩
  · rw [exec_eq, exec_eq, complete_fault_iff, complete_fault_iff, hview]
  · rw [exec_eq i s', ← hview]
    rcases exec_next_code h with ⟨d, hd, rfl⟩ | ⟨c, hc, hne, rfl⟩
    · rw [hd, complete_ok]
      exact ⟨_, rfl, rfl, (State.completeOk_mem_congr hview d).symm, fun _ => rfl⟩
    · rw [hc, complete_err]
      exact ⟨_, rfl, rfl, hm.symm, fun h0 => absurd h0 hne⟩

/-- Settles O9: a completion with a result has code 0, so the command raised its code. -/
theorem errorCompletionChangesOnlyStatus : Obligations.ErrorCompletionChangesOnlyStatus := by
  intro i s t h hne
  rcases exec_next h with ⟨d, -, rfl⟩ | ⟨c, rfl⟩
  · exact absurd rfl hne
  · rfl

/-- Settles O12: the turn is the engine's step, which ends a BUSY engine's command. -/
theorem engineTurnEndsTheCommand : Obligations.EngineTurnEndsTheCommand := by
  intro s hbusy hturn
  rw [step_engine hturn]
  exact engineStep_busy hbusy

/-- Settles O29: behind roles in order the first LoadCtx that faults is the command's fault. -/
theorem inconsistentContextFaults : Obligations.InconsistentContextFaults := by
  refine ⟨fun i t s c hw ht hr hh hb hc => exec_template_loadCtx hw ht hr (loadCtx_inconsistent hh hb hc),
    fun s rd ra rb rc rx ry hr => ⟨fun c hh hb hc => ?first, fun cp c hp hh hb hc => ?second⟩⟩
  case first => exact exec_crtrec_first hr (loadCtx_inconsistent hh hb hc)
  case second => exact exec_crtrec_second hr hp (loadCtx_inconsistent hh hb hc)

/-- Settles O6, turn by turn. -/
theorem stepRunsTheLatchedCommand : Obligations.StepRunsTheLatchedCommand := by
  refine ⟨fun s i hbusy hturn hd => ?command,
    fun s hbusy hturn => ⟨step_engine hturn, fun hd => ?opcode, fun hd => ?field⟩,
    fun s a hturn hop hnow => ?access, fun s w o v hturn hop hbus => ?post, ?arrival⟩
  case command => exact (step_engine hturn).trans (engineStep_decode_ok (s := s.takeTurn) hbusy hd)
  case opcode => exact (step_engine hturn).trans (engineStep_decode_error (s := s.takeTurn) hbusy hd)
  case field => exact (step_engine hturn).trans (engineStep_decode_error (s := s.takeTurn) hbusy hd)
  case access =>
    rw [step_host_access hturn hop]
    rcases hnow with hbus | ⟨w, o, rfl⟩
    · exact hostAccess_ordered (s := s.takeTurn.hostAt (s.host.pos + 1)) hbus a
    · rfl
  case post =>
    exact (step_host_access hturn hop).trans
      (hostAccess_write_unordered (s := s.takeTurn.hostAt (s.host.pos + 1)) hbus w o v)
  case arrival =>
    rintro s n p hturn hp b rfl
    rw [step_arrive hturn]
    exact ⟨fun f => arrive_fault (s := s.takeTurn) hp, fun t => arrive_access_next (s := s.takeTurn) hp⟩

/-- Settles O7, by the rule of a CMD write in each phase. -/
theorem cmdWriteIssuesOrSetsOvr : Obligations.CmdWriteIssuesOrSetsOvr := by
  intro s w
  rw [hostWrite_cmd]
  exact ⟨fun hidle => by rw [State.writeCmd_idle s w hidle, State.issue],
    fun hbusy => by rw [State.writeCmd_busy s w hbusy]⟩

end Sys2Proof.Proofs
end

section
/-! SUPPORT. What a command of the modular template answers, error by error and with one or two sources below M;
MSETUP's errors and result; and how a context and a result stand in OPMEM after a command (40_common R164,
41_montgomery). -/

namespace Sys2Proof.Machine

/-! ### A command by the end of its computation -/

theorem exec_error {i : Instr} {s : State} {c : ErrCode} (h : computation i s.view = .error (.err c)) :
    exec i s = errorNext s c.code := by
  rw [exec_eq, h, complete_err, State.completeErr]

theorem exec_finish {i : Instr} {s : State} {rd : DIdx} {r : Nat}
    (h : computation i s.view = .ok (s.view.finish rd r)) : exec i s = resultNext s rd r := by
  rw [exec_eq, h, complete_ok]
  rfl

/-- A command that completes with OK is one whose computation succeeded. -/
theorem exec_code_ok {i : Instr} {s t : State} (h : exec i s = .next t) (he : t.errcode = 0#8) :
    ∃ d, computation i s.view = .ok d ∧ t = s.completeOk d := by
  rcases exec_next_code h with hok | ⟨c, -, hne, rfl⟩
  · exact hok
  · exact absurd he hne

theorem val_eq {s : State} {i : DIdx} {x : Nat} (h : s.ValIs i x) : s.view.val (s.view.desc i) = .ok x :=
  defined_ok_iff.mpr h

/-! ### The commands of the template (40_common R164) -/

/-- A command whose computation begins with the template has the template's errors. -/
theorem templateErrors_of_begin {i : Instr} {s : State} {t : Template} {need : Nat → Nat} {k : Ctx → Except Stop Done}
    (h : computation i s.view = modTemplate s.view t.rd t.srcs t.rc t.scr need >>= k) : TemplateErrors i s t need := by
  have stop : ∀ {c}, modTemplate s.view t.rd t.srcs t.rc t.scr need = .error (.err c) → exec i s = errorNext s c.code :=
    fun hc => exec_error (by rw [h, hc, error_bind])
  exact ⟨fun hb => stop (modTemplate_bounds hb), fun hb ho => stop (modTemplate_overlap hb ho),
    fun hr ht => stop (modTemplate_loadCtx hr (loadCtx_tag ht)),
    fun hr hs => stop (modTemplate_loadCtx hr (loadCtx_size hs)),
    fun c hr hc ⟨rs, hrs, hlen⟩ => stop (modTemplate_scratch hr hc hrs hlen),
    fun c hr hc hs hlen => stop (modTemplate_room hr hc hs hlen)⟩

/-- With all but the source's range in order, a one-source command checks the range and finishes. -/
theorem modUnary_ready {s : State} {rd ra rc : DIdx} {c : Ctx} {a : Nat} (hr : s.TemplateReady ⟨rd, [ra], rc, none⟩ c 0)
    (ha : s.ValIs ra a) (bound : Ctx → Nat) (f : Ctx → Nat → Nat) :
    modUnary s.view rd ra rc bound f =
      (require (a < bound c) .range >>= fun _ => .ok (s.view.finish rd (f c a))) := by
  have ht : modTemplate s.view rd [ra] rc none (fun _ => 0) = .ok c := modTemplate_ok_iff.mpr hr
  rw [modUnary, ht, ok_bind, View.srcBelow, val_eq ha, ok_bind]
  cases decide (a < bound c) <;> rfl

/-- With all but the sources' range in order, a two-source command checks the range and finishes. -/
theorem modBinary_ready {s : State} {rd ra rb rc : DIdx} {c : Ctx} {a b : Nat}
    (hr : s.TemplateReady ⟨rd, [ra, rb], rc, none⟩ c 0) (ha : s.ValIs ra a) (hb : s.ValIs rb b)
    (f : Ctx → Nat → Nat → Nat) :
    modBinary s.view rd ra rb rc f =
      (require (a < c.modulus && b < c.modulus) .range >>= fun _ => .ok (s.view.finish rd (f c a b))) := by
  have ht : modTemplate s.view rd [ra, rb] rc none (fun _ => 0) = .ok c := modTemplate_ok_iff.mpr hr
  rw [modBinary, ht, ok_bind, val_eq ha, ok_bind, val_eq hb, ok_bind]

theorem State.CtxAt.consistent {s : State} {d : Word} {c : Ctx} (h : s.CtxAt d c) : c.Consistent s.params.limbBits :=
  h.2.2

theorem State.TemplateReady.ctxAt {s : State} {t : Template} {c : Ctx} {need : Nat} (h : s.TemplateReady t c need) :
    s.CtxAt (s.ld.get t.rc) c := h.2.1

theorem Ctx.Consistent.odd {w : LimbBits} {c : Ctx} (h : c.Consistent w) : c.modulus % 2 = 1 := h.1

/-- A command computed as `modUnary` is a one-source command, with whatever its result satisfies for consistent
contexts. -/
theorem oneSourceCommand {i : Instr} {s : State} {rd ra rc : DIdx} {bound : Ctx → Nat} {f : Ctx → Nat → Nat}
    {bad : Ctx → Nat → Prop} {spec : Ctx → Nat → Nat → Prop}
    (hi : computation i s.view = modUnary s.view rd ra rc bound f) (hbad : ∀ c a, bad c a ↔ bound c ≤ a)
    (hspec : ∀ c a, c.Consistent s.params.limbBits → spec c a (f c a)) :
    OneSourceCommand i.opcode i s rd ra rc bad spec := by
  refine ⟨Laws.opOf_wordOf _ _, templateErrors_of_begin hi, fun c a hr ha => ⟨fun h => ?range, fun h => ?result⟩⟩
  case range =>
    refine exec_error (c := .range) ?_
    rw [hi, modUnary_ready hr ha, decide_eq_false (Nat.not_lt.mpr ((hbad c a).mp h)), require_false, error_bind]
  case result =>
    have hlt : a < bound c := Nat.not_le.mp (mt (hbad c a).mpr h)
    refine ⟨_, hspec c a hr.ctxAt.consistent, exec_finish ?_⟩
    rw [hi, modUnary_ready hr ha, decide_eq_true hlt, require_true, ok_bind]

/-- A command computed as `modBinary` is a two-source command, with whatever its result satisfies for consistent
contexts. -/
theorem twoSourceCommand {i : Instr} {s : State} {rd ra rb rc : DIdx} {f : Ctx → Nat → Nat → Nat}
    {spec : Ctx → Nat → Nat → Nat → Prop} (hi : computation i s.view = modBinary s.view rd ra rb rc f)
    (hspec : ∀ c a b, c.Consistent s.params.limbBits → spec c a b (f c a b)) :
    TwoSourceCommand i.opcode i s rd ra rb rc spec := by
  refine ⟨Laws.opOf_wordOf _ _, templateErrors_of_begin hi,
    fun c a b hr ha hb => ⟨fun h => ?range, fun hla hlb => ?result⟩⟩
  case range =>
    have hfalse : (decide (a < c.modulus) && decide (b < c.modulus)) = false := by
      rw [Bool.and_eq_false_iff, decide_eq_false_iff_not, decide_eq_false_iff_not]
      exact h.imp Nat.not_lt.mpr Nat.not_lt.mpr
    refine exec_error (c := .range) ?_
    rw [hi, modBinary_ready hr ha hb, hfalse, require_false, error_bind]
  case result =>
    refine ⟨_, hspec c a b hr.ctxAt.consistent, exec_finish ?_⟩
    rw [hi, modBinary_ready hr ha hb, decide_eq_true hla, decide_eq_true hlb, Bool.and_self, require_true, ok_bind]

/-- The constant `montRinv` is the spec's Rinv of a consistent context (00_scope R18). -/
theorem montRinv_isRinv {w : LimbBits} {c : Ctx} (h : c.Consistent w) : IsRinv w c (montRinv w c.m c.modulus) :=
  montRinv_spec w c.m (Ctx.Consistent.odd h)

/-! ### MSETUP's errors and result (41_montgomery R180) -/

/-- Behind the checks on its roles, MSETUP checks the modulus, its length and the room, and writes the context. -/
theorem msetupCmd_ready {s : State} {rd ra : DIdx} {M : Nat} (hr : RolesOk s.params [s.writtenRole rd, s.readRole ra])
    (hM : s.ValIs ra M) :
    msetupCmd s.view rd ra =
      (require (M % 2 != 0) .evenModulus >>= fun _ =>
        require (nlen s.params.limbBits M ≤ s.params.maxModLimbs) .range >>= fun _ =>
          require (needCtx (nlen s.params.limbBits M) ≤ descLen (s.ld.get rd)) .room >>= fun _ =>
            .ok { dst := some (s.ld.get rd), value := ctxValue s.params.limbBits (nlen s.params.limbBits M) M
                  scalar := needCtx (nlen s.params.limbBits M), scratch := none }) := by
  have hroles : checkRoles s.view.params [s.view.writes rd, s.view.reads ra] = .ok () := checkRoles_ok_iff.mpr hr
  rw [msetupCmd, hroles, ok_bind, val_eq hM, ok_bind]
  rfl

/-- MSETUP ends as the checks on its roles where they fail. -/
theorem exec_msetup_roles {s : State} {rd ra : DIdx} {c : ErrCode}
    (h : checkRoles s.params [s.writtenRole rd, s.readRole ra] = .error (.err c)) :
    exec (.msetup rd ra) s = errorNext s c.code := by
  have hroles : checkRoles s.view.params [s.view.writes rd, s.view.reads ra] = .error (.err c) := h
  refine exec_error ?_
  rw [computation, msetupCmd, hroles, error_bind]

/-! ### A context and a result across a command -/

theorem Memory.memRead_congr {m m' : Memory} {w : LimbBits} (n : Nat) : ∀ {a : Nat},
    (∀ b, a ≤ b → b < a + n → m.limb? w b = m'.limb? w b) → m.memRead w a n = m'.memRead w a n := by
  induction n with
  | zero => intro a _; rfl
  | succ n ih =>
    intro a h
    rw [Memory.memRead, Memory.memRead, h a (by omega) (by omega), ih fun b h1 h2 => h b (by omega) (by omega)]

/-- A context stays where every limb of its range does. -/
theorem State.CtxAt.of_limbs_eq {s t : State} {d : Word} {c : Ctx} (h : s.CtxAt d c) (hp : t.params = s.params)
    (hl : ∀ b, inRange d b → t.mem.limb? s.params.limbBits b = s.mem.limb? s.params.limbBits b) : t.CtxAt d c := by
  obtain ⟨⟨h4, htag, hm, hm1, hmax, hroom⟩, ⟨hbits, hmp, hmod, hrm, hr2⟩, hc⟩ := h
  have limb : ∀ {a x}, inRange d a → s.LimbIs a x → t.LimbIs a x := fun ha hx => by
    rw [State.LimbIs, hp, hl _ ha]
    exact hx
  have read : ∀ {a x}, descAddr d ≤ a → a + c.m ≤ descAddr d + descLen d → s.ReadIs a c.m x → t.ReadIs a c.m x :=
    fun h1 h2 hx => by
      rw [State.ReadIs, hp, Memory.memRead_congr c.m fun b hb hb' => hl b ⟨by omega, by omega⟩]
      exact hx
  refine ⟨⟨h4, limb ⟨?_, ?_⟩ htag, limb ⟨?_, ?_⟩ hm, hm1, hp ▸ hmax, hroom⟩, ⟨limb ⟨?_, ?_⟩ hbits, limb ⟨?_, ?_⟩ hmp,
    read ?_ ?_ hmod, read ?_ ?_ hrm, read ?_ ?_ hr2⟩, hp ▸ hc⟩ <;> omega

/-- A descriptor names at most one context. -/
theorem State.CtxAt.unique {s : State} {d : Word} {c c' : Ctx} (h : s.CtxAt d c) (h' : s.CtxAt d c') : c = c' :=
  Except.ok.inj ((loadCtx_ok_iff.mpr h).symm.trans (loadCtx_ok_iff.mpr h'))

/-- A result's destination leaves the context of a one-source command as it was (40_common R154). -/
theorem State.TemplateReady.ctxAt_completeOk {s : State} {rd ra rc : DIdx} {c : Ctx}
    (h : s.TemplateReady ⟨rd, [ra], rc, none⟩ c 0) (r : Nat) :
    (s.completeOk (s.view.finish rd r)).CtxAt (s.ld.get rc) c := by
  obtain ⟨⟨-, hover⟩, hctx, -, -⟩ := h
  have hdisj : RangesDisjoint (s.ld.get rd) (s.ld.get rc) :=
    (List.pairwise_cons.mp hover).1 (s.readRole rc) (by simp) (.inl rfl)
  have houtside : ∀ b, inRange (s.ld.get rc) b →
      b < descAddr (s.ld.get rd) ∨ descAddr (s.ld.get rd) + descLen (s.ld.get rd) ≤ b := fun b ⟨hlo, hhi⟩ => by omega
  exact hctx.of_limbs_eq rfl fun b hb => Memory.limb?_memWrite_outside _ _ _ _ _ _ (houtside b hb)

/-- A consistent modulus fits its m limbs. -/
theorem Ctx.Consistent.modulus_lt {w : LimbBits} {c : Ctx} (h : c.Consistent w) : c.modulus < w.base ^ c.m :=
  h.2.1 ▸ lt_base_pow_nlen w c.modulus

/-- A residue modulo M fits a room of at least m limbs. -/
theorem State.TemplateReady.residue_fits {s : State} {t : Template} {c : Ctx} {need r : Nat}
    (h : s.TemplateReady t c need) (hr : r < c.modulus) :
    r < s.params.limbBits.base ^ descLen (s.ld.get t.rd) := by
  obtain ⟨-, hctx, -, hroom⟩ := h
  calc r < c.modulus := hr
    _ < s.params.limbBits.base ^ c.m := Ctx.Consistent.modulus_lt hctx.consistent
    _ ≤ s.params.limbBits.base ^ descLen (s.ld.get t.rd) := Nat.pow_le_pow_right (LimbBits.base_pos _) hroom

/-- A result that fits its room is read back from it. -/
theorem valIs_completeOk_finish {s : State} {rd : DIdx} {r : Nat}
    (h : r < s.params.limbBits.base ^ descLen (s.ld.get rd)) : (s.completeOk (s.view.finish rd r)).ValIs rd r :=
  (Memory.memRead_memWrite _ _ _ _ _).trans (congrArg some (Nat.mod_eq_of_lt h))

/-- After a one-source command with OK and a result below M, its context is still there and its destination denotes the
result. -/
theorem exec_oneSource_ok {i : Instr} {s t : State} {rd ra rc : DIdx} {f : Ctx → Nat → Nat}
    (hi : computation i s.view = modUnary s.view rd ra rc Ctx.modulus f) (hf : ∀ c a, f c a % c.modulus = f c a)
    (h : exec i s = .next t) (he : t.errcode = 0#8) :
    ∃ c a, s.CtxAt (s.ld.get rc) c ∧ s.ValIs ra a ∧ a < c.modulus ∧ t.params = s.params ∧ t.ld = s.ld
      ∧ t.CtxAt (s.ld.get rc) c ∧ t.ValIs rd (f c a) := by
  obtain ⟨d, hd, rfl⟩ := exec_code_ok h he
  obtain ⟨c, a, hready, ha, hlt, rfl⟩ := modUnary_ok (hi.symm.trans hd)
  have hres : f c a < c.modulus := hf c a ▸ Nat.mod_lt _ (by omega)
  exact ⟨c, a, hready.ctxAt, ha, hlt, rfl, rfl, hready.ctxAt_completeOk _,
    valIs_completeOk_finish (hready.residue_fits hres)⟩

/-- Times R and then times Rinv gives a residue back (41_montgomery R182). -/
theorem mul_montR_mul_montRinv {w : LimbBits} {m M a : Nat} (hodd : M % 2 = 1) (ha : a < M) :
    a * montR w m % M * montRinv w m M % M = a := by
  have h : montR w m * montRinv w m M ≡ 1 [MOD M] := (montRinv_spec w m hodd).2
  calc a * montR w m % M * montRinv w m M % M
      = a * montR w m * montRinv w m M % M := Nat.mod_mul_mod _ _ _
    _ = a * (montR w m * montRinv w m M) % M := by rw [Nat.mul_assoc]
    _ = a * 1 % M := h.mul_left a
    _ = a := by rw [Nat.mul_one, Nat.mod_eq_of_lt ha]

end Sys2Proof.Machine

namespace Sys2Proof.Proofs

open Sys2Proof.Machine

/-- Settles O31: behind its roles MSETUP is three checks and one write, taken in order. -/
theorem msetupBuildsTheContext : Obligations.MsetupBuildsTheContext := by
  intro s rd ra
  refine ⟨Laws.opOf_wordOf _ _, fun hb => exec_msetup_roles (checkRoles_bounds hb),
    fun hb ho => exec_msetup_roles (checkRoles_overlap hb ho), ?_⟩
  rintro M m hr hM rfl
  have hcmd := msetupCmd_ready hr hM
  refine ⟨fun heven => exec_error (c := .evenModulus) ?even, fun hodd hlong => exec_error (c := .range) ?range,
    fun hodd hfit hsmall => exec_error (c := .room) ?room, fun hodd hfit hroom => ?result⟩
  case even => rw [computation, hcmd, heven]; rfl
  case range => rw [computation, hcmd, hodd, decide_eq_false (Nat.not_le.mpr hlong)]; rfl
  case room =>
    have hneed : ¬ needCtx (nlen s.params.limbBits M) ≤ descLen (s.ld.get rd) := Nat.not_le.mpr hsmall
    rw [computation, hcmd, hodd, decide_eq_true hfit, decide_eq_false hneed]; rfl
  case result =>
    rintro B rfl
    obtain ⟨hmp, hinv⟩ := negInv_spec s.params.limbBits hodd
    have hneed : needCtx (nlen s.params.limbBits M) ≤ descLen (s.ld.get rd) := hroom
    refine ⟨negInv s.params.limbBits M, hmp, hinv, ?_⟩
    rw [exec_eq, computation, hcmd, hodd, decide_eq_true hfit, decide_eq_true hneed]
    rfl

/-- Settles O34: MENC is a one-source command, and its result is R181's formula. -/
theorem mencEncodes : Obligations.MencEncodes := fun _ _ _ _ =>
  oneSourceCommand rfl (fun _ _ => Iff.rfl) fun _ _ _ => rfl

/-- Settles O35: MDEC is a one-source command, and its factor is Rinv. -/
theorem mdecDecodes : Obligations.MdecDecodes := fun _ _ _ _ =>
  oneSourceCommand rfl (fun _ _ => Iff.rfl) fun _ _ hc => ⟨_, montRinv_isRinv hc, rfl⟩

/-- Settles O36: MMUL is a two-source command, and its factor is Rinv. -/
theorem mmulMultiplies : Obligations.MmulMultiplies := fun _ _ _ _ _ =>
  twoSourceCommand rfl fun _ _ _ hc => ⟨_, montRinv_isRinv hc, rfl⟩

/-- Settles O37: MSQR is a one-source command, and its factor is Rinv. -/
theorem msqrSquares : Obligations.MsqrSquares := fun _ _ _ _ =>
  oneSourceCommand rfl (fun _ _ => Iff.rfl) fun _ _ hc => ⟨_, montRinv_isRinv hc, rfl⟩

/-- Settles O38: MRED is a one-source command with the bound M R, which T reaches where T div R reaches M. -/
theorem mredReduces : Obligations.MredReduces := fun s _ _ _ =>
  oneSourceCommand rfl
    (fun c _ => Nat.le_div_iff_mul_le (Nat.pow_pos (n := c.m) (LimbBits.base_pos s.params.limbBits)))
    fun _ _ hc => ⟨_, montRinv_isRinv hc, rfl⟩

/-- Settles O51: MENC's write leaves the context and stores a R mod M, so MDEC reads both and stores a. -/
theorem decodeAfterEncodeIsTheIdentity : Obligations.DecodeAfterEncodeIsTheIdentity := by
  intro s t u rd ra rc rd2 a ha henc het hdec heu
  obtain ⟨c, a', hctx, ha', hlt, hparams, hld, hctxT, hstored⟩ :=
    exec_oneSource_ok rfl (fun _ _ => Nat.mod_mod _ _) henc het
  obtain ⟨c', x, hctxT', hx, -, -, -, -, hback⟩ := exec_oneSource_ok rfl (fun _ _ => Nat.mod_mod _ _) hdec heu
  obtain rfl : a' = a := Option.some.inj (ha'.symm.trans ha)
  obtain rfl : c' = c := hctxT'.unique (hld ▸ hctxT)
  obtain rfl : x = a' * montR s.view.w c'.m % c'.modulus := Option.some.inj (hx.symm.trans hstored)
  have hw : t.view.w = s.view.w := congrArg Params.limbBits hparams
  rwa [hw, mul_montR_mul_montRinv (Ctx.Consistent.odd hctx.consistent) hlt] at hback

end Sys2Proof.Proofs
end

section
/-! SUPPORT. The reference algorithms of Montgomery multiplication: lists of limbs as numbers, the multiply-accumulate
row, the reduction of the lowest limb, the rounds of CIOS and of REDC, and the masked final subtraction (41_montgomery
R186 to R189). -/

namespace Sys2Proof.Machine

/-! ### Limbs (00_scope R15) -/

@[simp] theorem length_toLimbs (w : LimbBits) (n : Nat) : ∀ v, (toLimbs w n v).length = n := by
  induction n with
  | zero => intro v; rfl
  | succ n ih => intro v; rw [toLimbs, List.length_cons, ih]

theorem toLimbs_lt (w : LimbBits) (n : Nat) : ∀ v, ∀ l ∈ toLimbs w n v, l < w.base := by
  induction n with
  | zero => intro v l hl; cases hl
  | succ n ih =>
    intro v l hl
    rcases List.mem_cons.mp hl with rfl | hl
    · exact Nat.mod_lt _ (LimbBits.base_pos w)
    · exact ih _ l hl

theorem ofLimbs_toLimbs (w : LimbBits) (n : Nat) : ∀ v, ofLimbs w (toLimbs w n v) = v % w.base ^ n := by
  induction n with
  | zero => intro v; rw [toLimbs, ofLimbs, Nat.pow_zero, Nat.mod_one]
  | succ n ih => intro v; rw [toLimbs, ofLimbs, ih, Nat.pow_succ', Nat.mod_mul]

theorem ofLimbs_toLimbs_of_lt {w : LimbBits} {n v : Nat} (h : v < w.base ^ n) : ofLimbs w (toLimbs w n v) = v := by
  rw [ofLimbs_toLimbs, Nat.mod_eq_of_lt h]

theorem ofLimbs_append (w : LimbBits) (xs ys : List Nat) :
    ofLimbs w (xs ++ ys) = ofLimbs w xs + w.base ^ xs.length * ofLimbs w ys := by
  induction xs with
  | nil => simp [ofLimbs]
  | cons x xs ih => rw [List.cons_append, ofLimbs, ofLimbs, ih, List.length_cons]; ring

theorem ofLimbs_replicate_zero (w : LimbBits) (n : Nat) : ofLimbs w (List.replicate n 0) = 0 := by
  induction n with
  | zero => rfl
  | succ n ih => rw [List.replicate_succ, ofLimbs, ih, Nat.mul_zero]

/-- The lowest limb and the rest of a list of limbs. -/
theorem ofLimbs_eq_headD_tail (w : LimbBits) (l : List Nat) : ofLimbs w l = l.headD 0 + w.base * ofLimbs w l.tail := by
  cases l <;> rfl

/-- A multiple of B has lowest limb 0, so that leaving this limb behind divides by B. -/
theorem ofLimbs_eq_base_mul_tail {w : LimbBits} {l : List Nat} (hlt : l.headD 0 < w.base) (h : w.base ∣ ofLimbs w l) :
    ofLimbs w l = w.base * ofLimbs w l.tail := by
  have hsum := ofLimbs_eq_headD_tail w l
  rw [hsum, ← Nat.dvd_add_iff_left (Nat.dvd_mul_right _ _)] at h
  rw [hsum, Nat.eq_zero_of_dvd_of_lt h hlt, Nat.zero_add]

/-! ### The multiply-accumulate row and the carry -/

theorem length_addMulRow (w : LimbBits) (y : Nat) (xs : List Nat) : ∀ ts cy, xs.length ≤ ts.length →
    (addMulRow w y ts xs cy).1.length = xs.length := by
  induction xs with
  | nil => intro ts cy _; cases ts <;> rfl
  | cons x xs ih =>
    intro ts cy h
    cases ts with
    | nil => cases h
    | cons t ts => rw [addMulRow, List.length_cons, ih _ _ (Nat.le_of_succ_le_succ h), List.length_cons]

/-- A row adds x y and the carry in, exactly: the carry out stands above the row. -/
theorem addMulRow_value (w : LimbBits) (y : Nat) (xs : List Nat) : ∀ ts cy, xs.length ≤ ts.length →
    ofLimbs w (addMulRow w y ts xs cy).1 + w.base ^ xs.length * (addMulRow w y ts xs cy).2
      = ofLimbs w (ts.take xs.length) + y * ofLimbs w xs + cy := by
  induction xs with
  | nil => intro ts cy _; cases ts <;> simp [addMulRow, ofLimbs]
  | cons x xs ih =>
    intro ts cy h
    cases ts with
    | nil => cases h
    | cons t ts =>
      have hrest := ih ts ((t + x * y + cy) / w.base) (Nat.le_of_succ_le_succ h)
      have hlow := Nat.mod_add_div (t + x * y + cy) w.base
      simp only [addMulRow, ofLimbs, List.length_cons, List.take_succ_cons]
      rw [Nat.pow_succ']
      linear_combination hlow + w.base * hrest

theorem addMulRow_headD_lt (w : LimbBits) (y : Nat) (ts xs : List Nat) (cy : Nat) :
    (addMulRow w y ts xs cy).1.headD 0 < w.base := by
  match ts, xs with
  | _ :: _, _ :: _ => exact Nat.mod_lt _ (LimbBits.base_pos w)
  | [], _ => exact LimbBits.base_pos w
  | _ :: _, [] => exact LimbBits.base_pos w

@[simp] theorem length_addCarry (w : LimbBits) (ts : List Nat) : ∀ cy, (addCarry w ts cy).length = ts.length := by
  induction ts with
  | nil => intro cy; rfl
  | cons t ts ih => intro cy; rw [addCarry, List.length_cons, ih, List.length_cons]

/-- A propagated carry is added modulo the limbs' range. -/
theorem addCarry_value (w : LimbBits) (ts : List Nat) : ∀ cy,
    ofLimbs w (addCarry w ts cy) = (ofLimbs w ts + cy) % w.base ^ ts.length := by
  induction ts with
  | nil => intro cy; rw [addCarry, ofLimbs, List.length_nil, Nat.pow_zero, Nat.mod_one]
  | cons t ts ih =>
    intro cy
    have hsum : ofLimbs w (t :: ts) + cy = t + cy + w.base * ofLimbs w ts := by rw [ofLimbs]; ring
    rw [addCarry, ofLimbs, ih, hsum, List.length_cons, Nat.pow_succ', Nat.mod_mul, Nat.add_mul_mod_self_left,
      Nat.add_mul_div_left _ _ (LimbBits.base_pos w), Nat.add_comm (ofLimbs w ts)]

/-! ### Facts about a consistent context (30_encoding R122) -/

/-- What the reference algorithms use of a consistent context. -/
structure Ctx.Usable (w : LimbBits) (c : Ctx) : Prop where
  pos : 0 < c.modulus
  lt : c.modulus < w.base ^ c.m
  length : 1 ≤ c.m
  mp : w.base ∣ c.modulus * c.mp + 1

theorem Ctx.Consistent.usable {w : LimbBits} {c : Ctx} (h : c.Consistent w) : c.Usable w := by
  have hlt := Ctx.Consistent.modulus_lt h
  obtain ⟨hodd, hlen, -, -, hmp, -, -⟩ := h
  exact ⟨by omega, hlt, hlen ▸ one_le_nlen w c.modulus, Nat.dvd_of_mod_eq_zero hmp⟩

/-- The factor q = t_0 mp mod B makes t + q M a multiple of B (41_montgomery R186). -/
theorem base_dvd_add_mul_modulus {w : LimbBits} {c : Ctx} (hc : c.Usable w) (t : List Nat) :
    w.base ∣ ofLimbs w t + t.headD 0 * c.mp % w.base * c.modulus := by
  have h1 : ofLimbs w t ≡ t.headD 0 [MOD w.base] := by
    rw [ofLimbs_eq_headD_tail, Nat.ModEq, Nat.add_mul_mod_self_left]
  have h2 : t.headD 0 * c.mp % w.base * c.modulus ≡ t.headD 0 * c.mp * c.modulus [MOD w.base] :=
    (Nat.mod_modEq _ _).mul_right _
  have h3 : w.base ∣ t.headD 0 * (c.modulus * c.mp + 1) := Dvd.dvd.mul_left hc.mp _
  refine (Nat.modEq_zero_iff_dvd).mp ((h1.add h2).trans ((Nat.modEq_zero_iff_dvd).mpr ?_))
  rwa [show t.headD 0 + t.headD 0 * c.mp * c.modulus = t.headD 0 * (c.modulus * c.mp + 1) by ring]

/-! ### The reduction of the lowest limb -/

/-- The row that adds q M to t, with q = t_0 mp mod B (41_montgomery R186, R187). -/
def reduceRow (w : LimbBits) (c : Ctx) (t : List Nat) : List Nat × Nat :=
  addMulRow w (t.headD 0 * c.mp % w.base) t (toLimbs w c.m c.modulus) 0

theorem length_reduceRow {w : LimbBits} {c : Ctx} {t : List Nat} (ht : c.m ≤ t.length) :
    (reduceRow w c t).1.length = c.m := by
  rw [reduceRow, length_addMulRow _ _ _ _ _ (by rwa [length_toLimbs]), length_toLimbs]

/-- The row leaves lowest limb 0, and is q M added to the limbs it covers. -/
theorem reduceRow_value {w : LimbBits} {c : Ctx} (hc : c.Usable w) {t : List Nat} (ht : c.m ≤ t.length) :
    w.base * ofLimbs w (reduceRow w c t).1.tail + w.base ^ c.m * (reduceRow w c t).2
      = ofLimbs w (t.take c.m) + t.headD 0 * c.mp % w.base * c.modulus := by
  have hval : ofLimbs w (reduceRow w c t).1 + w.base ^ c.m * (reduceRow w c t).2
      = ofLimbs w (t.take c.m) + t.headD 0 * c.mp % w.base * c.modulus := by
    have h := addMulRow_value w (t.headD 0 * c.mp % w.base) (toLimbs w c.m c.modulus) t 0 (by rwa [length_toLimbs])
    rwa [length_toLimbs, ofLimbs_toLimbs_of_lt hc.lt, Nat.add_zero] at h
  have hhead : (t.take c.m).headD 0 = t.headD 0 := by
    obtain ⟨n, hn⟩ := Nat.exists_eq_succ_of_ne_zero (Nat.one_le_iff_ne_zero.mp hc.length)
    rw [hn]
    cases t <;> rfl
  have hdvd : w.base ∣ ofLimbs w (reduceRow w c t).1 := by
    have hcarry : w.base ∣ w.base ^ c.m * (reduceRow w c t).2 :=
      (dvd_pow_self w.base (Nat.one_le_iff_ne_zero.mp hc.length)).mul_right _
    have hsum := base_dvd_add_mul_modulus hc (t.take c.m)
    rwa [hhead, ← hval, ← Nat.dvd_add_iff_left hcarry] at hsum
  rw [← hval, ofLimbs_eq_base_mul_tail (l := (reduceRow w c t).1) (addMulRow_headD_lt _ _ _ _ _) hdvd]

/-! ### The final subtraction (41_montgomery R188) -/

theorem maskedSelect_one {width a b : Nat} (ha : a < 2 ^ width) : maskedSelect width 1 a b = a := by
  have hmask : (2 ^ width - 1) % 2 ^ width = 2 ^ width - 1 := Nat.mod_eq_of_lt (Nat.sub_one_lt (Nat.two_pow_pos _).ne')
  rw [maskedSelect, hmask, Nat.sub_self, Nat.and_zero, Nat.or_zero, Nat.and_two_pow_sub_one_eq_mod, Nat.mod_eq_of_lt ha]

theorem maskedSelect_zero {width a b : Nat} (hb : b < 2 ^ width) : maskedSelect width 0 a b = b := by
  rw [maskedSelect, Nat.sub_zero, Nat.mod_self, Nat.and_zero, Nat.zero_or, Nat.sub_zero, Nat.and_two_pow_sub_one_eq_mod,
    Nat.mod_eq_of_lt hb]

theorem LimbBits.base_pow_eq (w : LimbBits) (m : Nat) : w.base ^ m = 2 ^ (m * w.bits) := by
  rw [LimbBits.base, ← Nat.pow_mul, Nat.mul_comm]

/-- Below 2 M the masked subtraction reduces modulo M. -/
theorem finalSub_eq_mod {w : LimbBits} {c : Ctx} (hc : c.Usable w) {u : Nat} (hu : u < 2 * c.modulus) :
    finalSub w c u = u % c.modulus := by
  have hM := hc.lt
  have hbits := LimbBits.base_pow_eq w c.m
  rcases Nat.lt_or_ge u c.modulus with hlt | hge
  · have hfit : u < w.base ^ c.m := hlt.trans hM
    simp only [finalSub, if_pos hlt]
    rw [Nat.mod_eq_of_lt hfit, maskedSelect_one (hbits ▸ hfit), Nat.mod_eq_of_lt hlt]
  · have hfit : u - c.modulus < w.base ^ c.m := by omega
    have hwide : w.base ^ c.m ≤ w.base ^ (c.m + 1) := Nat.pow_le_pow_right (LimbBits.base_pos w) (Nat.le_succ _)
    have hd : (u + w.base ^ (c.m + 1) - c.modulus) % w.base ^ (c.m + 1) = u - c.modulus := by
      rw [show u + w.base ^ (c.m + 1) - c.modulus = u - c.modulus + w.base ^ (c.m + 1) by omega, Nat.add_mod_right,
        Nat.mod_eq_of_lt (hfit.trans_le hwide)]
    simp only [finalSub, if_neg (Nat.not_lt.mpr hge), hd]
    rw [Nat.mod_eq_of_lt hfit, maskedSelect_zero (hbits ▸ hfit), Nat.mod_eq_sub_mod hge, Nat.mod_eq_of_lt (by omega)]

/-- A number u with R u = T + Q M is T Rinv modulo M. -/
theorem mod_eq_mul_rinv_mod {w : LimbBits} {c : Ctx} {rinv T Q u : Nat} (hr : IsRinv w c rinv)
    (h : w.base ^ c.m * u = T + Q * c.modulus) : u % c.modulus = T * rinv % c.modulus := by
  have hinv : w.base ^ c.m * rinv ≡ 1 [MOD c.modulus] := hr.2
  have hT : w.base ^ c.m * u ≡ T [MOD c.modulus] := by
    rw [h, Nat.ModEq, Nat.add_mul_mod_self_right]
  have hu : u ≡ T * rinv [MOD c.modulus] :=
    calc u = u * 1 := (Nat.mul_one u).symm
      _ ≡ u * (w.base ^ c.m * rinv) [MOD c.modulus] := hinv.symm.mul_left u
      _ = w.base ^ c.m * u * rinv := by ring
      _ ≡ T * rinv [MOD c.modulus] := hT.mul_right rinv
  exact hu

/-! ### Interleaved multiplication (41_montgomery R186) -/

/-- The value of the accumulator t[0 .. m], whose top limb is held apart. -/
def accValue (w : LimbBits) (c : Ctx) (acc : List Nat × Nat) : Nat := ofLimbs w acc.1 + w.base ^ c.m * acc.2

/-- A round of CIOS on m limbs of t keeps m limbs, and adds a b_i and a limb's multiple of M and divides by B. -/
theorem ciosRound_spec {w : LimbBits} {c : Ctx} (hc : c.Usable w) {as t : List Nat} (has : as.length = c.m)
    (ht : t.length = c.m) (top bi : Nat) :
    (ciosRound w c as t top bi).1.length = c.m ∧ ∃ q, q < w.base ∧
      w.base * accValue w c (ciosRound w c as t top bi)
        = accValue w c (t, top) + bi * ofLimbs w as + q * c.modulus := by
  have hlen1 : (addMulRow w bi t as 0).1.length = c.m := by rw [length_addMulRow _ _ _ _ _ (by omega), has]
  have hval1 := addMulRow_value w bi as t 0 (by omega)
  rw [has, ← ht, List.take_length, ht, Nat.add_zero] at hval1
  generalize hrow1 : addMulRow w bi t as 0 = row1 at hlen1 hval1
  obtain ⟨t1, cy1⟩ := row1
  have hlen2 := length_reduceRow (w := w) (c := c) (t := t1) hlen1.ge
  have hval2 := reduceRow_value hc (t := t1) hlen1.ge
  rw [List.take_of_length_le hlen1.le] at hval2
  generalize hrow2 : reduceRow w c t1 = row2 at hlen2 hval2
  obtain ⟨t2, cy2⟩ := row2
  have hround : ciosRound w c as t top bi = (t2.tail ++ [((top + cy1) % w.base + cy2) % w.base],
      (top + cy1) / w.base + ((top + cy1) % w.base + cy2) / w.base) := by
    rw [reduceRow] at hrow2
    simp only [ciosRound, hrow1, hrow2]
  obtain ⟨n, hn⟩ := Nat.exists_eq_succ_of_ne_zero (Nat.one_le_iff_ne_zero.mp hc.length)
  have htail : t2.tail.length = n := by rw [List.length_tail, hlen2, hn, Nat.succ_sub_one]
  rw [hround]
  refine ⟨by rw [List.length_append, htail, hn]; rfl, t1.headD 0 * c.mp % w.base, Nat.mod_lt _ (LimbBits.base_pos w),
    ?_⟩
  have hcarry1 := Nat.mod_add_div (top + cy1) w.base
  have hcarry2 := Nat.mod_add_div ((top + cy1) % w.base + cy2) w.base
  simp only [accValue, ofLimbs_append, htail, ofLimbs]
  rw [hn, Nat.pow_succ'] at hval1 hval2 ⊢
  linear_combination hval1 + hval2 + w.base * w.base ^ n * (hcarry1 + hcarry2)

/-- Less than 2 M, with a limb's multiple of a number below M and one of M added and divided by B, stays below 2 M. -/
theorem round_bound {B M V V' a b q : Nat} (hV : V < 2 * M) (ha : a < M) (hb : b < B) (hq : q < B)
    (h : B * V' = V + b * a + q * M) : V' < 2 * M := by
  obtain ⟨k, rfl⟩ := Nat.exists_eq_add_of_lt hb
  have hba : b * a ≤ (b + k) * M := Nat.mul_le_mul (Nat.le_add_right b k) ha.le
  have hqM : q * M ≤ (b + k) * M := Nat.mul_le_mul_right _ (Nat.le_of_lt_succ hq)
  refine Nat.lt_of_mul_lt_mul_left (a := b + k + 1) ?_
  calc (b + k + 1) * V' = V + b * a + q * M := h
    _ < 2 * M + (b + k) * M + (b + k) * M := by omega
    _ = (b + k + 1) * (2 * M) := by ring

/-- The loop of CIOS over the limbs of b: the accumulator stays below 2 M, and B to the number of rounds times it is a b
added to the first one, up to a multiple of M. -/
theorem ciosLoop_spec {w : LimbBits} {c : Ctx} (hc : c.Usable w) {as : List Nat} (has : as.length = c.m)
    (ha : ofLimbs w as < c.modulus) (bs : List Nat) : ∀ t top, (∀ b ∈ bs, b < w.base) → t.length = c.m →
      accValue w c (t, top) < 2 * c.modulus →
      accValue w c (ciosLoop w c as bs t top) < 2 * c.modulus ∧ ∃ Q,
        w.base ^ bs.length * accValue w c (ciosLoop w c as bs t top)
          = accValue w c (t, top) + ofLimbs w as * ofLimbs w bs + Q * c.modulus := by
  induction bs with
  | nil => intro t top _ _ hV; exact ⟨hV, 0, by simp [ciosLoop, ofLimbs]⟩
  | cons b bs ih =>
    intro t top hbs ht hV
    obtain ⟨hb, hbs⟩ := List.forall_mem_cons.mp hbs
    obtain ⟨hlen, q, hq, hround⟩ := ciosRound_spec hc has ht top b
    obtain ⟨hlt, Q, hQ⟩ := ih _ (ciosRound w c as t top b).2 hbs hlen (round_bound hV ha hb hq hround)
    refine ⟨hlt, q + w.base * Q, ?_⟩
    rw [ciosLoop, ofLimbs, List.length_cons, Nat.pow_succ']
    linear_combination hround + w.base * hQ

/-- Interleaved multiplication is a b Rinv mod M, for a below M and b of m limbs. -/
theorem montMulRef_eq {w : LimbBits} {c : Ctx} {a b rinv : Nat} (hc : c.Usable w) (ha : a < c.modulus)
    (hb : b < w.base ^ c.m) (hr : IsRinv w c rinv) : montMulRef w c a b = a * b * rinv % c.modulus := by
  have hva : ofLimbs w (toLimbs w c.m a) = a := ofLimbs_toLimbs_of_lt (ha.trans hc.lt)
  have hstart : accValue w c (List.replicate c.m 0, 0) = 0 := by rw [accValue, ofLimbs_replicate_zero, Nat.mul_zero]
  obtain ⟨hlt, Q, hQ⟩ := ciosLoop_spec hc (length_toLimbs w c.m a) (hva.symm ▸ ha) (toLimbs w c.m b)
    (List.replicate c.m 0) 0 (toLimbs_lt w c.m b) List.length_replicate (by have := hc.pos; omega)
  rw [length_toLimbs, hstart, hva, ofLimbs_toLimbs_of_lt hb, Nat.zero_add] at hQ
  calc montMulRef w c a b
      = finalSub w c (accValue w c (ciosLoop w c (toLimbs w c.m a) (toLimbs w c.m b) (List.replicate c.m 0) 0)) := by
        rw [montMulRef, accValue, Nat.mul_comm (w.base ^ c.m)]
    _ = accValue w c (ciosLoop w c (toLimbs w c.m a) (toLimbs w c.m b) (List.replicate c.m 0) 0) % c.modulus :=
        finalSub_eq_mod hc hlt
    _ = a * b * rinv % c.modulus := mod_eq_mul_rinv_mod hr hQ

/-! ### Limb-by-limb reduction (41_montgomery R187) -/

/-- A round of REDC on more than m limbs that have room for q M leaves one limb behind, and adds a limb's multiple of M
and divides by B. -/
theorem redcRound_spec {w : LimbBits} {c : Ctx} (hc : c.Usable w) {t : List Nat} (ht : c.m ≤ t.length)
    (hroom : ∀ q, q < w.base → ofLimbs w t + q * c.modulus < w.base ^ t.length) :
    (redcRound w c t).length = t.length - 1 ∧ ∃ q, q < w.base ∧
      w.base * ofLimbs w (redcRound w c t) = ofLimbs w t + q * c.modulus := by
  have hlen := length_reduceRow (w := w) ht
  have hval := reduceRow_value hc ht
  have hround : redcRound w c t = (reduceRow w c t).1.tail ++ addCarry w (t.drop c.m) (reduceRow w c t).2 := by
    have hne : (reduceRow w c t).1 ≠ [] := by
      rw [← List.length_pos_iff_ne_nil, hlen]
      exact hc.length
    exact List.tail_append_of_ne_nil hne
  have hq : t.headD 0 * c.mp % w.base < w.base := Nat.mod_lt _ (LimbBits.base_pos w)
  have hfit := hroom _ hq
  generalize t.headD 0 * c.mp % w.base = q at hval hq hfit
  generalize reduceRow w c t = row at hlen hval hround
  obtain ⟨row, cy⟩ := row
  dsimp only at hlen hval hround
  have hsplit : ofLimbs w t = ofLimbs w (t.take c.m) + w.base ^ c.m * ofLimbs w (t.drop c.m) := by
    conv_lhs => rw [← List.take_append_drop c.m t, ofLimbs_append, List.length_take_of_le ht]
  have hhigh : ofLimbs w (addCarry w (t.drop c.m) cy) = ofLimbs w (t.drop c.m) + cy := by
    rw [addCarry_value, Nat.mod_eq_of_lt]
    refine Nat.lt_of_mul_lt_mul_left (a := w.base ^ c.m) ?_
    rw [← Nat.pow_add, List.length_drop, Nat.add_sub_cancel' ht]
    refine Nat.lt_of_le_of_lt ?_ hfit
    rw [hsplit, Nat.mul_add]
    omega
  obtain ⟨n, hn⟩ := Nat.exists_eq_succ_of_ne_zero (Nat.one_le_iff_ne_zero.mp hc.length)
  have htail : row.tail.length = n := by rw [List.length_tail, hlen, hn, Nat.succ_sub_one]
  rw [hround]
  refine ⟨?_, q, hq, ?_⟩
  · rw [List.length_append, htail, length_addCarry, List.length_drop]
    omega
  · rw [ofLimbs_append, htail, hhigh, hsplit]
    rw [hn, Nat.pow_succ'] at hval ⊢
    linear_combination hval

/-- The loop of REDC with k rounds to go, on m + k + 1 limbs below M (B^k + 1): what is left is below 2 M, and B^k times
it is what was there, up to a multiple of M. -/
theorem redcLoop_spec {w : LimbBits} {c : Ctx} (hc : c.Usable w) (k : Nat) : ∀ t, t.length = c.m + k + 1 →
    ofLimbs w t < c.modulus * (w.base ^ k + 1) →
      ofLimbs w (redcLoop w c k t) < 2 * c.modulus ∧ ∃ Q,
        w.base ^ k * ofLimbs w (redcLoop w c k t) = ofLimbs w t + Q * c.modulus := by
  have hB := LimbBits.one_lt_base w
  have hM := hc.lt
  induction k with
  | zero => intro t _ hV; exact ⟨by rwa [Nat.pow_zero, Nat.mul_comm] at hV, 0, by simp [redcLoop]⟩
  | succ k ih =>
    intro t ht hV
    have hstep : ∀ q, q < w.base → ofLimbs w t + q * c.modulus < w.base * (c.modulus * (w.base ^ k + 1)) :=
      fun q hq =>
        calc ofLimbs w t + q * c.modulus < c.modulus * (w.base ^ (k + 1) + 1) + q * c.modulus :=
            Nat.add_lt_add_right hV _
          _ = w.base * (c.modulus * w.base ^ k) + (q + 1) * c.modulus := by ring
          _ ≤ w.base * (c.modulus * w.base ^ k) + w.base * c.modulus :=
            Nat.add_le_add_left (Nat.mul_le_mul_right _ hq) _
          _ = w.base * (c.modulus * (w.base ^ k + 1)) := by ring
    have hfit : w.base * (c.modulus * (w.base ^ k + 1)) ≤ w.base ^ t.length := by
      have hk : w.base ^ k + 1 ≤ w.base ^ (k + 1) := Nat.pow_lt_pow_right hB (Nat.lt_succ_self k)
      calc w.base * (c.modulus * (w.base ^ k + 1)) ≤ w.base * (w.base ^ c.m * w.base ^ (k + 1)) :=
            Nat.mul_le_mul_left _ (Nat.mul_le_mul hM.le hk)
        _ = w.base ^ t.length := by rw [ht, ← Nat.pow_add, ← Nat.pow_succ']
    obtain ⟨hlen, q, hq, hround⟩ := redcRound_spec hc (by omega) fun q hq => (hstep q hq).trans_le hfit
    have hV' : ofLimbs w (redcRound w c t) < c.modulus * (w.base ^ k + 1) :=
      Nat.lt_of_mul_lt_mul_left (a := w.base) (hround ▸ hstep q hq)
    obtain ⟨hlt, Q, hQ⟩ := ih _ (by omega) hV'
    refine ⟨hlt, q + w.base * Q, ?_⟩
    rw [redcLoop, Nat.pow_succ']
    linear_combination hround + w.base * hQ

/-- Limb-by-limb reduction is T Rinv mod M. -/
theorem redcRef_eq {w : LimbBits} {c : Ctx} {T rinv : Nat} (hc : c.Usable w) (hT : T < c.modulus * w.base ^ c.m)
    (hr : IsRinv w c rinv) : redcRef w c T = T * rinv % c.modulus := by
  have hwide : c.modulus * w.base ^ c.m ≤ w.base ^ (2 * c.m + 1) :=
    calc c.modulus * w.base ^ c.m ≤ w.base ^ c.m * w.base ^ c.m := Nat.mul_le_mul_right _ hc.lt.le
      _ = w.base ^ (2 * c.m) := by rw [← Nat.pow_add, Nat.two_mul]
      _ ≤ w.base ^ (2 * c.m + 1) := Nat.pow_le_pow_right (LimbBits.base_pos w) (Nat.le_succ _)
  have hval : ofLimbs w (toLimbs w (2 * c.m + 1) T) = T := ofLimbs_toLimbs_of_lt (hT.trans_le hwide)
  obtain ⟨hlt, Q, hQ⟩ := redcLoop_spec hc c.m (toLimbs w (2 * c.m + 1) T) (by rw [length_toLimbs]; omega)
    (by rw [hval, Nat.mul_add]; omega)
  rw [hval] at hQ
  rw [redcRef, finalSub_eq_mod hc hlt]
  exact mod_eq_mul_rinv_mod hr hQ

end Sys2Proof.Machine

namespace Sys2Proof.Proofs

open Sys2Proof.Machine

/-- Settles O56: CIOS for the product, and for its uses with b = R² mod M, where R² Rinv is R, and with b = 1. -/
theorem ciosMultiplyIsTheMontgomeryProduct : Obligations.CiosMultiplyIsTheMontgomeryProduct := by
  intro w c a b rinv hcons ha hb hr
  have hc := Ctx.Consistent.usable hcons
  obtain ⟨-, -, -, -, -, -, hr2⟩ := hcons
  have hr2lt : c.r2 < c.modulus := hr2 ▸ Nat.mod_lt _ hc.pos
  refine ⟨montMulRef_eq hc ha (hb.trans hc.lt) hr, ?enc, ?dec⟩
  case enc =>
    have hinv : w.base ^ c.m * rinv ≡ 1 [MOD c.modulus] := hr.2
    have hR2 : c.r2 ≡ (w.base ^ c.m) ^ 2 [MOD c.modulus] := hr2 ▸ Nat.mod_modEq _ _
    have hkey : a * c.r2 * rinv ≡ a * w.base ^ c.m [MOD c.modulus] :=
      calc a * c.r2 * rinv ≡ a * (w.base ^ c.m) ^ 2 * rinv [MOD c.modulus] := (hR2.mul_left a).mul_right rinv
        _ = a * w.base ^ c.m * (w.base ^ c.m * rinv) := by ring
        _ ≡ a * w.base ^ c.m * 1 [MOD c.modulus] := hinv.mul_left _
        _ = a * w.base ^ c.m := Nat.mul_one _
    rw [encRef, montMulRef_eq hc ha (hr2lt.trans hc.lt) hr]
    exact hkey
  case dec =>
    have hone : 1 < w.base ^ c.m := Nat.one_lt_pow (Nat.one_le_iff_ne_zero.mp hc.length) (LimbBits.one_lt_base w)
    rw [decRef, montMulRef_eq hc ha hone hr, Nat.mul_one]

/-- Settles O57: the rounds of REDC on 2m + 1 limbs, none of which drops a carry. -/
theorem redcIsTheMontgomeryReduction : Obligations.RedcIsTheMontgomeryReduction := fun _ _ _ _ hc hT hr =>
  redcRef_eq (Ctx.Consistent.usable hc) hT hr

end Sys2Proof.Proofs
end

section
/-! SUPPORT. Modular add, subtract, negate, halve, double and triple: the values of the command rules, the one-source
and two-source commands by their results on sources below M, and the masked reference algorithms (42_modular_arith R210
to R216). -/

namespace Sys2Proof.Machine

/-! ### The values of the command rules (42_modular_arith R211 to R213) -/

/-- The reduced difference of two residues is their difference, with M added where it would be negative. -/
theorem subMod_eq {a b M : Nat} (ha : a < M) (hb : b < M) :
    subMod a b M = if b ≤ a then a - b else a + M - b := by
  rw [subMod]
  split
  · have hdiff : (a : Int) - b = ((a - b : Nat) : Int) := by omega
    rw [hdiff, Int.emod_eq_of_lt (by omega) (by omega), Int.toNat_natCast]
  · have hdiff : (a : Int) - b + M = ((a + M - b : Nat) : Int) := by omega
    rw [← Int.add_emod_right, hdiff, Int.emod_eq_of_lt (by omega) (by omega), Int.toNat_natCast]

/-- The reduced negative of a residue is 0 for 0, not M. -/
theorem subMod_zero_left {a M : Nat} (ha : a < M) : subMod 0 a M = if a = 0 then 0 else M - a := by
  rw [subMod_eq (by omega) ha]
  split <;> split <;> omega

/-- With inv2 = (M + 1) / 2 for odd M, a inv2 is r modulo M wherever 2 r is a plus a multiple of M. -/
theorem mul_half_modulus_mod {a k r M : Nat} (hodd : M % 2 = 1) (hr : r < M) (h : 2 * r = a + k * M) :
    a * ((M + 1) / 2) % M = r := by
  have htwo : 2 * ((M + 1) / 2) = M + 1 := by omega
  have hmod : a * ((M + 1) / 2) ≡ r [MOD M] :=
    calc a * ((M + 1) / 2) ≡ a * ((M + 1) / 2) + M * (k * ((M + 1) / 2)) [MOD M] :=
          (Nat.add_mul_mod_self_left _ _ _).symm
      _ = (a + k * M) * ((M + 1) / 2) := by ring
      _ = r * (2 * ((M + 1) / 2)) := by rw [← h]; ring
      _ = r + M * r := by rw [htwo]; ring
      _ ≡ r [MOD M] := Nat.add_mul_mod_self_left _ _ _
  rw [hmod, Nat.mod_eq_of_lt hr]

/-- Times inv2 modulo an odd M is half of a, or of a + M for an odd a. -/
theorem mul_half_modulus_eq {a M : Nat} (hodd : M % 2 = 1) (ha : a < M) :
    a * ((M + 1) / 2) % M = if a % 2 = 0 then a / 2 else (a + M) / 2 := by
  split
  · exact mul_half_modulus_mod (k := 0) hodd (by omega) (by omega)
  · exact mul_half_modulus_mod (k := 1) hodd (by omega) (by omega)

/-! ### Commands whose result is specified for sources below M -/

/-- `oneSourceCommand` for a source bounded by M, where the result need satisfy its rule only for a below M. -/
theorem oneSourceCommand_below {i : Instr} {s : State} {rd ra rc : DIdx} {f : Ctx → Nat → Nat}
    {spec : Ctx → Nat → Nat → Prop} (hi : computation i s.view = modUnary s.view rd ra rc Ctx.modulus f)
    (hspec : ∀ c a, c.Consistent s.params.limbBits → a < c.modulus → spec c a (f c a)) :
    OneSourceCommand i.opcode i s rd ra rc (fun c a => a ≥ c.modulus) spec := by
  obtain ⟨hop, herr, hcmd⟩ := oneSourceCommand (spec := fun c a r => a < c.modulus → spec c a r) hi
    (fun _ _ => Iff.rfl) hspec
  refine ⟨hop, herr, fun c a hready ha => ⟨(hcmd c a hready ha).1, fun hlt => ?_⟩⟩
  obtain ⟨r, hr, hexec⟩ := (hcmd c a hready ha).2 hlt
  exact ⟨r, hr (Nat.not_le.mp hlt), hexec⟩

/-- `twoSourceCommand`, where the result need satisfy its rule only for a and b below M. -/
theorem twoSourceCommand_below {i : Instr} {s : State} {rd ra rb rc : DIdx} {f : Ctx → Nat → Nat → Nat}
    {spec : Ctx → Nat → Nat → Nat → Prop} (hi : computation i s.view = modBinary s.view rd ra rb rc f)
    (hspec : ∀ c a b, a < c.modulus → b < c.modulus → spec c a b (f c a b)) :
    TwoSourceCommand i.opcode i s rd ra rb rc spec := by
  obtain ⟨hop, herr, hcmd⟩ := twoSourceCommand
    (spec := fun c a b r => a < c.modulus → b < c.modulus → spec c a b r) hi fun c a b _ => hspec c a b
  refine ⟨hop, herr, fun c a b hready ha hb => ⟨(hcmd c a b hready ha hb).1, fun hla hlb => ?_⟩⟩
  obtain ⟨r, hr, hexec⟩ := (hcmd c a b hready ha hb).2 hla hlb
  exact ⟨r, hr hla hlb, hexec⟩

/-! ### The masked reference algorithms (42_modular_arith R216) -/

theorem modAddRef_eq {w : LimbBits} {c : Ctx} {a b : Nat} (hc : c.Usable w) (ha : a < c.modulus) (hb : b < c.modulus) :
    modAddRef w c a b = (a + b) % c.modulus := finalSub_eq_mod hc (by omega)

/-- The borrow of a - b selects the difference with M added, whose carry cancels the borrow. -/
theorem modSubRef_eq {w : LimbBits} {c : Ctx} {a b : Nat} (hc : c.Usable w) (ha : a < c.modulus) (hb : b < c.modulus) :
    modSubRef w c a b = if b ≤ a then a - b else a + c.modulus - b := by
  have hM := hc.lt
  have hbits := LimbBits.base_pow_eq w c.m
  rcases Nat.lt_or_ge a b with hlt | hge
  · have hd : (a + w.base ^ c.m - b) % w.base ^ c.m = a + w.base ^ c.m - b := Nat.mod_eq_of_lt (by omega)
    have hfit : a + c.modulus - b < w.base ^ c.m := by omega
    have hsum : (a + w.base ^ c.m - b + c.modulus) % w.base ^ c.m = a + c.modulus - b := by
      rw [show a + w.base ^ c.m - b + c.modulus = a + c.modulus - b + w.base ^ c.m by omega, Nat.add_mod_right,
        Nat.mod_eq_of_lt hfit]
    simp only [modSubRef, if_pos hlt, if_neg (Nat.not_le.mpr hlt), hd, hsum]
    exact maskedSelect_one (hbits ▸ hfit)
  · have hfit : a - b < w.base ^ c.m := by omega
    have hd : (a + w.base ^ c.m - b) % w.base ^ c.m = a - b := by
      rw [Nat.sub_add_comm hge, Nat.add_mod_right, Nat.mod_eq_of_lt hfit]
    simp only [modSubRef, if_neg (Nat.not_lt.mpr hge), if_pos hge, hd]
    exact maskedSelect_zero (hbits ▸ hfit)

theorem modNegRef_eq {w : LimbBits} {c : Ctx} {a : Nat} (hc : c.Usable w) (ha : a < c.modulus) :
    modNegRef w c a = if a = 0 then 0 else c.modulus - a := by
  rw [modNegRef, modSubRef_eq hc hc.pos ha, ← subMod_eq hc.pos ha, subMod_zero_left ha]

/-- The mask of a's low bit adds M exactly for an odd a. -/
theorem modHalfRef_eq {w : LimbBits} {c : Ctx} (hc : c.Usable w) (a : Nat) :
    modHalfRef w c a = if a % 2 = 0 then a / 2 else (a + c.modulus) / 2 := by
  have hfit : c.modulus < 2 ^ (c.m * w.bits) := LimbBits.base_pow_eq w c.m ▸ hc.lt
  rw [modHalfRef, Nat.shiftRight_one]
  rcases Nat.mod_two_eq_zero_or_one a with heven | hodd
  · rw [heven, Nat.sub_zero, Nat.mod_self, Nat.and_zero, Nat.add_zero, if_pos rfl]
  · have hmask : (2 ^ (c.m * w.bits) - 1) % 2 ^ (c.m * w.bits) = 2 ^ (c.m * w.bits) - 1 :=
      Nat.mod_eq_of_lt (Nat.sub_one_lt (Nat.two_pow_pos _).ne')
    rw [hodd, hmask, Nat.and_two_pow_sub_one_eq_mod, Nat.mod_eq_of_lt hfit, if_neg Nat.one_ne_zero]

theorem modDblRef_eq {w : LimbBits} {c : Ctx} {a : Nat} (hc : c.Usable w) (ha : a < c.modulus) :
    modDblRef w c a = 2 * a % c.modulus := by
  rw [modDblRef, modAddRef_eq hc ha ha, Nat.two_mul]

theorem modTplRef_eq {w : LimbBits} {c : Ctx} {a : Nat} (hc : c.Usable w) (ha : a < c.modulus) :
    modTplRef w c a = 3 * a % c.modulus := by
  rw [modTplRef, modDblRef_eq hc ha, modAddRef_eq hc (Nat.mod_lt _ hc.pos) ha, Nat.mod_add_mod, ← Nat.succ_mul]

end Sys2Proof.Machine

namespace Sys2Proof.Proofs

open Sys2Proof.Machine

/-- Settles O39: MADD is a two-source command, and its result is R210's formula. -/
theorem maddAdds : Obligations.MaddAdds := fun _ _ _ _ _ =>
  twoSourceCommand rfl fun _ _ _ _ => rfl

/-- Settles O40: MSUB's reduced difference is a - b, or a - b + M where that would be negative. -/
theorem msubSubtracts : Obligations.MsubSubtracts := fun _ _ _ _ _ =>
  twoSourceCommand_below rfl fun _ _ _ ha hb => by
    rw [subMod_eq ha hb]
    split <;> omega

/-- Settles O41: MNEG subtracts from 0. -/
theorem mnegNegates : Obligations.MnegNegates := fun _ _ _ _ =>
  oneSourceCommand_below rfl fun _ _ _ ha => subMod_zero_left ha

/-- Settles O42: the factor (M + 1) / 2 halves modulo the odd M. -/
theorem mhalfHalves : Obligations.MhalfHalves := fun _ _ _ _ =>
  oneSourceCommand_below rfl fun _ _ hc ha => mul_half_modulus_eq (Ctx.Consistent.odd hc) ha

/-- Settles O43: MDBL is a one-source command, and its result is R214's formula. -/
theorem mdblDoubles : Obligations.MdblDoubles := fun _ _ _ _ =>
  oneSourceCommand rfl (fun _ _ => Iff.rfl) fun _ _ _ => rfl

/-- Settles O44: MTPL is a one-source command, and its result is R215's formula. -/
theorem mtplTriples : Obligations.MtplTriples := fun _ _ _ _ =>
  oneSourceCommand rfl (fun _ _ => Iff.rfl) fun _ _ _ => rfl

/-- Settles O58, operation by operation: a masked choice is the choice its borrow or low bit makes. -/
theorem maskedModularOperationsAreExact : Obligations.MaskedModularOperationsAreExact := fun _ _ a _ hcons ha hb =>
  have hc := Ctx.Consistent.usable hcons
  ⟨modAddRef_eq hc ha hb, modSubRef_eq hc ha hb, modNegRef_eq hc ha, modHalfRef_eq hc a, modDblRef_eq hc ha,
    modTplRef_eq hc ha⟩

end Sys2Proof.Proofs
end

section
/-! SUPPORT. The size BUFSZ answers and its bounds, the exponentiation value as a power in Montgomery form, and the
three exponentiation commands by the shared computation behind them (43_exponentiation R230 to R236). -/

namespace Sys2Proof.Machine

open Sys2Proof.Claims

/-! ### Sizes (43_exponentiation R232) -/

theorem LimbBits.alignLimbs_pos (w : LimbBits) : 0 < w.alignLimbs := by cases w <;> decide

theorem roundup_isRoundup (x : Nat) {a : Nat} (ha : 0 < a) : IsRoundup x a (roundup x a) := by
  have hdiv := Nat.div_add_mod' (x + a - 1) a
  have hmod := Nat.mod_lt (x + a - 1) ha
  refine ⟨Nat.dvd_mul_left _ _, by rw [roundup]; omega, ?_⟩
  rintro _ ⟨k, rfl⟩ hk
  have hlt : (x + a - 1) / a < k + 1 := by
    rw [Nat.div_lt_iff_lt_mul ha, Nat.add_mul, Nat.mul_comm k]
    omega
  rw [roundup, Nat.mul_comm a]
  exact Nat.mul_le_mul_right a (Nat.le_of_lt_succ hlt)

/-- The least multiple above the larger number is a multiple above the smaller one. -/
theorem IsRoundup.mono {x x' a r r' : Nat} (hx : x ≤ x') (h : IsRoundup x a r) (h' : IsRoundup x' a r') : r ≤ r' :=
  h.2.2 r' h'.1 (hx.trans h'.2.1)

theorem wpol_isPolicyWidth (ebits : Nat) : IsPolicyWidth ebits (wpol ebits) := by
  simp only [wpol, IsPolicyWidth]
  split_ifs <;> omega

/-- Each threshold of the policy widens the window. -/
theorem IsPolicyWidth.mono {ebits ebits' width width' : Nat} (he : ebits ≤ ebits') (h : IsPolicyWidth ebits width)
    (h' : IsPolicyWidth ebits' width') : width ≤ width' := by
  simp only [IsPolicyWidth] at h h'
  omega

theorem windowWidth_isWindowWidth (w : LimbBits) (win : BitVec 3) (ne : Nat) :
    IsWindowWidth w win ne (windowWidth win (ne * w.bits)) := by
  rw [windowWidth]
  split
  case isTrue hauto => exact .inl ⟨hauto, wpol_isPolicyWidth _⟩
  case isFalse hfixed => exact .inr ⟨hfixed, rfl⟩

/-- A longer exponent never has a narrower window. -/
theorem IsWindowWidth.mono {w : LimbBits} {win : BitVec 3} {ne ne' width width' : Nat} (hne : ne ≤ ne')
    (h : IsWindowWidth w win ne width) (h' : IsWindowWidth w win ne' width') : width ≤ width' := by
  rcases h with ⟨hauto, hw⟩ | ⟨hfixed, rfl⟩ <;> rcases h' with ⟨hauto', hw'⟩ | ⟨hfixed', rfl⟩
  · exact IsPolicyWidth.mono (Nat.mul_le_mul_right _ hne) hw hw'
  · exact absurd hauto hfixed'
  · exact absurd hauto' hfixed
  · exact le_rfl

theorem needWin_isWindowNeed (w : LimbBits) (win : BitVec 3) (ne m : Nat) :
    IsWindowNeed w win ne m (needWin w (windowWidth win (ne * w.bits)) m) :=
  ⟨_, _, windowWidth_isWindowWidth w win ne, roundup_isRoundup _ (LimbBits.alignLimbs_pos w), rfl⟩

/-- Neither a longer modulus nor a longer exponent needs less scratch. -/
theorem IsWindowNeed.mono {w : LimbBits} {win : BitVec 3} {m m' ne ne' size size' : Nat} (hm : m ≤ m')
    (hne : ne ≤ ne') (h : IsWindowNeed w win ne m size) (h' : IsWindowNeed w win ne' m' size') : size ≤ size' := by
  obtain ⟨width, r, hwidth, hr, rfl⟩ := h
  obtain ⟨width', r', hwidth', hr', rfl⟩ := h'
  have htable : 2 ^ width * m ≤ 2 ^ width' * m' :=
    Nat.mul_le_mul (Nat.pow_le_pow_right (by decide) (IsWindowWidth.mono hne hwidth hwidth')) hm
  have hround : r ≤ r' := IsRoundup.mono htable hr hr'
  omega

theorem bufferSize_isBufferSize (w : LimbBits) (sel : BufSel) (win : BitVec 3) (m ne : Nat) :
    IsBufferSize w sel win m ne (bufferSize w sel win m ne) := by
  cases sel with
  | win => exact needWin_isWindowNeed w win ne m
  | bin | ct | ctx => rfl

theorem IsBufferSize.mono {w : LimbBits} {sel : BufSel} {win : BitVec 3} {m m' ne ne' size size' : Nat} (hm : m ≤ m')
    (hne : ne ≤ ne') (h : IsBufferSize w sel win m ne size) (h' : IsBufferSize w sel win m' ne' size') :
    size ≤ size' := by
  cases sel with
  | win => exact IsWindowNeed.mono hm hne h h'
  | bin | ct | ctx =>
    simp only [IsBufferSize] at h h'
    omega

/-- A well-formed BUFSZ checks the modulus length and answers the size; it reads no limb. -/
theorem bufszCmd_wellFormed {s : State} {ra rb : DIdx} {sel : BufSel} {win : BitVec 3}
    (hw : (Instr.bufsz ra rb sel win).wellFormed = true) :
    bufszCmd s.view ra rb sel win =
      (require (descLen (s.ld.get ra) != 0 && descLen (s.ld.get ra) ≤ s.params.maxModLimbs) .range >>= fun _ =>
        .ok { dst := none, value := 0, scratch := none
              scalar := bufferSize s.params.limbBits sel win (descLen (s.ld.get ra)) (descLen (s.ld.get rb)) }) := by
  rw [bufszCmd, hw, require_true, ok_bind]
  rfl

/-! ### The exponentiation value (43_exponentiation R231) -/

theorem Ctx.Consistent.rm_eq {w : LimbBits} {c : Ctx} (h : c.Consistent w) : c.rm = w.base ^ c.m % c.modulus := by
  obtain ⟨-, -, -, -, -, hrm, -⟩ := h
  exact hrm

theorem IsRinv.eq {w : LimbBits} {c : Ctx} {rinv rinv' : Nat} (h : IsRinv w c rinv) (h' : IsRinv w c rinv') :
    rinv = rinv' :=
  inverse_unique h.1 h'.1 h.2 h'.2

/-- X^(k+1) Rinv^k is R (X Rinv)^(k+1), modulo M. -/
theorem pow_mul_rinv_pow_modEq {w : LimbBits} {c : Ctx} {rinv : Nat} (hr : IsRinv w c rinv) (x k : Nat) :
    x ^ (k + 1) * rinv ^ k ≡ w.base ^ c.m * (x * rinv) ^ (k + 1) [MOD c.modulus] := by
  have hinv : w.base ^ c.m * rinv ≡ 1 [MOD c.modulus] := hr.2
  calc x ^ (k + 1) * rinv ^ k = x ^ (k + 1) * rinv ^ k * 1 := (Nat.mul_one _).symm
    _ ≡ x ^ (k + 1) * rinv ^ k * (w.base ^ c.m * rinv) [MOD c.modulus] := hinv.symm.mul_left _
    _ = w.base ^ c.m * (x * rinv) ^ (k + 1) := by ring

/-- ExpMont(X, e, C) is R (X Rinv)^e mod M, for e = 0 too. -/
theorem expMont_eq {w : LimbBits} {c : Ctx} {rinv : Nat} (hc : c.Consistent w) (hr : IsRinv w c rinv) (x e : Nat) :
    expMont w c x e = w.base ^ c.m * (x * rinv) ^ e % c.modulus := by
  obtain rfl := IsRinv.eq hr (montRinv_isRinv hc)
  cases e with
  | zero => rw [expMont, if_pos rfl, Ctx.Consistent.rm_eq hc, Nat.pow_zero, Nat.mul_one]
  | succ k =>
    rw [expMont, if_neg (Nat.succ_ne_zero k), powMod_eq, powMod_eq, ← Nat.mul_mod, Nat.add_sub_cancel]
    exact pow_mul_rinv_pow_modEq hr x k

/-- The claims' ExpMont is the value the commands compute. -/
theorem isExpMont_iff {w : LimbBits} {c : Ctx} {x e y : Nat} (hc : c.Consistent w) :
    IsExpMont w c x e y ↔ y = expMont w c x e := by
  cases e with
  | zero => simp [IsExpMont, expMont]
  | succ k =>
    have hval : ∀ rinv, IsRinv w c rinv → x ^ (k + 1) * rinv ^ (k + 1 - 1) % c.modulus = expMont w c x (k + 1) :=
      fun rinv hr => (pow_mul_rinv_pow_modEq hr x k).trans (expMont_eq hc hr x (k + 1)).symm
    constructor
    · rintro (⟨h0, -⟩ | ⟨-, rinv, hr, rfl⟩)
      · exact absurd h0 (Nat.succ_ne_zero k)
      · exact hval rinv hr
    · rintro rfl
      exact .inr ⟨Nat.succ_ne_zero k, _, montRinv_isRinv hc, (hval _ (montRinv_isRinv hc)).symm⟩

/-! ### The exponentiation commands (43_exponentiation R233 to R236) -/

/-- With all but the sources in order, an exponentiation checks the base's range, reads the exponent and finishes. -/
theorem expCmd_ready {s : State} {rd ra rb rc rs : DIdx} {need : Nat → Nat} {c : Ctx} {x : Nat}
    (hr : s.TemplateReady ⟨rd, [ra, rb], rc, some rs⟩ c (need c.m)) (hx : s.ValIs ra x) :
    expCmd s.view rd ra rb rc rs need =
      (require (x < c.modulus) .range >>= fun _ => s.view.val (s.view.desc rb) >>= fun e =>
        .ok { dst := some (s.ld.get rd), value := expMont s.params.limbBits c x e
              scalar := nlen s.params.limbBits (expMont s.params.limbBits c x e), scratch := some (s.ld.get rs) }) := by
  have ht : modTemplate s.view rd [ra, rb] rc (some rs) need = .ok c := modTemplate_ok_iff.mpr hr
  rw [expCmd, ht, ok_bind, View.srcBelow, val_eq hx, ok_bind]
  cases decide (x < c.modulus) <;> rfl

/-- A command computed as `expCmd` is an exponentiation. -/
theorem expCommand {i : Instr} {s : State} {rd ra rb rc rs : DIdx} {need : Nat → Nat}
    (hi : computation i s.view = expCmd s.view rd ra rb rc rs need) :
    ExpCommand i.opcode i s rd ra rb rc rs need := by
  refine ⟨Laws.opOf_wordOf _ _, templateErrors_of_begin hi,
    fun c x hr hx => ⟨fun h => ?range, fun hlt e he => ?result⟩⟩
  case range =>
    refine exec_error (c := .range) ?_
    rw [hi, expCmd_ready hr hx, decide_eq_false (Nat.not_lt.mpr h), require_false, error_bind]
  case result =>
    refine ⟨_, (isExpMont_iff hr.ctxAt.consistent).mpr rfl, ?_⟩
    rw [exec_eq, hi, expCmd_ready hr hx, decide_eq_true hlt, require_true, ok_bind, val_eq he, ok_bind, complete_ok]
    rfl

/-- Behind the check of WIN, EXPWIN is the shared computation with its own scratch need. -/
theorem expwinCmd_wellFormed {v : View} {rd ra rb rc rs : DIdx} {win : BitVec 3}
    (hw : (Instr.expwin rd ra rb rc rs win).wellFormed = true) :
    expwinCmd v rd ra rb rc rs win =
      expCmd v rd ra rb rc rs (needWin v.w (windowWidth win (descLen (v.desc rb) * v.w.bits))) := by
  rw [expwinCmd, hw, require_true, ok_bind]

/-- An EXPWIN that succeeds is the shared computation succeeding with some scratch need. -/
theorem expwinCmd_ok {v : View} {rd ra rb rc rs : DIdx} {win : BitVec 3} {d : Done}
    (h : expwinCmd v rd ra rb rc rs win = .ok d) : ∃ need, expCmd v rd ra rb rc rs need = .ok d := by
  obtain ⟨_, -, hexp⟩ := bind_ok_iff.mp h
  exact ⟨_, hexp⟩

/-- What an exponentiation writes does not depend on its scratch need. -/
theorem expCmd_ok_unique {s : State} {rd ra rb rc rs : DIdx} {need need' : Nat → Nat} {d d' : Done}
    (h : expCmd s.view rd ra rb rc rs need = .ok d) (h' : expCmd s.view rd ra rb rc rs need' = .ok d') : d = d' := by
  obtain ⟨c, x, e, hr, hx, he, -, rfl⟩ := expCmd_ok h
  obtain ⟨c', x', e', hr', hx', he', -, rfl⟩ := expCmd_ok h'
  obtain rfl : c = c' := hr.ctxAt.unique hr'.ctxAt
  obtain rfl : x = x' := Option.some.inj (hx.symm.trans hx')
  obtain rfl : e = e' := Option.some.inj (he.symm.trans he')
  rfl

end Sys2Proof.Machine

namespace Sys2Proof.Proofs

open Sys2Proof.Machine Sys2Proof.Claims

/-- Settles O33: BUFSZ is one check and the size, and each part of a size grows with both lengths. -/
theorem bufszAnswersTheSize : Obligations.BufszAnswersTheSize := by
  refine ⟨fun s ra rb sel win hw => ⟨fun hbad => exec_error (c := .range) ?range, fun hpos hmax => ?result⟩,
    fun _ _ _ _ _ _ _ _ _ hm hne => IsBufferSize.mono hm hne⟩
  case range =>
    have hfalse : (descLen (s.ld.get ra) != 0 && decide (descLen (s.ld.get ra) ≤ s.params.maxModLimbs)) = false := by
      rw [Bool.and_eq_false_iff, bne_eq_false_iff_eq, decide_eq_false_iff_not]
      exact hbad.imp_right Nat.not_le.mpr
    rw [computation, bufszCmd_wellFormed hw, hfalse, require_false, error_bind]
  case result =>
    have htrue : (descLen (s.ld.get ra) != 0) = true := bne_iff_ne.mpr (Nat.one_le_iff_ne_zero.mp hpos)
    refine ⟨_, bufferSize_isBufferSize _ _ _ _ _, ?_⟩
    rw [exec_eq, computation, bufszCmd_wellFormed hw, htrue, decide_eq_true hmax]
    rfl

/-- Settles O45: EXPBIN is the shared exponentiation with scratch need 3m. -/
theorem expbinExponentiates : Obligations.ExpbinExponentiates := fun _ _ _ _ _ _ => expCommand rfl

/-- Settles O46: EXPCT is the shared exponentiation with scratch need 4m. -/
theorem expctExponentiates : Obligations.ExpctExponentiates := fun _ _ _ _ _ _ => expCommand rfl

/-- Settles O47: behind the check of WIN, EXPWIN is the shared exponentiation with the window's scratch need. -/
theorem expwinExponentiates : Obligations.ExpwinExponentiates := fun s _ _ rb _ _ win hwin =>
  ⟨_, needWin_isWindowNeed s.params.limbBits win (descLen (s.ld.get rb)),
    expCommand (expwinCmd_wellFormed (bne_iff_ne.mpr hwin))⟩

/-- Settles O52: the three commands succeed with the same completion record. -/
theorem exponentiationEnginesAgree : Obligations.ExponentiationEnginesAgree := by
  intro s t u v rd ra rb rc rs win hbin hbin0 hct hct0 hwin hwin0
  obtain ⟨dbin, hdbin, rfl⟩ := exec_code_ok hbin hbin0
  obtain ⟨dct, hdct, rfl⟩ := exec_code_ok hct hct0
  obtain ⟨dwin, hdwin, rfl⟩ := exec_code_ok hwin hwin0
  obtain ⟨need, hneed⟩ := expwinCmd_ok hdwin
  obtain rfl : dbin = dct := expCmd_ok_unique hdbin hdct
  obtain rfl : dbin = dwin := expCmd_ok_unique hdbin hneed
  exact ⟨rfl, rfl⟩

/-- Settles O53: (X Rinv mod M)^e mod M times R is R (X Rinv)^e, modulo M. -/
theorem expMontIsMontOfThePower : Obligations.ExpMontIsMontOfThePower := by
  intro w c x e rinv hc _ hr
  have hdec : (x * rinv % c.modulus) ^ e ≡ (x * rinv) ^ e [MOD c.modulus] := (Nat.mod_modEq _ _).pow e
  rw [expMont_eq hc hr, Nat.mod_mul_mod, Nat.mul_comm]
  exact (hdec.mul_right _).symm

end Sys2Proof.Proofs
end

section
/-! SUPPORT. The exponentiation loops: Montgomery products of exponentiation values add their exponents, so each loop is
a computation of exponents; and EXPWIN's scrambled table with its scanning lookup (43_exponentiation R237 to R239). -/

namespace Sys2Proof.Machine

/-! ### Products of exponentiation values -/

/-- The product of two residues is the residue of their product times Rinv (41_montgomery R186). -/
theorem montMulRef_expMont {w : LimbBits} {c : Ctx} (hc : c.Consistent w) (x j k : Nat) :
    montMulRef w c (expMont w c x j) (expMont w c x k) = expMont w c x (j + k) := by
  have hu := Ctx.Consistent.usable hc
  have hr := montRinv_isRinv hc
  have hinv : w.base ^ c.m * montRinv w c.m c.modulus ≡ 1 [MOD c.modulus] := hr.2
  generalize montRinv w c.m c.modulus = rinv at hr hinv
  have hlt : ∀ e, expMont w c x e < c.modulus := fun e => expMont_eq hc hr x e ▸ Nat.mod_lt _ hu.pos
  have hmod : ∀ e, expMont w c x e ≡ w.base ^ c.m * (x * rinv) ^ e [MOD c.modulus] := fun e =>
    expMont_eq hc hr x e ▸ Nat.mod_modEq _ _
  have hprod : expMont w c x j * expMont w c x k * rinv ≡ w.base ^ c.m * (x * rinv) ^ (j + k) [MOD c.modulus] :=
    calc expMont w c x j * expMont w c x k * rinv
        ≡ w.base ^ c.m * (x * rinv) ^ j * (w.base ^ c.m * (x * rinv) ^ k) * rinv [MOD c.modulus] :=
          ((hmod j).mul (hmod k)).mul_right rinv
      _ = w.base ^ c.m * (x * rinv) ^ (j + k) * (w.base ^ c.m * rinv) := by ring
      _ ≡ w.base ^ c.m * (x * rinv) ^ (j + k) * 1 [MOD c.modulus] := hinv.mul_left _
      _ = w.base ^ c.m * (x * rinv) ^ (j + k) := Nat.mul_one _
  rw [montMulRef_eq hu (hlt j) ((hlt k).trans hu.lt) hr, expMont_eq hc hr x (j + k)]
  exact hprod

theorem expMont_zero (w : LimbBits) (c : Ctx) (x : Nat) : expMont w c x 0 = c.rm := if_pos rfl

theorem expMont_one {w : LimbBits} {c : Ctx} {x : Nat} (hx : x < c.modulus) : expMont w c x 1 = x := by
  rw [expMont, if_neg Nat.one_ne_zero, powMod_eq, powMod_eq, Nat.pow_one, Nat.pow_zero, ← Nat.mul_mod, Nat.mul_one,
    Nat.mod_eq_of_lt hx]

theorem expMont_base_zero {w : LimbBits} {c : Ctx} {e : Nat} (he : e ≠ 0) : expMont w c 0 e = 0 := by
  rw [expMont, if_neg he, powMod_eq, Nat.zero_pow (Nat.pos_of_ne_zero he), Nat.zero_mod, Nat.zero_mul, Nat.zero_mod]

theorem expMont_lt_base_pow {w : LimbBits} {c : Ctx} (hc : c.Consistent w) (x e : Nat) :
    expMont w c x e < w.base ^ c.m := by
  have hu := Ctx.Consistent.usable hc
  exact expMont_eq hc (montRinv_isRinv hc) x e ▸ (Nat.mod_lt _ hu.pos).trans hu.lt

/-! ### The exponent bits read so far -/

theorem bitOf_eq_zero_or_one (e i : Nat) : bitOf e i = 0 ∨ bitOf e i = 1 := Nat.mod_two_eq_zero_or_one _

/-- The bits of e from lo on are those from lo + k on, followed by k more. -/
theorem div_two_pow_eq (e lo k : Nat) : e / 2 ^ lo = 2 ^ k * (e / 2 ^ (lo + k)) + e / 2 ^ lo % 2 ^ k := by
  rw [Nat.pow_add, ← Nat.div_div_eq_div_mul, Nat.div_add_mod]

theorem div_two_pow_eq_bitOf (e i : Nat) : e / 2 ^ i = e / 2 ^ (i + 1) + e / 2 ^ (i + 1) + bitOf e i := by
  rw [← Nat.two_mul]
  exact div_two_pow_eq e i 1

/-- Above the highest bit of e stands 1, where EXPBIN's loop begins. -/
theorem div_two_pow_bitlen {e : Nat} (he : e ≠ 0) : e / 2 ^ (bitlen e - 1) = 1 := by
  rw [bitlen, if_neg he, Nat.add_sub_cancel]
  refine Nat.div_eq_of_lt_le ?_ ?_
  · rw [Nat.one_mul]
    exact Nat.log2_self_le he
  · rw [← Nat.pow_succ']
    exact Nat.lt_log2_self

/-! ### The loops over an exponent-adding product -/

section

variable {mul : Nat → Nat → Nat} {f : Nat → Nat} (hmul : ∀ j k, mul (f j) (f k) = f (j + k))
include hmul

/-- Square and multiply, begun with the bits of e from i on (43_exponentiation R237). -/
theorem expBinLoop_eq (e i : Nat) : expBinLoop mul (f 1) e i (f (e / 2 ^ i)) = f e := by
  induction i with
  | zero => rw [expBinLoop, Nat.pow_zero, Nat.div_one]
  | succ i ih =>
    have hstep : (if bitOf e i = 1 then mul (mul (f (e / 2 ^ (i + 1))) (f (e / 2 ^ (i + 1)))) (f 1)
        else mul (f (e / 2 ^ (i + 1))) (f (e / 2 ^ (i + 1)))) = f (e / 2 ^ i) := by
      rw [hmul, hmul, div_two_pow_eq_bitOf e i]
      rcases bitOf_eq_zero_or_one e i with hbit | hbit
      · rw [hbit, if_neg Nat.zero_ne_one]
        rfl
      · rw [hbit, if_pos rfl]
    rw [expBinLoop, hstep, ih]

theorem squarings_eq (k : Nat) : ∀ j, squarings mul k (f j) = f (2 ^ k * j) := by
  induction k with
  | zero => intro j; rw [squarings, Nat.pow_zero, Nat.one_mul]
  | succ k ih => intro j; rw [squarings, hmul, ih, ← Nat.two_mul, ← Nat.mul_assoc, ← Nat.pow_succ]

/-- The table's entries are consecutive powers (43_exponentiation R239). -/
theorem tablePowers_eq (k : Nat) : ∀ j, tablePowers mul (f 1) k (f j) = (List.range' j k).map f := by
  induction k with
  | zero => intro j; rfl
  | succ k ih => intro j; rw [tablePowers, hmul, ih, List.range'_succ, List.map_cons]

/-- k squarings and a product with entry j take the bits of e read so far k bits on. -/
theorem mul_squarings_eq {look : Nat → Nat} {width : Nat} (hlook : ∀ j, j < 2 ^ width → look j = f j) {k : Nat}
    (hk : k ≤ width) (e lo : Nat) :
    mul (squarings mul k (f (e / 2 ^ (lo + k)))) (look (e / 2 ^ lo % 2 ^ k)) = f (e / 2 ^ lo) := by
  have hdigit : e / 2 ^ lo % 2 ^ k < 2 ^ width :=
    (Nat.mod_lt _ (Nat.two_pow_pos k)).trans_le (Nat.pow_le_pow_right (by decide) hk)
  rw [squarings_eq hmul, hlook _ hdigit, hmul, ← div_two_pow_eq]

/-- The full windows above the rem lowest bits (43_exponentiation R239). -/
theorem windowLoop_eq {look : Nat → Nat} {width : Nat} (hlook : ∀ j, j < 2 ^ width → look j = f j)
    (rem e k : Nat) :
    windowLoop mul look width rem e k (f (e / 2 ^ (rem + k * width))) = f (e / 2 ^ rem) := by
  induction k with
  | zero => rw [windowLoop, Nat.zero_mul, Nat.add_zero]
  | succ k ih =>
    rw [windowLoop, Nat.add_mul, Nat.one_mul, ← Nat.add_assoc, mul_squarings_eq hmul hlook le_rfl, ih]

end

/-- The masked choice by a bit of e is the entry with the bit as exponent (43_exponentiation R238). -/
theorem maskedSelect_bitOf {w : LimbBits} {c : Ctx} {x : Nat} (hc : c.Consistent w) (hx : x < c.modulus) (e i : Nat) :
    maskedSelect (c.m * w.bits) (bitOf e i) x c.rm = expMont w c x (bitOf e i) := by
  have hfit : ∀ k, expMont w c x k < 2 ^ (c.m * w.bits) := fun k =>
    LimbBits.base_pow_eq w c.m ▸ expMont_lt_base_pow hc x k
  rcases bitOf_eq_zero_or_one e i with hbit | hbit
  · rw [hbit, expMont_zero, maskedSelect_zero (expMont_zero w c x ▸ hfit 0)]
  · rw [hbit, expMont_one hx, maskedSelect_one (expMont_one (w := w) hx ▸ hfit 1)]

/-- EXPCT's loop, begun with the bits of e from i on (43_exponentiation R238). -/
theorem expCtLoop_eq {w : LimbBits} {c : Ctx} {x : Nat} (hc : c.Consistent w) (hx : x < c.modulus) (e i : Nat) :
    expCtLoop w c x e i (expMont w c x (e / 2 ^ i)) = expMont w c x e := by
  induction i with
  | zero => rw [expCtLoop, Nat.pow_zero, Nat.div_one]
  | succ i ih =>
    simp only [expCtLoop]
    rw [maskedSelect_bitOf hc hx, montMulRef_expMont hc, montMulRef_expMont hc, ← div_two_pow_eq_bitOf, ih]

/-! ### The scrambled table and its lookup (43_exponentiation R239) -/

/-- The entries of EXPWIN's table. -/
theorem windowTable_eq {w : LimbBits} {c : Ctx} {x : Nat} (hc : c.Consistent w) (hx : x < c.modulus) (width : Nat) :
    windowTable w c x width = (List.range (2 ^ width)).map (expMont w c x) := by
  have hpowers := tablePowers_eq (montMulRef_expMont hc x) (2 ^ width - 1) 1
  rw [expMont_one hx] at hpowers
  obtain ⟨n, hn⟩ := Nat.exists_eq_succ_of_ne_zero (Nat.two_pow_pos width).ne'
  rw [windowTable, hpowers, hn, Nat.succ_sub_one, List.range_eq_range', List.range'_succ, List.map_cons, expMont_zero]

/-- Slot s of row i, of m rows of n slots each. -/
theorem getD_flatMap_range {α : Type} {row : Nat → List α} {n : Nat} (hrow : ∀ i, (row i).length = n) {i s : Nat}
    (hs : s < n) (d : α) (m : Nat) : i < m → ((List.range m).flatMap row).getD (i * n + s) d = (row i).getD s d := by
  have hlen : ∀ k, ((List.range k).flatMap row).length = k * n := fun k => by
    simp [List.length_flatMap, hrow]
  induction m with
  | zero => intro h; omega
  | succ m ih =>
    intro h
    rw [List.range_succ, List.flatMap_append, List.flatMap_singleton]
    rcases Nat.lt_succ_iff_lt_or_eq.mp h with hlt | rfl
    · have hin : i * n + s < m * n :=
        calc i * n + s < i * n + n := Nat.add_lt_add_left hs _
          _ = (i + 1) * n := (Nat.succ_mul i n).symm
          _ ≤ m * n := Nat.mul_le_mul_right n hlt
      rw [List.getD_append _ _ _ _ (hlen m ▸ hin), ih hlt]
    · rw [List.getD_append_right _ _ _ _ (by rw [hlen]; exact Nat.le_add_right _ _), hlen, Nat.add_sub_cancel_left]

theorem getD_scramble (w : LimbBits) (g : Nat → Nat) {m n i s : Nat} (hi : i < m) (hs : s < n) :
    (scramble w m ((List.range n).map g)).getD (i * n + s) 0 = g s / w.base ^ i % w.base := by
  rw [scramble, getD_flatMap_range (by simp) hs 0 m hi, List.getD_eq_getElem _ _ (by simpa using hs), List.getElem_map,
    List.getElem_map, List.getElem_range]

/-- A scan of n slots under EqMask keeps slot j alone. -/
theorem foldl_eqMask (w : LimbBits) (g : Nat → Nat) (j n : Nat) :
    (List.range n).foldl (fun acc s => acc ||| (g s &&& eqMask w s j)) 0 = if j < n then g j % w.base else 0 := by
  induction n with
  | zero => rfl
  | succ n ih =>
    rw [List.range_succ, List.foldl_append, ih, List.foldl_cons, List.foldl_nil, eqMask]
    rcases Nat.lt_trichotomy j n with hlt | rfl | hgt
    · rw [if_pos hlt, if_neg hlt.ne', Nat.and_zero, Nat.or_zero, if_pos (hlt.trans (Nat.lt_succ_self n))]
    · rw [if_neg (Nat.lt_irrefl j), if_pos rfl, if_pos (Nat.lt_succ_self j), Nat.zero_or]
      exact Nat.and_two_pow_sub_one_eq_mod _ _
    · rw [if_neg hgt.not_gt, if_neg hgt.ne, if_neg (by omega), Nat.and_zero, Nat.or_zero]

theorem toLimbs_eq_map_range (w : LimbBits) (n : Nat) : ∀ v,
    toLimbs w n v = (List.range n).map fun i => v / w.base ^ i % w.base := by
  induction n with
  | zero => intro v; rfl
  | succ n ih =>
    intro v
    simp only [toLimbs, ih, List.range_succ_eq_map, List.map_cons, List.map_map, Function.comp_def, Nat.pow_zero,
      Nat.div_one, Nat.div_div_eq_div_mul, Nat.pow_succ']

/-- The lookup scans every slot and finds entry j. -/
theorem lookupRef_scramble {w : LimbBits} {g : Nat → Nat} {m n j : Nat} (hj : j < n) (hfit : g j < w.base ^ m) :
    lookupRef w m n (scramble w m ((List.range n).map g)) j = g j := by
  have hlimb : ∀ i ∈ List.range m, (List.range n).foldl
      (fun acc s => acc ||| ((scramble w m ((List.range n).map g)).getD (i * n + s) 0 &&& eqMask w s j)) 0
        = g j / w.base ^ i % w.base := fun i hi => by
    rw [foldl_eqMask w fun s => (scramble w m ((List.range n).map g)).getD (i * n + s) 0, if_pos hj,
      getD_scramble w g (List.mem_range.mp hi) hj, Nat.mod_mod]
  rw [lookupRef, List.map_congr_left hlimb, ← toLimbs_eq_map_range, ofLimbs_toLimbs_of_lt hfit]

/-! ### The three engines' reference algorithms -/

theorem expBinRef_eq {w : LimbBits} {c : Ctx} {x : Nat} (hc : c.Consistent w) (hx : x < c.modulus) (e : Nat) :
    expBinRef w c x e = expMont w c x e := by
  rw [expBinRef]
  split_ifs with he hx0
  · rw [he, expMont_zero]
  · rw [hx0, expMont_base_zero he]
  · have hloop := expBinLoop_eq (montMulRef_expMont hc x) e (bitlen e - 1)
    rwa [div_two_pow_bitlen he, expMont_one hx] at hloop

theorem expCtRef_eq {w : LimbBits} {c : Ctx} {x e ebits : Nat} (hc : c.Consistent w) (hx : x < c.modulus)
    (he : e < 2 ^ ebits) : expCtRef w c x e ebits = expMont w c x e := by
  rw [expCtRef]
  split_ifs with he0 hx0
  · rw [he0, expMont_zero]
  · rw [hx0, expMont_base_zero he0]
  · have hloop := expCtLoop_eq hc hx e ebits
    rwa [Nat.div_eq_of_lt he, expMont_zero] at hloop

theorem expWinRef_eq {w : LimbBits} {c : Ctx} {x e ebits width : Nat} (hc : c.Consistent w) (hx : x < c.modulus)
    (he : e < 2 ^ ebits) (hwidth : 1 ≤ width) : expWinRef w c x e ebits width = expMont w c x e := by
  have hmul := montMulRef_expMont hc x
  have hlook : ∀ j, j < 2 ^ width →
      lookupRef w c.m (2 ^ width) (scramble w c.m (windowTable w c x width)) j = expMont w c x j := fun j hj => by
    rw [windowTable_eq hc hx, lookupRef_scramble hj (expMont_lt_base_pow hc x j)]
  have hfull := windowLoop_eq hmul hlook (ebits % width) e (ebits / width)
  rw [Nat.mod_add_div', Nat.div_eq_of_lt he, expMont_zero] at hfull
  simp only [expWinRef, hfull]
  split_ifs with he0 hx0 hrem
  · rw [he0, expMont_zero]
  · rw [hx0, expMont_base_zero he0]
  · rw [hrem, Nat.pow_zero, Nat.div_one]
  · have hlast := mul_squarings_eq hmul hlook (Nat.mod_lt ebits hwidth).le e 0
    rwa [Nat.zero_add, Nat.pow_zero, Nat.div_one] at hlast

end Sys2Proof.Machine

namespace Sys2Proof.Proofs

open Sys2Proof.Machine

/-- Settles O59: both loops carry ExpMont of the exponent bits they have read. -/
theorem binaryExponentiationLoopsAreExpMont : Obligations.BinaryExponentiationLoopsAreExpMont := by
  intro w c x e ebits y hc hx he hy
  obtain rfl := (isExpMont_iff hc).mp hy
  exact ⟨expBinRef_eq hc hx e, expCtRef_eq hc hx he⟩

/-- Settles O60: each window carries ExpMont of the exponent bits read, and the lookup finds the digit's power. -/
theorem windowedExponentiationIsExpMont : Obligations.WindowedExponentiationIsExpMont := by
  intro w c x e ebits width y hc hx he hwidth _ hy
  obtain rfl := (isExpMont_iff hc).mp hy
  exact expWinRef_eq hc hx he hwidth

end Sys2Proof.Proofs
end

section
/-! SUPPORT. What the Euclidean loops compute, and GCD and MINV as checks taken in order behind two sources
(44_gcd_inverse R260 to R263). -/

namespace Sys2Proof.Machine

/-! ### The Euclidean loops (44_gcd_inverse R262, R263) -/

/-- Each round keeps gcd(u, v), and v rounds and one more reach v = 0. -/
theorem gcdLoop_eq_gcd (fuel : Nat) : ∀ u v, v < fuel → gcdLoop fuel u v = Nat.gcd u v := by
  induction fuel with
  | zero => intro u v h; omega
  | succ fuel ih =>
    intro u v h
    rw [gcdLoop]
    split
    · next h0 => rw [h0, Nat.gcd_zero_right]
    · next h0 =>
      have hlt : u % v < v := Nat.mod_lt _ (Nat.pos_of_ne_zero h0)
      rw [ih v (u % v) (by omega), Nat.gcd_comm u v, Nat.gcd_rec v u, Nat.gcd_comm]

/-- A round's two divisions keep gcd(A, Mv), and the loop answers only where a remainder is 1. -/
theorem gcd_eq_one_of_invLoop {n x : Nat} (fuel : Nat) : ∀ A mv x1 x2, invLoop n fuel A mv x1 x2 = some x →
    Nat.gcd A mv = 1 := by
  induction fuel with
  | zero => intro A mv x1 x2 h; cases h
  | succ fuel ih =>
    intro A mv x1 x2 h
    rw [invLoop] at h
    split at h
    · next hA => rw [hA, Nat.gcd_one_left]
    · split at h
      · cases h
      · rw [Nat.gcd_rec]
        dsimp only at h
        split at h
        · next hr => rw [hr, Nat.gcd_one_left]
        · split at h
          · cases h
          · rw [Nat.gcd_rec]
            exact ih _ _ _ _ h

/-- For 0 < a < n the inverse loop fails exactly where a has no inverse. -/
theorem modInverse_eq_none_iff {a n : Nat} (h0 : 0 < a) (hlt : a < n) : modInverse a n = none ↔ Nat.gcd a n ≠ 1 := by
  constructor
  · intro hnone hg
    obtain ⟨x, hx, -⟩ := modInverse_spec h0 hlt hg
    rw [hnone] at hx
    cases hx
  · intro hg
    exact Option.eq_none_iff_forall_ne_some.mpr fun x hx => hg (gcd_eq_one_of_invLoop _ _ _ _ _ hx)

theorem one_le_of_mul_mod_eq_one {a n x : Nat} (h : a * x % n = 1) : 1 ≤ x := by
  refine Nat.pos_of_ne_zero ?_
  rintro rfl
  rw [Nat.mul_zero, Nat.zero_mod] at h
  cases h

/-- What the inverse loop answers is the inverse, in [1, n). -/
theorem modInverse_some {a n x : Nat} (h0 : 0 < a) (hlt : a < n) (h : modInverse a n = some x) :
    1 ≤ x ∧ x < n ∧ a * x % n = 1 := by
  obtain ⟨y, hy, hyn, hinv⟩ := modInverse_spec h0 hlt (gcd_eq_one_of_invLoop _ _ _ _ _ h)
  obtain rfl : x = y := Option.some.inj (h.symm.trans hy)
  exact ⟨one_le_of_mul_mod_eq_one hinv, hyn, hinv⟩

/-- For 0 < a < n coprime to n, `invMod a n` is the inverse in [1, n). -/
theorem invMod_inverts {a n : Nat} (h0 : 0 < a) (hlt : a < n) (h : Nat.gcd a n = 1) :
    1 ≤ invMod a n ∧ invMod a n < n ∧ a * invMod a n % n = 1 := by
  obtain ⟨hlt', hinv⟩ := invMod_spec (h0.trans hlt) h
  rw [Nat.mod_eq_of_lt (a := 1) (by omega)] at hinv
  exact ⟨one_le_of_mul_mod_eq_one hinv, hlt', hinv⟩

/-! ### A command that begins with a check -/

/-- A command whose computation begins with the checks on its roles has their errors (40_common R153, R154). -/
theorem roleErrors_of_begin {i : Instr} {s : State} {roles : List Role} {k : Unit → Except Stop Done}
    (h : computation i s.view = checkRoles s.params roles >>= k) :
    (¬ AllInBounds s.params roles → exec i s = errorNext s 0x03#8)
    ∧ (AllInBounds s.params roles → ¬ NoOverlap roles → exec i s = errorNext s 0x04#8) :=
  ⟨fun hb => exec_error (c := .bounds) (by rw [h, checkRoles_bounds hb, error_bind]),
    fun hb ho => exec_error (c := .overlap) (by rw [h, checkRoles_overlap hb ho, error_bind])⟩

/-- A command whose computation comes to a check that fails ends with the check's error. -/
theorem exec_require_false {i : Instr} {s : State} {ok : Bool} {c : ErrCode} {k : Unit → Except Stop Done}
    (h : computation i s.view = require ok c >>= k) (hok : ok = false) : exec i s = errorNext s c.code :=
  exec_error (by rw [h, hok, require_false, error_bind])

/-- A command whose computation comes to a check that passes goes on behind it. -/
theorem computation_require_true {i : Instr} {s : State} {ok : Bool} {c : ErrCode} {k : Unit → Except Stop Done}
    (h : computation i s.view = require ok c >>= k) (hok : ok = true) : computation i s.view = k () := by
  rw [h, hok, require_true, ok_bind]

/-! ### The two commands behind their roles and sources (44_gcd_inverse R260, R261) -/

section
variable {s : State} {rd ra rb : DIdx} {a b : Nat}
  (hr : RolesOk s.params [s.writtenRole rd, s.readRole ra, s.readRole rb]) (ha : s.ValIs ra a) (hb : s.ValIs rb b)
include hr ha hb

/-- Behind the checks on its roles, a command of two plain sources goes on with their values. -/
theorem twoValues_ready (k : Nat → Nat → Except Stop Done) :
    (checkRoles s.params [s.writtenRole rd, s.readRole ra, s.readRole rb] >>= fun _ =>
      s.view.val (s.view.desc ra) >>= fun x => s.view.val (s.view.desc rb) >>= fun y => k x y) = k a b := by
  rw [checkRoles_ok_iff (u := ()).mpr hr, ok_bind, val_eq ha, ok_bind, val_eq hb, ok_bind]

/-- GCD with its operands read checks for two zeros and for room, and writes the greatest common divisor. -/
theorem computation_gcd_ready : computation (.gcd rd ra rb) s.view =
    (require (!(a == 0 && b == 0)) .zeroGcd >>= fun _ =>
      require (nlen s.params.limbBits (Nat.gcd a b) ≤ descLen (s.ld.get rd)) .room >>= fun _ =>
        .ok (s.view.finish rd (Nat.gcd a b))) :=
  twoValues_ready hr ha hb _

/-- MINV with its operands read checks room, range and coprimality, and writes the inverse. -/
theorem computation_minv_ready : computation (.minv rd ra rb) s.view =
    (require (nlen s.params.limbBits b ≤ descLen (s.ld.get rd)) .room >>= fun _ =>
      require (0 < a && a < b) .range >>= fun _ =>
        require (Nat.gcd a b == 1) .notInvertible >>= fun _ =>
          .ok (s.view.finish rd (invMod a b))) :=
  twoValues_ready hr ha hb _

end

end Sys2Proof.Machine

namespace Sys2Proof.Proofs

open Sys2Proof.Machine

/-- Settles O55: both loops keep the gcd of their remainders, and the inverse loop answers where it meets a remainder
of 1. -/
theorem euclideanLoopsComputeGcdAndInverse : Obligations.EuclideanLoopsComputeGcdAndInverse :=
  ⟨fun _ _ h0 hlt => ⟨modInverse_eq_none_iff h0 hlt, fun _ hx => modInverse_some h0 hlt hx⟩,
    fun a b => gcdLoop_eq_gcd (b + 1) a b (Nat.lt_succ_self b)⟩

/-- Settles O48: behind its roles and operands GCD is two checks and one write, taken in order. -/
theorem gcdGivesTheGreatestDivisor : Obligations.GcdGivesTheGreatestDivisor := by
  intro s rd ra rb
  obtain ⟨hbounds, hoverlap⟩ := roleErrors_of_begin (i := .gcd rd ra rb) (s := s) rfl
  refine ⟨Laws.opOf_wordOf _ _, hbounds, hoverlap, fun a b hr ha hb => ?_⟩
  have hcmd := computation_gcd_ready hr ha hb
  refine ⟨fun ha0 hb0 => exec_require_false hcmd (by rw [ha0, hb0]; rfl), fun hne => ?_⟩
  have hnonzero := computation_require_true hcmd (by simpa [imp_iff_not_or] using hne)
  have hpos : 0 < Nat.gcd a b := Nat.pos_of_ne_zero fun h0 => hne (Nat.gcd_eq_zero_iff.mp h0)
  refine ⟨Nat.gcd a b, Nat.gcd_dvd_left a b, Nat.gcd_dvd_right a b,
    fun d hda hdb => Nat.le_of_dvd hpos (Nat.dvd_gcd hda hdb), fun hsmall => ?room, fun hfit => ?result⟩
  case room => exact exec_require_false hnonzero (decide_eq_false (Nat.not_le.mpr hsmall))
  case result => exact exec_finish (computation_require_true hnonzero (decide_eq_true hfit))

/-- Settles O49: behind its roles and operands MINV is three checks and one write, taken in order. -/
theorem minvInverts : Obligations.MinvInverts := by
  intro s rd ra rb
  obtain ⟨hbounds, hoverlap⟩ := roleErrors_of_begin (i := .minv rd ra rb) (s := s) rfl
  refine ⟨Laws.opOf_wordOf _ _, hbounds, hoverlap, fun a n hr ha hn => ?_⟩
  have hcmd := computation_minv_ready hr ha hn
  refine ⟨fun hsmall => exec_require_false hcmd (decide_eq_false (Nat.not_le.mpr hsmall)), fun hfit => ?_⟩
  have hroom := computation_require_true hcmd (decide_eq_true hfit)
  have hrange (h0 : 0 < a) (hlt : a < n) := computation_require_true hroom (by simp [h0, hlt])
  refine ⟨fun hbad => ?range, fun h0 hlt hg => ?notInvertible, fun h0 hlt hg => ?result⟩
  case range => exact exec_require_false hroom (by simpa using hbad)
  case notInvertible => exact exec_require_false (hrange h0 hlt) (beq_eq_false_iff_ne.mpr hg)
  case result =>
    obtain ⟨hone, hbelow, hinv⟩ := invMod_inverts h0 hlt hg
    exact ⟨invMod a n, hone, hbelow, hinv,
      exec_finish (computation_require_true (hrange h0 hlt) (beq_iff_eq.mpr hg))⟩

end Sys2Proof.Proofs
end

section
/-! SUPPORT. Garner's recombination by its coefficient h, the same step by the modular operations of the P context, and
CRTREC as checks taken in order behind two contexts and three sources (45_crt R280, R281). -/

namespace Sys2Proof.Machine

/-! ### The recombined value (45_crt R280) -/

/-- The recombined value is xQ + h Q for the residue h of qInv (xP - xQ) modulo P. -/
theorem crtValue_eq_garner {p : Nat} (hp : 0 < p) (q xp xq qinv : Nat) : ∃ h : Nat, h < p
    ∧ (h : Int) ≡ (qinv : Int) * ((xp : Int) - (xq : Int)) [ZMOD (p : Int)] ∧ crtValue p q xp xq qinv = xq + h * q := by
  have hp0 : (p : Int) ≠ 0 := by omega
  have hpos : (0 : Int) < p := by omega
  have hcast := Int.toNat_of_nonneg (Int.emod_nonneg ((qinv : Int) * ((xp : Int) - (xq : Int))) hp0)
  refine ⟨((qinv : Int) * ((xp : Int) - (xq : Int)) % (p : Int)).toNat, ?_, ?_, rfl⟩
  · exact Int.ofNat_lt.mp (hcast.trans_lt (Int.emod_lt_of_pos _ hpos))
  · rw [hcast]
    exact Int.mod_modEq _ _

/-- A coefficient h below P and congruent to qInv (xP - xQ) is the one of the recombined value. -/
theorem add_mul_eq_crtValue {p h : Nat} (q : Nat) {xp xq qinv : Nat} (hlt : h < p)
    (hmod : (h : Int) ≡ (qinv : Int) * ((xp : Int) - (xq : Int)) [ZMOD (p : Int)]) :
    xq + h * q = crtValue p q xp xq qinv := by
  obtain ⟨h', hlt', hmod', hval⟩ := crtValue_eq_garner (Nat.zero_lt_of_lt hlt) q xp xq qinv
  have hcongr : h ≡ h' [MOD p] := Int.natCast_modEq_iff.mp (hmod.trans hmod'.symm)
  rw [hval, hcongr.eq_of_lt_of_lt hlt hlt']

/-- Where qInv is the inverse of Q modulo P, h Q takes xQ to xP modulo P. -/
theorem garner_modEq {p q xp xq qinv h : Nat} (hinv : qinv * q ≡ 1 [MOD p])
    (hmod : (h : Int) ≡ (qinv : Int) * ((xp : Int) - (xq : Int)) [ZMOD (p : Int)]) : xq + h * q ≡ xp [MOD p] := by
  have hinv' : (qinv : Int) * q ≡ 1 [ZMOD p] := by exact_mod_cast Int.natCast_modEq_iff.mpr hinv
  refine Int.natCast_modEq_iff.mp ?_
  calc ((xq + h * q : Nat) : Int) = xq + h * q := by push_cast; rfl
    _ ≡ xq + qinv * (xp - xq) * q [ZMOD p] := (hmod.mul_right _).add_left _
    _ = xq + qinv * q * (xp - xq) := by ring
    _ ≡ xq + 1 * (xp - xq) [ZMOD p] := (hinv'.mul_right _).add_left _
    _ = xp := by ring

/-! ### Garner's step by the operations of the P context (45_crt R281) -/

/-- Encoding two residues, multiplying and decoding gives their product. -/
theorem decRef_montMulRef_encRef {w : LimbBits} {c : Ctx} {a b : Nat} (hc : c.Consistent w) (ha : a < c.modulus)
    (hb : b < c.modulus) : decRef w c (montMulRef w c (encRef w c a) (encRef w c b)) = a * b % c.modulus := by
  have hpos : 0 < c.modulus := Nat.zero_lt_of_lt ha
  obtain ⟨rinv, hr⟩ : ∃ rinv, IsRinv w c rinv := ⟨_, montRinv_isRinv hc⟩
  obtain ⟨-, hencA, -⟩ := Proofs.ciosMultiplyIsTheMontgomeryProduct w c a b _ hc ha hb hr
  obtain ⟨-, hencB, -⟩ := Proofs.ciosMultiplyIsTheMontgomeryProduct w c b a _ hc hb ha hr
  have hltA : encRef w c a < c.modulus := hencA ▸ Nat.mod_lt _ hpos
  have hltB : encRef w c b < c.modulus := hencB ▸ Nat.mod_lt _ hpos
  obtain ⟨hmul, -, -⟩ := Proofs.ciosMultiplyIsTheMontgomeryProduct w c _ _ _ hc hltA hltB hr
  have hltMul : montMulRef w c (encRef w c a) (encRef w c b) < c.modulus := hmul ▸ Nat.mod_lt _ hpos
  obtain ⟨-, -, hdec⟩ := Proofs.ciosMultiplyIsTheMontgomeryProduct w c _ _ _ hc hltMul hltMul hr
  have hinv : w.base ^ c.m * rinv ≡ 1 [MOD c.modulus] := hr.2
  have hkey : encRef w c a * encRef w c b * rinv % c.modulus * rinv ≡ a * b [MOD c.modulus] :=
    calc encRef w c a * encRef w c b * rinv % c.modulus * rinv
        ≡ encRef w c a * encRef w c b * rinv * rinv [MOD c.modulus] := (Nat.mod_modEq _ _).mul_right _
      _ ≡ a * w.base ^ c.m * (b * w.base ^ c.m) * rinv * rinv [MOD c.modulus] :=
        (((hencA ▸ Nat.mod_modEq _ _).mul (hencB ▸ Nat.mod_modEq _ _)).mul_right _).mul_right _
      _ = a * b * (w.base ^ c.m * rinv) * (w.base ^ c.m * rinv) := by ring
      _ ≡ a * b * 1 * 1 [MOD c.modulus] := (hinv.mul_left _).mul hinv
      _ = a * b := by rw [Nat.mul_one, Nat.mul_one]
  rw [hdec, hmul]
  exact hkey

/-- The masked difference of two residues is below M and congruent to their difference. -/
theorem modSubRef_modEq {w : LimbBits} {c : Ctx} {a b : Nat} (hc : c.Consistent w) (ha : a < c.modulus)
    (hb : b < c.modulus) :
    modSubRef w c a b < c.modulus ∧ (modSubRef w c a b : Int) ≡ (a : Int) - (b : Int) [ZMOD (c.modulus : Int)] := by
  rw [modSubRef_eq (Ctx.Consistent.usable hc) ha hb]
  split
  · have hdiff : ((a - b : Nat) : Int) = a - b := by omega
    exact ⟨by omega, by rw [hdiff]⟩
  · have hdiff : ((a + c.modulus - b : Nat) : Int) = a - b + c.modulus := by omega
    exact ⟨by omega, by rw [hdiff]; exact Int.add_modEq_right⟩

/-- Garner's step by the operations of the P context has the value of the command rule, xQ reduced first. -/
theorem crtRef_eq_crtValue {w : LimbBits} {c : Ctx} (q : Nat) {xp xq qinv : Nat} (hc : c.Consistent w)
    (hxp : xp < c.modulus) (hqinv : qinv < c.modulus) : crtRef w c q xp xq qinv = crtValue c.modulus q xp xq qinv := by
  have hpos : 0 < c.modulus := Nat.zero_lt_of_lt hxp
  obtain ⟨hdlt, hd⟩ := modSubRef_modEq hc hxp (Nat.mod_lt xq hpos)
  have hprod := decRef_montMulRef_encRef hc hqinv hdlt
  refine add_mul_eq_crtValue q (hprod ▸ Nat.mod_lt _ hpos) ?_
  rw [hprod]
  have hxq : ((xq % c.modulus : Nat) : Int) ≡ xq [ZMOD c.modulus] := Int.natCast_modEq_iff.mpr (Nat.mod_modEq _ _)
  calc ((qinv * modSubRef w c xp (xq % c.modulus) % c.modulus : Nat) : Int)
      ≡ ((qinv * modSubRef w c xp (xq % c.modulus) : Nat) : Int) [ZMOD c.modulus] :=
        Int.natCast_modEq_iff.mpr (Nat.mod_modEq _ _)
    _ = qinv * modSubRef w c xp (xq % c.modulus) := Nat.cast_mul _ _
    _ ≡ qinv * (xp - (xq % c.modulus : Nat)) [ZMOD c.modulus] := hd.mul_left _
    _ ≡ qinv * (xp - xq) [ZMOD c.modulus] := (hxq.sub_left _).mul_left _

/-! ### CRTREC behind its contexts and sources (45_crt R280) -/

section
variable {s : State} {rd ra rb rc rx ry : DIdx} {cp cq : Ctx}
  (hr : RolesOk s.params (s.crtRoles rd ra rb rc rx ry)) (hp : s.CtxAt (s.ld.get rc) cp) (hq : s.CtxAt (s.ld.get rx) cq)
include hr hp hq

/-- Behind its two contexts CRTREC checks for room, reads its sources, checks their ranges and writes the value. -/
theorem computation_crtrec_ready : computation (.crtrec rd ra rb rc rx ry) s.view =
    (require (cp.m + cq.m ≤ descLen (s.ld.get rd)) .room >>= fun _ =>
      s.view.val (s.view.desc ra) >>= fun xp => s.view.val (s.view.desc rb) >>= fun xq =>
        s.view.val (s.view.desc ry) >>= fun qinv =>
          require (xp < cp.modulus && xq < cq.modulus && qinv < cp.modulus) .range >>= fun _ =>
            .ok (s.view.finish rd (crtValue cp.modulus cq.modulus xp xq qinv))) := by
  have hroles : checkRoles s.view.params [s.view.writes rd, s.view.reads ra, s.view.reads rb, s.view.reads rc,
    s.view.reads rx, s.view.reads ry] = .ok () := checkRoles_ok_iff.mpr hr
  have hloadP : loadCtx s.view (s.view.desc rc) = .ok cp := loadCtx_ok_iff.mpr hp
  have hloadQ : loadCtx s.view (s.view.desc rx) = .ok cq := loadCtx_ok_iff.mpr hq
  rw [computation, crtrecCmd, hroles, ok_bind, hloadP, ok_bind, hloadQ, ok_bind]
  rfl

/-- With room and its three sources read, CRTREC checks their ranges and writes the value. -/
theorem computation_crtrec_sources {xp xq qinv : Nat} (hroom : cp.m + cq.m ≤ descLen (s.ld.get rd))
    (hxp : s.ValIs ra xp) (hxq : s.ValIs rb xq) (hqinv : s.ValIs ry qinv) :
    computation (.crtrec rd ra rb rc rx ry) s.view =
      (require (xp < cp.modulus && xq < cq.modulus && qinv < cp.modulus) .range >>= fun _ =>
        .ok (s.view.finish rd (crtValue cp.modulus cq.modulus xp xq qinv))) := by
  rw [computation_require_true (computation_crtrec_ready hr hp hq) (decide_eq_true hroom), val_eq hxp, ok_bind,
    val_eq hxq, ok_bind, val_eq hqinv, ok_bind]

end

end Sys2Proof.Machine

namespace Sys2Proof.Proofs

open Sys2Proof.Machine

/-- Settles O50: behind its roles CRTREC is two LoadCtx, two checks and one write, taken in order. -/
theorem crtrecRecombines : Obligations.CrtrecRecombines := by
  rintro s rd ra rb rc rx ry _ rfl
  obtain ⟨hbounds, hoverlap⟩ := roleErrors_of_begin (i := .crtrec rd ra rb rc rx ry) (s := s) rfl
  refine ⟨Laws.opOf_wordOf _ _, hbounds, hoverlap, fun hr ht => exec_crtrec_first hr (loadCtx_tag ht),
    fun hr hz => exec_crtrec_first hr (loadCtx_size hz), fun cp hr hp =>
      ⟨fun ht => exec_crtrec_second hr hp (loadCtx_tag ht), fun hz => exec_crtrec_second hr hp (loadCtx_size hz),
        fun cq hq => ⟨fun hsmall => ?room, fun hroom xp xq qinv hxp hxq hqinv =>
          ⟨fun hbad => ?range, fun hpLt hqLt hiLt => ?result⟩⟩⟩⟩
  case room =>
    exact exec_require_false (computation_crtrec_ready hr hp hq) (decide_eq_false (Nat.not_le.mpr hsmall))
  case range =>
    have hfail : (decide (xp < cp.modulus) && decide (xq < cq.modulus) && decide (qinv < cp.modulus)) = false := by
      simpa [imp_iff_not_or, or_assoc] using hbad
    exact exec_require_false (computation_crtrec_sources hr hp hq hroom hxp hxq hqinv) hfail
  case result =>
    obtain ⟨h, hlt, hmod, hval⟩ := crtValue_eq_garner (Nat.zero_lt_of_lt hpLt) cq.modulus xp xq qinv
    refine ⟨h, hlt, hmod, hval ▸ exec_finish ?_⟩
    exact computation_require_true (computation_crtrec_sources hr hp hq hroom hxp hxq hqinv) (by simp [hpLt, hqLt, hiLt])

/-- Settles O54: xQ + h Q with h below P is below P Q, h Q vanishes modulo Q, and Garner's step gives the same h. -/
theorem crtValueSolvesBothCongruences : Obligations.CrtValueSolvesBothCongruences := by
  refine ⟨fun p q xp xq qinv hxp hxq hinv => ?_,
    fun _ _ q _ _ _ hc hxp _ hqinv => crtRef_eq_crtValue q hc hxp hqinv⟩
  obtain ⟨h, hlt, hmod, hval⟩ := crtValue_eq_garner (Nat.zero_lt_of_lt hxp) q xp xq qinv
  rw [hval]
  refine ⟨?below, ?modP, ?modQ⟩
  case below =>
    calc xq + h * q < q + h * q := Nat.add_lt_add_right hxq _
      _ = (h + 1) * q := by ring
      _ ≤ p * q := Nat.mul_le_mul_right _ hlt
  case modP => rw [garner_modEq hinv hmod, Nat.mod_eq_of_lt hxp]
  case modQ => rw [Nat.add_mul_mod_self_right, Nat.mod_eq_of_lt hxq]

end Sys2Proof.Proofs
end

section
/-! SUPPORT. OPMEM across a warm reset, the window's accesses that fault, and where a command's reads come to an undefined
limb (70_reset_and_hazards R351 to R353, R360). -/

namespace Sys2Proof.Machine

open Sys2Proof.Claims

/-! ### A warm reset (70_reset_and_hazards R350 to R352) -/

/-- A warm reset is a turn of its own. -/
theorem step_warmReset {s : State} {rest : List Turn} (h : s.turns = .warmReset :: rest) :
    step s = .next s.takeTurn.warmReset := by
  simp [step, State.nextTurn, h, runTurn]

theorem Memory.byte?_undefineRange (m : Memory) (w : LimbBits) (d : Word) (a : Nat) :
    (m.undefineRange w d).byte? a = if InByteRange w d a then none else m.byte? a := by
  have hend : (descAddr d + descLen d) * w.bytes = descAddr d * w.bytes + descLen d * w.bytes := Nat.add_mul ..
  split
  case isTrue h => exact Memory.byte?_undefine_inside m (hend ▸ h)
  case isFalse h => exact Memory.byte?_undefine_outside m (by omega)

theorem Memory.byte?_foldl_undefineRange (w : LimbBits) (a : Nat) (ds : List Word) : ∀ m : Memory,
    (ds.foldl (fun m d => m.undefineRange w d) m).byte? a
      = if ∃ d ∈ ds, InByteRange w d a then none else m.byte? a := by
  induction ds with
  | nil => intro m; simp
  | cons d ds ih =>
    intro m
    rw [List.foldl_cons, ih, Memory.byte?_undefineRange, ← ite_or]
    simp only [List.exists_mem_cons_iff, or_comm]

/-- After a warm reset exactly the bytes of the abandoned ranges have lost their values. -/
theorem State.byte?_warmMem (s : State) (a : Nat) :
    s.warmMem.byte? a = if ∃ d ∈ s.abandoned, InByteRange s.params.limbBits d a then none else s.mem.byte? a :=
  Memory.byte?_foldl_undefineRange _ a _ _

theorem State.warmMem_eq_mem {s : State} (h : s.abandoned = []) : s.warmMem = s.mem := by
  rw [State.warmMem, h, List.foldl_nil]

theorem State.abandoned_idle {s : State} (h : s.phase = .idle) : s.abandoned = [] := by
  rw [State.abandoned, h]

theorem State.abandoned_decode_error {s : State} {e : DecodeError} (h : decode s.lcmd = .error e) :
    s.abandoned = [] := by
  rw [State.abandoned, h]
  cases s.phase <;> rfl

theorem State.abandoned_command {s : State} {i : Instr} (hbusy : s.phase = .busy) (h : decode s.lcmd = .ok i) :
    s.abandoned = (writtenFields i).map s.ld.get := by
  rw [State.abandoned, hbusy, h]

theorem LimbBits.bytes_pos (w : LimbBits) : 0 < w.bytes := by cases w <;> decide

/-- A limb whose first byte is undefined is undefined (10_state R51). -/
theorem Memory.limb?_none_of_first {m : Memory} {w : LimbBits} {a : Nat} (h : m.byte? (a * w.bytes) = none) :
    m.limb? w a = none :=
  Memory.readBytes_none h w.bytes le_rfl (Nat.lt_add_of_pos_right (LimbBits.bytes_pos w))

theorem inByteRange_first {w : LimbBits} {d : Word} {a : Nat} (h : inRange d a) : InByteRange w d (a * w.bytes) :=
  ⟨Nat.mul_le_mul_right _ h.1, Nat.mul_lt_mul_of_pos_right h.2 (LimbBits.bytes_pos w)⟩

/-- An abandoned command's written ranges are undefined after a warm reset (R352). -/
theorem State.limb?_warmMem {s : State} {d : Word} {a : Nat} (hd : d ∈ s.abandoned) (ha : inRange d a) :
    s.warmMem.limb? s.params.limbBits a = none :=
  Memory.limb?_none_of_first ((s.byte?_warmMem _).trans (if_pos ⟨d, hd, inByteRange_first ha⟩))

/-! ### Host accesses that fault, and those of the registers -/

theorem hostRead_eq_fault {s : State} {o : Nat} {f : Fault} (h4 : o % 4 = 0)
    (h : readTarget s (target s.params (BitVec.ofNat 21 o)) = .error f) : hostRead s o = .fault f := by
  rw [hostRead, busAccess_read (offset_aligned h4), h]

theorem hostWrite_eq_fault {s : State} {o : Nat} {v : Word} {f : Fault} (h4 : o % 4 = 0)
    (h : writeTarget s v (target s.params (BitVec.ofNat 21 o)) = .error f) : hostWrite s o v = .fault f := by
  rw [hostWrite, busAccess_write (offset_aligned h4), h]

/-- Whatever is no window word can be read in either phase. -/
theorem readTarget_register (s : State) {g : Target} (h : ∀ k, g ≠ .opmem k) : ∃ v, readTarget s g = .ok v := by
  cases g with
  | opmem k => exact absurd rfl (h k)
  | id | cfg | ctrl | status | cmd | result | memSize | desc | reserved => exact ⟨_, rfl⟩

/-- Whatever is no window word can be written in either phase. -/
theorem writeTarget_register (s : State) (v : Word) {g : Target} (h : ∀ k, g ≠ .opmem k) :
    ∃ t, writeTarget s v g = .ok t := by
  cases g with
  | opmem k => exact absurd rfl (h k)
  | id | cfg | ctrl | status | cmd | result | memSize | desc | reserved => exact ⟨_, rfl⟩

section
variable {s : State} {k : Nat} (hp : s.params.Legal) (hk : k < Params.windowWords s.params)
include hp hk

/-- A read of a window word while BUSY is HostHazard (R360). -/
theorem hostRead_window_busy (hbusy : s.phase = .busy) : hostRead s (0x100000 + 4 * k) = .fault .hostHazard :=
  hostRead_eq_fault (by omega) (by rw [target_opmem hp hk, readTarget, hbusy])

/-- A write of a window word while BUSY is HostHazard (R360). -/
theorem hostWrite_window_busy (hbusy : s.phase = .busy) (v : Word) :
    hostWrite s (0x100000 + 4 * k) v = .fault .hostHazard :=
  hostWrite_eq_fault (by omega) (by rw [target_opmem hp hk, writeTarget, hbusy])

/-- A read of a word of an undefined limb while IDLE is UninitRead (R353). -/
theorem hostRead_window_undefined (hidle : s.phase = .idle)
    (h : s.mem.limb? s.params.limbBits (k / s.params.limbBits.words) = none) :
    hostRead s (0x100000 + 4 * k) = .fault .uninitRead :=
  hostRead_eq_fault (by omega) (by rw [target_opmem hp hk, readTarget, hidle, Memory.word?, h])

end

/-! ### A command's reads of undefined limbs (70_reset_and_hazards R353) -/

theorem exec_fault {i : Instr} {s : State} {f : Fault} (h : computation i s.view = .error (.fault f)) :
    exec i s = .fault f := by
  rw [exec_eq, h, complete_fault]

/-- A read of a source gives its value or is UninitRead. -/
theorem val_cases (s : State) (i : DIdx) :
    (∃ x, s.view.val (s.view.desc i) = .ok x) ∨ s.view.val (s.view.desc i) = .error (.fault .uninitRead) :=
  defined_cases _

/-- A read of a source, and what follows it, is UninitRead if the source holds an undefined limb, or else if all that can
follow is. -/
theorem val_bind_uninit {α : Type} {s : State} {i : DIdx} {k : Nat → Except Stop α}
    (h : s.ValUndefined i ∨ ∀ x, k x = .error (.fault .uninitRead)) :
    (s.view.val (s.view.desc i) >>= k) = .error (.fault .uninitRead) := by
  rcases val_cases s i with ⟨x, hx⟩ | hnone
  · rcases h with hu | hk
    · cases hx.symm.trans (val_none hu)
    · rw [hx, ok_bind, hk]
  · rw [hnone, error_bind]

theorem srcBelow_undefined {s : State} {i : DIdx} (h : s.ValUndefined i) (bound : Nat) :
    s.view.srcBelow i bound = .error (.fault .uninitRead) :=
  val_bind_uninit (.inl h)

/-- Where a template command with context `c`, ready but for its sources, must end with UninitRead: the first source holds
an undefined limb; or the second does behind a first one that passes, for an exponentiation the check of its range too. -/
structure UninitSources (s : State) (t : Template) (c : Ctx) (x : Except Stop Done) : Prop where
  first : ∀ ra, t.srcs.head? = some ra → s.ValUndefined ra → x = .error (.fault .uninitRead)
  second : ∀ ra rb a, t.srcs = [ra, rb] → s.ValIs ra a → t.scr = none ∨ a < c.modulus → s.ValUndefined rb →
    x = .error (.fault .uninitRead)

theorem UninitSources.ofModUnary {s : State} {rd ra rc : DIdx} {c : Ctx}
    (hr : s.TemplateReady ⟨rd, [ra], rc, none⟩ c 0) (bound : Ctx → Nat) (f : Ctx → Nat → Nat) :
    UninitSources s ⟨rd, [ra], rc, none⟩ c (modUnary s.view rd ra rc bound f) where
  first := by
    rintro _ ⟨⟩ hu
    have ht : modTemplate s.view rd [ra] rc none (fun _ => 0) = .ok c := modTemplate_ok_iff.mpr hr
    rw [modUnary, ht, ok_bind, srcBelow_undefined hu, error_bind]
  second := nofun

theorem UninitSources.ofModBinary {s : State} {rd ra rb rc : DIdx} {c : Ctx}
    (hr : s.TemplateReady ⟨rd, [ra, rb], rc, none⟩ c 0) (f : Ctx → Nat → Nat → Nat) :
    UninitSources s ⟨rd, [ra, rb], rc, none⟩ c (modBinary s.view rd ra rb rc f) := by
  have ht : modTemplate s.view rd [ra, rb] rc none (fun _ => 0) = .ok c := modTemplate_ok_iff.mpr hr
  rw [modBinary, ht, ok_bind]
  constructor
  case first =>
    rintro _ ⟨⟩ hu
    exact val_bind_uninit (.inl hu)
  case second =>
    rintro _ _ _ ⟨⟩ - - hu
    exact val_bind_uninit (.inr fun _ => val_bind_uninit (.inl hu))

theorem UninitSources.ofExp {s : State} {rd ra rb rc rs : DIdx} {need : Nat → Nat} {c : Ctx}
    (hr : s.TemplateReady ⟨rd, [ra, rb], rc, some rs⟩ c (need c.m)) :
    UninitSources s ⟨rd, [ra, rb], rc, some rs⟩ c (expCmd s.view rd ra rb rc rs need) where
  first := by
    rintro _ ⟨⟩ hu
    have ht : modTemplate s.view rd [ra, rb] rc (some rs) need = .ok c := modTemplate_ok_iff.mpr hr
    rw [expCmd, ht, ok_bind, srcBelow_undefined hu, error_bind]
  second := by
    rintro _ _ a ⟨⟩ ha hlt hu
    rw [expCmd_ready hr ha, decide_eq_true (hlt.resolve_left nofun), require_true, ok_bind]
    exact val_bind_uninit (.inl hu)

/-- The scratch need of EXPWIN's rule is one number. -/
theorem IsWindowNeed.unique {w : LimbBits} {win : BitVec 3} {ne m size size' : Nat}
    (h : IsWindowNeed w win ne m size) (h' : IsWindowNeed w win ne m size') : size = size' :=
  Nat.le_antisymm (IsWindowNeed.mono le_rfl le_rfl h h') (IsWindowNeed.mono le_rfl le_rfl h' h)

/-- Each template command reads its sources behind the template, in its shape: one source, two, or a base and an
exponent. -/
theorem uninitSources_computation {i : Instr} {t : Template} {s : State} {c : Ctx} {need : Nat}
    (hw : i.wellFormed = true) (ht : templateOf i = some t) (hneed : IsScratchNeed s c.m need i)
    (hr : s.TemplateReady t c need) : UninitSources s t c (computation i s.view) := by
  cases i with
  | msetup | bufsz | gcd | minv | crtrec => cases ht
  | menc | mdec | msqr | mred | mneg | mhalf | mdbl | mtpl =>
    obtain rfl := Option.some.inj ht
    obtain rfl : need = 0 := hneed
    exact .ofModUnary hr _ _
  | mmul | madd | msub =>
    obtain rfl := Option.some.inj ht
    obtain rfl : need = 0 := hneed
    exact .ofModBinary hr _
  | expbin =>
    obtain rfl := Option.some.inj ht
    obtain rfl : need = needBin c.m := hneed
    exact .ofExp hr
  | expct =>
    obtain rfl := Option.some.inj ht
    obtain rfl : need = needCt c.m := hneed
    exact .ofExp hr
  | expwin =>
    obtain rfl := Option.some.inj ht
    obtain rfl := IsWindowNeed.unique hneed (needWin_isWindowNeed _ _ _ _)
    rw [computation, expwinCmd_wellFormed hw]
    exact .ofExp hr

/-- MSETUP reads its source right behind the checks on its roles (41_montgomery R180). -/
theorem exec_msetup_undefined {s : State} {rd ra : DIdx} (hr : RolesOk s.params [s.writtenRole rd, s.readRole ra])
    (hu : s.ValUndefined ra) : exec (.msetup rd ra) s = .fault .uninitRead := by
  have hroles : checkRoles s.view.params [s.view.writes rd, s.view.reads ra] = .ok () := checkRoles_ok_iff.mpr hr
  refine exec_fault ?_
  rw [computation, msetupCmd, hroles, ok_bind]
  exact val_bind_uninit (.inl hu)

/-- A command of two plain sources reads both right behind the checks on its roles (44_gcd_inverse R260, R261). -/
theorem twoValues_undefined {s : State} {rd ra rb : DIdx}
    (hr : RolesOk s.params [s.writtenRole rd, s.readRole ra, s.readRole rb]) (hu : s.ValUndefined ra ∨ s.ValUndefined rb)
    (k : Nat → Nat → Except Stop Done) :
    (checkRoles s.params [s.writtenRole rd, s.readRole ra, s.readRole rb] >>= fun _ =>
      s.view.val (s.view.desc ra) >>= fun x => s.view.val (s.view.desc rb) >>= fun y => k x y)
        = .error (.fault .uninitRead) := by
  rw [checkRoles_ok_iff (u := ()).mpr hr, ok_bind]
  exact val_bind_uninit (hu.imp_right fun hb _ => val_bind_uninit (.inl hb))

/-- Behind two contexts that load and the check for room, CRTREC reads its three sources (45_crt R280). -/
theorem exec_crtrec_sources_undefined {s : State} {rd ra rb rc rx ry : DIdx} {cp cq : Ctx}
    (hr : RolesOk s.params (s.crtRoles rd ra rb rc rx ry)) (hp : s.CtxAt (s.ld.get rc) cp)
    (hq : s.CtxAt (s.ld.get rx) cq) (hroom : cp.m + cq.m ≤ descLen (s.ld.get rd))
    (hu : s.ValUndefined ra ∨ s.ValUndefined rb ∨ s.ValUndefined ry) :
    exec (.crtrec rd ra rb rc rx ry) s = .fault .uninitRead := by
  refine exec_fault ((computation_require_true (computation_crtrec_ready hr hp hq) (decide_eq_true hroom)).trans ?_)
  exact val_bind_uninit (hu.imp_right fun hu _ => val_bind_uninit (hu.imp_right fun hy _ => val_bind_uninit (.inl hy)))

end Sys2Proof.Machine

namespace Sys2Proof.Proofs

open Sys2Proof.Machine Sys2Proof.Claims

/-- Settles O16: the turn is `State.warmReset` of the state with the turn taken, and its OPMEM lost the abandoned ranges'
bytes. -/
theorem warmResetKeepsMemoryButAbandonedRanges : Obligations.WarmResetKeepsMemoryButAbandonedRanges := by
  intro s rest h
  refine ⟨s.takeTurn.warmReset, step_warmReset h, rfl, rfl, rfl, rfl, rfl, State.statusWord_eq_zero rfl rfl rfl rfl, rfl,
    rfl, rfl, rfl, ?turns, fun hidle => ?idle, fun e _ he => ?noCommand,
    fun i hbusy hi => ⟨fun f hf a ha => ?written, fun a ha => ?outside⟩⟩
  case turns => rw [State.warmReset_turns, State.takeTurn_turns, h, List.tail_cons]
  case idle => exact State.warmMem_eq_mem (s := s.takeTurn) (State.abandoned_idle hidle)
  case noCommand => exact State.warmMem_eq_mem (s := s.takeTurn) (State.abandoned_decode_error he)
  case written =>
    have hmem : s.ld.get f ∈ s.takeTurn.abandoned :=
      State.abandoned_command (s := s.takeTurn) hbusy hi ▸ List.mem_map_of_mem hf
    exact State.limb?_warmMem hmem ha
  case outside =>
    have hout : ¬ ∃ d ∈ s.takeTurn.abandoned, InByteRange s.params.limbBits d a := by
      simpa [State.abandoned_command (s := s.takeTurn) hbusy hi] using ha
    exact (s.takeTurn.byte?_warmMem a).trans (if_neg hout)

/-- Settles O27: a window word answers no access while BUSY, and no offset below the window names one. -/
theorem opmemAccessWhileBusyIsAHazard : Obligations.OpmemAccessWhileBusyIsAHazard := by
  intro s v hbusy hp
  refine ⟨fun k hk => ?window, fun o ho h4 => ?register⟩
  case window =>
    rw [← LimbBits.words_eq] at hk
    exact ⟨hostRead_window_busy hp hk hbusy, hostWrite_window_busy hp hk hbusy v⟩
  case register =>
    obtain ⟨x, hx⟩ := readTarget_register s (target_ne_opmem (p := s.params) ho)
    obtain ⟨t, ht⟩ := writeTarget_register s v (target_ne_opmem (p := s.params) ho)
    exact ⟨⟨_, hostRead_eq_readNext h4 hx⟩, ⟨_, hostWrite_eq_wroteNext h4 ht⟩⟩

/-- Settles O28: each read the checks reach ends the command if its limb is undefined, and the reads before it either
succeed or end it with the same fault. -/
theorem readOfUndefinedLimbFaults : Obligations.ReadOfUndefinedLimbFaults := by
  refine ⟨fun s k hidle hp hk h => ?host, fun i t s hw ht => ⟨fun hr hu => ?context, fun c need hneed hr => ?sources⟩,
    fun s rd ra => exec_msetup_undefined, fun s rd ra rb hr hu => ?twoValues,
    fun s rd ra rb rc rx ry hr => ⟨fun hu => exec_crtrec_first hr (loadCtx_undefined hu), fun cp hcp =>
      ⟨fun hu => exec_crtrec_second hr hcp (loadCtx_undefined hu), fun cq hcq hroom hu => ?crtrec⟩⟩⟩
  case host =>
    rw [← LimbBits.words_eq] at hk h
    exact hostRead_window_undefined hp hk hidle h
  case context => exact exec_template_loadCtx hw ht hr (loadCtx_undefined hu)
  case sources =>
    obtain ⟨first, second⟩ := uninitSources_computation hw ht hneed hr
    exact ⟨fun ra hra hu => exec_fault (first ra hra hu),
      fun ra rb a hsrcs ha hbound hu => exec_fault (second ra rb a hsrcs ha hbound hu)⟩
  case twoValues => exact ⟨exec_fault (twoValues_undefined hr hu _), exec_fault (twoValues_undefined hr hu _)⟩
  case crtrec => exact exec_crtrec_sources_undefined hr hcp hcq hroom hu

end Sys2Proof.Proofs
end
